-- ==== Sys2Proof/Word.lean ====
section
/-! DEFINITION. The words of the Huffman CORE: bit sequences, the 9-bit symbol, the 32-bit word, the tree (00_scope R11, R14; 10_state R21) and an entry of the priority structure (10_state R26). -/

namespace Sys2Proof

/-- A bit sequence, first bit of the stream first (00_scope R11). -/
abbrev Bits := List Bool

/-- A symbol field: 9 bits, `SYM_BITS` (00_scope R8). 0 to 255 are byte values, 256 is the sentinel, 257 to 511 are reserved (30_encoding R83, R94). -/
abbrev Sym := BitVec 9

/-- The first word of a compressed stream, `MAGIC_BITS` wide (00_scope R8). -/
abbrev Word32 := BitVec 32

/-- The end-of-data sentinel, `EOF_SYM` (00_scope R8). -/
abbrev EOF_SYM : Sym := 256#9

/-- The size of the alphabet, symbols 0 to 256, `NSYM` (00_scope R8). It is also the largest number of leaves of a tree the hardware holds (R9). -/
abbrev NSYM : Nat := 257

/-- A tree of the hardware (00_scope R14): full by construction, every node has 0 or 2 children (10_state R22 (a)). No weight is kept in it (10_state R21). -/
inductive Tree where
  | leaf (sym : Sym)
  | node (left right : Tree)
  deriving DecidableEq, Repr

/-- An entry `(w, q, t)` of the priority structure: weight, sequence number, tree (10_state R26). -/
structure PqEntry where
  weight : Nat
  seq : Nat
  tree : Tree
  deriving DecidableEq, Repr

end Sys2Proof
end

