-- ==== Sys2Proof/Machine/Bits.lean ====
section
/-! DEFINITION. Words and bit sequences, most significant bit first everywhere (00_scope R12), and the padding length of 20_memory R54. -/

namespace Sys2Proof

/-- `bits_n(v)`: the `n` low bits of `v`, most significant first (00_scope R12). -/
def bitsOf : Nat → Nat → Bits
  | 0, _ => []
  | n + 1, v => v.testBit n :: bitsOf n v

/-- `val(s)`: the number whose binary digits, most significant first, are `s` (00_scope R12). -/
def valOf : Bits → Nat
  | [] => 0
  | b :: s => b.toNat * 2 ^ s.length + valOf s

/-- The number of zeros `SnkClose` appends to `len` bits (20_memory R54, 30_encoding R86). -/
def padLen (len : Nat) : Nat := (8 - len % 8) % 8

/-- The bit sequence of a byte sequence (20_memory R50, R60). -/
def bitsOfBytes : List (BitVec 8) → Bits
  | [] => []
  | b :: bs => bitsOf 8 b.toNat ++ bitsOfBytes bs

/-- A bit sequence cut into bytes from the left (20_memory R55, R60); a last group of fewer than 8 bits gives no byte (20_memory R63). -/
def bytesOfBits : Bits → List (BitVec 8)
  | b0 :: b1 :: b2 :: b3 :: b4 :: b5 :: b6 :: b7 :: rest =>
    BitVec.ofNat 8 (valOf [b0, b1, b2, b3, b4, b5, b6, b7]) :: bytesOfBits rest
  | _ => []

end Sys2Proof
end

