-- ==== Sys2Proof/Config.lean ====
section
/-! DEFINITION. The parameters DOC leaves open (00_scope R10). `MAGIC`, `WEIGHT_BITS`, `TIEBREAK`, `CHILD_ORDER` and `LEAF_ORDER` are constants of the build without a body: nothing in Lean can evaluate them, so a claim holds whatever they are. DESIGN CHOICE, safe: logs 1, 2 and 3. -/

namespace Sys2Proof

/-- The three open choices of the tree builder as one argument of its rules (00_scope R10, 93 U1, U2, U15). The rules take it as an argument, so that a claim can be made for every policy. -/
structure Policy where
  /-- `TIEBREAK`: which of the entries of least weight is removed, as an index into them (taken modulo their number), from the whole priority structure. -/
  pick : List PqEntry → Nat
  /-- `CHILD_ORDER`: `true` makes the second removed entry the left child. -/
  secondLeft : PqEntry → PqEntry → Bool
  /-- `LEAF_ORDER`: leaves enter in ascending order of this key, and of the symbol where the keys agree. Every order of the symbols is the order of some key. -/
  leafKey : Nat → Nat

/-- The reference policy `FIFO` of 40_tree_builder R110 with ascending `LEAF_ORDER` (R106). Only tests use it; no rule of the hardware requires it. -/
def Policy.fifo : Policy where
  pick := fun _ => 0
  secondLeft := fun _ _ => false
  leafKey := id

namespace Config

/-- `MAGIC` (00_scope R10, 92 D4): any 32-bit value. Log 1. -/
opaque magic : Word32

/-- `WEIGHT_BITS` less one (00_scope R10, 92 D5). Log 2. -/
opaque weightBitsLessOne : Nat

/-- `WEIGHT_BITS`, a positive integer (00_scope R10). Only the launch premise of 40_tree_builder R104 reads it (Safety.lean). -/
def weightBits : Nat := weightBitsLessOne + 1

/-- `TIEBREAK` of this build (00_scope R10, 92 D7). Log 3. -/
opaque pick : List PqEntry → Nat

/-- `CHILD_ORDER` of this build (00_scope R10, 92 D8). Log 3. -/
opaque secondLeft : PqEntry → PqEntry → Bool

/-- `LEAF_ORDER` of this build (00_scope R10, 92 D6). Log 3. -/
opaque leafKey : Nat → Nat

/-- The open choices of this build, "the same every time for the same parameters and the same counts" (40_tree_builder R112). -/
def policy : Policy := ⟨pick, secondLeft, leafKey⟩

end Config

end Sys2Proof
end

