-- ==== Sys2Proof/Machine/Tree.lean ====
section
/-! DEFINITION. The functions on trees of 00_scope R14 and R15 and the two checks of 10_state R22 that concern a tree alone. -/

namespace Sys2Proof

/-- `leaves(t)`: the leaf symbols, left to right (00_scope R14). -/
def Tree.leaves : Tree → List Sym
  | .leaf y => [y]
  | .node l r => l.leaves ++ r.leaves

/-- `nleaves(t)` (00_scope R14). -/
def Tree.nleaves : Tree → Nat
  | .leaf _ => 1
  | .node l r => l.nleaves + r.nleaves

/-- The number of nodes, internal nodes and leaves together. -/
def Tree.nodes : Tree → Nat
  | .leaf _ => 1
  | .node l r => l.nodes + r.nodes + 1

/-- `sub(t, p)`: the subtree reached from `t` along `p`, 0 for left and 1 for right (00_scope R14). -/
def Tree.sub : Tree → Bits → Option Tree
  | t, [] => some t
  | .leaf _, _ :: _ => none
  | .node l _, false :: p => l.sub p
  | .node _ r, true :: p => r.sub p

/-- `ser(t)`: the header of a tree (00_scope R15, 41_header_serializer R125). -/
def Tree.ser : Tree → Bits
  | .leaf y => true :: bitsOf 9 y.toNat
  | .node l r => false :: (l.ser ++ r.ser)

/-- `paths(t, p)`: every leaf's symbol with its path, in pre-order (00_scope R15, 43_encoder R151). -/
def Tree.paths : Tree → Bits → List (Sym × Bits)
  | .leaf y, p => [(y, p)]
  | .node l r, p => l.paths (p ++ [false]) ++ r.paths (p ++ [true])

/-- `codes(t)` (00_scope R15). -/
def Tree.codes (t : Tree) : List (Sym × Bits) := t.paths []

/-- 10_state R22 (b) and (c): every leaf symbol is in 0..256 and there are at most 257 leaves. -/
abbrev Tree.legal (t : Tree) : Prop := (∀ y ∈ t.leaves, y.toNat ≤ 256) ∧ t.nleaves ≤ NSYM

end Sys2Proof
end

