-- ==== Sys2Proof/Syntax.lean ====
section
/-! DEFINITION. The instructions: the 19 rows of spec/opcode_table.json. Eight are commands of the command port (30_encoding R91), seven are items of the compressed stream (R81 to R86, R94, R95) and four are the end-of-data event where an item is expected (R98). -/

namespace Sys2Proof

/-- A command code of the command port, the value of the register `CMD` (10_state R30, 30_encoding R91). -/
inductive Command where
  | nop | compress | decompress | tbRun | hsRun | hdRun | encRun | decRun
  deriving DecidableEq, Repr

/-- One constructor per row of spec/opcode_table.json. -/
inductive Instr where
  /-- `NOP`, command 0: accepted, changes nothing (10_state R40). -/
  | nop
  /-- `COMPRESS`, command 1 (43_encoder R160). -/
  | compress
  /-- `DECOMPRESS`, command 2 (44_decoder R178). -/
  | decompress
  /-- `TB_RUN`, command 3 (40_tree_builder R100). -/
  | tbRun
  /-- `HS_RUN`, command 4 (41_header_serializer R120). -/
  | hsRun
  /-- `HD_RUN`, command 5 (42_header_deserializer R130). -/
  | hdRun
  /-- `ENC_RUN`, command 6 (43_encoder R150). -/
  | encRun
  /-- `DEC_RUN`, command 7 (44_decoder R170). -/
  | decRun
  /-- `MAGIC`: the first word of a stream (30_encoding R81). -/
  | magic
  /-- `MAGIC_BAD`: any other first word `m` (30_encoding R95). -/
  | magicBad (m : Word32)
  /-- `N`: an internal node of the header (30_encoding R82). -/
  | n
  /-- `L`: a leaf of the header with symbol `y` in 0..256 (30_encoding R83). -/
  | l (y : Sym)
  /-- `L_RESERVED`: a leaf item whose field `y` is in 257..511 (30_encoding R94). -/
  | lReserved (y : Sym)
  /-- `C`: body bits as written, 0 for left and 1 for right (30_encoding R85, R93). -/
  | c (path : Bits)
  /-- `PAD`: `k` zero bits that fill the last byte (30_encoding R86). -/
  | pad (k : Nat)
  /-- `EOD_AT_MAGIC`: fewer than 32 bits remain where the magic word is expected (44_decoder R172). -/
  | eodAtMagic
  /-- `EOD_AT_HDR_TAG`: no bit remains where a tag bit is expected (42_header_deserializer R132). -/
  | eodAtHdrTag
  /-- `EOD_AT_HDR_SYM`: fewer than 9 bits remain after a tag bit 1 (42_header_deserializer R135). -/
  | eodAtHdrSym
  /-- `EOD_AT_BODY`: no bit remains where a body bit is expected (44_decoder R175). -/
  | eodAtBody
  deriving DecidableEq, Repr

end Sys2Proof
end

