-- ==== Sys2Proof/Decode.lean ====
section
/-! DEFINITION. The decoder of the command port and of the compressed stream, total on any bits, and the encoder written from the same encodings (30_encoding R80 to R98). What an item is depends on where it stands: the command port, the first word, the header and the body are read apart (R98), which is the decoder's `Ctx`. -/

namespace Sys2Proof

/-- Where an item is expected (30_encoding R87, R98). -/
inductive Ctx where
  /-- the 3-bit command port (30_encoding R90) -/
  | command
  /-- the first word of a stream (30_encoding R81) -/
  | magic
  /-- a header item (30_encoding R82, R83) -/
  | header
  /-- one body bit, as the decoder reads them (44_decoder R175) -/
  | bodyBit
  /-- a whole body code, from the root of a tree (30_encoding R85) -/
  | code (t : Tree)
  /-- padding of the given length (30_encoding R86) -/
  | padding (k : Nat)
  deriving DecidableEq, Repr

/-- Why bits are no item. Only the command port and the padding have such a case: in the reading contexts every bit sequence, the empty one included, is exactly one item. -/
inductive DecodeError where
  /-- fewer than 3 bits stand on the command port -/
  | shortCommand
  /-- fewer bits remain than the padding has -/
  | shortPadding
  deriving DecidableEq, Repr

/-- The code of a command (30_encoding R91). -/
def Command.code : Command → BitVec 3
  | .nop => 0
  | .compress => 1
  | .decompress => 2
  | .tbRun => 3
  | .hsRun => 4
  | .hdRun => 5
  | .encRun => 6
  | .decRun => 7

/-- The instruction of a command code (30_encoding R91); all eight are defined. -/
def decodeCommand (w : BitVec 3) : Instr :=
  match w.toNat with
  | 0 => .nop
  | 1 => .compress
  | 2 => .decompress
  | 3 => .tbRun
  | 4 => .hsRun
  | 5 => .hdRun
  | 6 => .encRun
  | _ => .decRun

/-- The first word (30_encoding R81, R95, 44_decoder R172): all 32 bits are compared. -/
def decodeMagic (magic : Word32) (x : Bits) : Instr × Bits :=
  if x.length < 32 then (.eodAtMagic, x)
  else
    let w : Word32 := BitVec.ofNat 32 (valOf (x.take 32))
    (if w = magic then .magic else .magicBad w, x.drop 32)

/-- A header item (30_encoding R82, R83, R84, R94): the tag bit tells which. On a short field only the tag is consumed (20_memory R65). -/
def decodeHeader : Bits → Instr × Bits
  | [] => (.eodAtHdrTag, [])
  | false :: x => (.n, x)
  | true :: x =>
    if x.length < 9 then (.eodAtHdrSym, x)
    else
      let y : Sym := BitVec.ofNat 9 (valOf (x.take 9))
      (if y.toNat ≤ 256 then .l y else .lReserved y, x.drop 9)

/-- One body bit (44_decoder R175). -/
def decodeBodyBit : Bits → Instr × Bits
  | [] => (.eodAtBody, [])
  | b :: x => (.c [b], x)

/-- The walk from the root to a leaf that ends a whole code (30_encoding R85, R87): the path and what follows it, or nothing where the bits end first. -/
def walkCode : Tree → Bits → Option (Bits × Bits)
  | .leaf _, x => some ([], x)
  | .node _ _, [] => none
  | .node l _, false :: x => (walkCode l x).map fun q => (false :: q.1, q.2)
  | .node _ r, true :: x => (walkCode r x).map fun q => (true :: q.1, q.2)

/-- The decoder: the item that stands first in `x` where `ctx` is expected, and the bits after it. -/
def decodeFor (magic : Word32) (ctx : Ctx) (x : Bits) : Except DecodeError (Instr × Bits) :=
  match ctx with
  | .command =>
    if x.length < 3 then .error .shortCommand
    else .ok (decodeCommand (BitVec.ofNat 3 (valOf (x.take 3))), x.drop 3)
  | .magic => .ok (decodeMagic magic x)
  | .header => .ok (decodeHeader x)
  | .bodyBit => .ok (decodeBodyBit x)
  | .code t =>
    match walkCode t x with
    | some (p, rest) => .ok (.c p, rest)
    | none => .ok (.eodAtBody, [])
  | .padding k => if x.length < k then .error .shortPadding else .ok (.pad k, x.drop k)

/-- The decoder for this build's `MAGIC`. -/
def decode (ctx : Ctx) (x : Bits) : Except DecodeError (Instr × Bits) := decodeFor Config.magic ctx x

/-- The encoder: the bits of an item, which are the bits that reading it consumes. An end-of-data event consumes nothing, but `EOD_AT_HDR_SYM` comes after a tag bit 1 has been read (42_header_deserializer R135). -/
def encodeFor (magic : Word32) : Instr → Bits
  | .nop => bitsOf 3 Command.nop.code.toNat
  | .compress => bitsOf 3 Command.compress.code.toNat
  | .decompress => bitsOf 3 Command.decompress.code.toNat
  | .tbRun => bitsOf 3 Command.tbRun.code.toNat
  | .hsRun => bitsOf 3 Command.hsRun.code.toNat
  | .hdRun => bitsOf 3 Command.hdRun.code.toNat
  | .encRun => bitsOf 3 Command.encRun.code.toNat
  | .decRun => bitsOf 3 Command.decRun.code.toNat
  | .magic => bitsOf 32 magic.toNat
  | .magicBad m => bitsOf 32 m.toNat
  | .n => [false]
  | .l y => true :: bitsOf 9 y.toNat
  | .lReserved y => true :: bitsOf 9 y.toNat
  | .c p => p
  | .pad k => List.replicate k false
  | .eodAtMagic => []
  | .eodAtHdrTag => []
  | .eodAtHdrSym => [true]
  | .eodAtBody => []

/-- The encoder for this build's `MAGIC`. -/
def encode (i : Instr) : Bits := encodeFor Config.magic i

/-- `i` can stand in the context `ctx` before the bits `x`: its context is one of those where its row is expected, a code ends at a leaf of the tree, and an end-of-data event comes where too few bits remain. -/
def Instr.standsIn : Instr → Ctx → Bits → Prop
  | .nop, ctx, _ | .compress, ctx, _ | .decompress, ctx, _ | .tbRun, ctx, _
  | .hsRun, ctx, _ | .hdRun, ctx, _ | .encRun, ctx, _ | .decRun, ctx, _ => ctx = .command
  | .magic, ctx, _ | .magicBad _, ctx, _ => ctx = .magic
  | .n, ctx, _ | .l _, ctx, _ | .lReserved _, ctx, _ => ctx = .header
  | .c p, ctx, _ =>
    (ctx = .bodyBit ∧ p.length = 1) ∨ ∃ t y, ctx = .code t ∧ t.sub p = some (.leaf y)
  | .pad k, ctx, _ => ctx = .padding k
  | .eodAtMagic, ctx, x => ctx = .magic ∧ x.length < 32
  | .eodAtHdrTag, ctx, x => ctx = .header ∧ x = []
  | .eodAtHdrSym, ctx, x => ctx = .header ∧ x.length < 9
  | .eodAtBody, ctx, x => (ctx = .bodyBit ∨ ∃ l r, ctx = .code (.node l r)) ∧ x = []

/-- The context and the bits that a word of the opcode table stands for. The table numbers an item's bits with the first stream bit most significant, and a width given in whole bytes stands for the row's own width: 3 (or 8) for a command, 1 for `N`, 10 (or 16) for a leaf item, 32 for a first word. A width of 8 bits is read as the command port's, whose eight codes it holds; the row `N`, one bit wide, has the width 1 (log 15). -/
def tableItem (nbits w : Nat) : Option (Ctx × Bits) :=
  if nbits = 3 ∨ nbits = 8 then (if w < 8 then some (.command, bitsOf 3 w) else none)
  else if nbits = 1 then (if w = 0 then some (.header, bitsOf 1 w) else none)
  else if nbits = 10 ∨ nbits = 16 then (if w < 1024 then some (.header, bitsOf 10 w) else none)
  else if nbits = 32 then (if w < 2 ^ 32 then some (.magic, bitsOf 32 w) else none)
  else none

/-- The instruction the decoder reads from a word of the opcode table. -/
def decodeTableWord (nbits w : Nat) : Option Instr :=
  match tableItem nbits w with
  | none => none
  | some (ctx, x) =>
    match decode ctx x with
    | .ok (i, _) => some i
    | .error _ => none

end Sys2Proof
end

