-- ==== Sys2Proof/Machine/State.lean ====
section
/-! DEFINITION. The state of one CORE instance and of the two streams beside it (10_state R20 to R42, 20_memory R50, R55), as plain data, the reasons a step can stop, and the state right after reset. -/

namespace Sys2Proof.Machine

/-- The sequencer's values (10_state R31). The codes 18 to 31 are never taken (93 U14). -/
inductive Phase where
  | idle | tbCount | tbInit | tbMerge | hsWalk | hdWalk | encMagic | encTable | encRewind
  | encBody | encEof | encClose | decMagic | decStart | decWalk | decClose | done | fault
  deriving DecidableEq, Repr

/-- `TREE_ORIGIN` (10_state R24). -/
inductive Origin where
  | built | read
  deriving DecidableEq, Repr

/-- A frame of `HD_STACK` (10_state R28). -/
inductive HdFrame where
  | awaitLeft
  | haveLeft (l : Tree)
  deriving DecidableEq, Repr

/-- `FAULT_CODE` (10_state R34). -/
inductive FaultCode where
  | none | malformedHeader | truncatedStream
  deriving DecidableEq, Repr

/-- `FAULT_SUB` (10_state R35). -/
inductive FaultSub where
  | none | magicMismatch | symbolRange | capacity | leafRoot
  | eodMagic | eodHdrTag | eodHdrSym | eodBody
  deriving DecidableEq, Repr

/-- The source `SRC` (20_memory R50). -/
structure Source where
  bits : Bits
  pos : Nat
  deriving DecidableEq, Repr

/-- The sink `SNK` (20_memory R55). -/
structure Sink where
  bits : Bits
  closed : Bool
  deriving DecidableEq, Repr

/-- A stream transaction with its arguments and its result (20_memory R64, R71); `none` is `EOD`. -/
inductive Transaction where
  | srcRead (n : Nat) (result : Option Nat)
  | snkWrite (n v : Nat)
  | snkWritePath (p : Bits)
  | srcRewind
  | snkClose
  deriving DecidableEq, Repr

/-- `COUNT[0..256]` (10_state R25). -/
abbrev CountTable := Vector Nat 257

/-- `CODE[0..256]` (10_state R29). -/
abbrev CodeTable := Vector (Option Bits) 257

/-- The state. Registers of the spec keep the spec's names; `rst` and `cmdPort` are the host's two inputs (log 5) and `trace` is the model's own observation of the transactions (log 8). -/
structure State where
  /-- the reset input `RST` (70_reset R230) -/
  rst : Bool
  /-- the command the host presents now, if any (10_state R40, 30_encoding R90) -/
  cmdPort : Option (BitVec 3)
  /-- `PHASE` (10_state R31) -/
  phase : Phase
  /-- `CMD` (10_state R30) -/
  cmd : Command
  /-- `TREE`, with no value after reset (10_state R23, R42, log 7) -/
  tree : Option Tree
  /-- `TREE_VALID` (10_state R24) -/
  treeValid : Bool
  /-- `TREE_ORIGIN` (10_state R24) -/
  treeOrigin : Origin
  /-- `COUNT` (10_state R25) -/
  count : CountTable
  /-- `COUNT_VALID` (10_state R25) -/
  countValid : Bool
  /-- `PQ`, in order of insertion (10_state R26) -/
  pq : List PqEntry
  /-- `SEQ` (10_state R26) -/
  seq : Nat
  /-- `HS_STACK`, top first (10_state R27) -/
  hsStack : List Tree
  /-- `HD_STACK`, top first (10_state R28) -/
  hdStack : List HdFrame
  /-- `LEAF_CNT` (10_state R28) -/
  leafCnt : Nat
  /-- `NEED` (10_state R28) -/
  need : Nat
  /-- `CODE` (10_state R29) -/
  code : CodeTable
  /-- `TABLE_VALID` (10_state R29) -/
  tableValid : Bool
  /-- `ENC_STACK`, top first (10_state R29) -/
  encStack : List (Tree × Bits)
  /-- `CUR`, with no value after reset (10_state R29, R42, log 7) -/
  cur : Option Tree
  /-- `FAULT_CODE` (10_state R34) -/
  faultCode : FaultCode
  /-- `FAULT_SUB` (10_state R35) -/
  faultSub : FaultSub
  /-- `FAULT_VALUE` (10_state R36) -/
  faultValue : Word32
  /-- `FAULT_PHASE` (10_state R37) -/
  faultPhase : Phase
  /-- `SRC`, the collaborator's (20_memory R50) -/
  src : Source
  /-- `SNK`, the collaborator's (20_memory R55) -/
  snk : Sink
  /-- the transactions issued so far, oldest first (20_memory R71, log 8) -/
  trace : List Transaction
  deriving DecidableEq, Repr

/-- Stuck states: in each of these no rule of the spec is enabled (93: "stuck (no step exists)"). None of them is reachable by the rules from reset, whatever the host does. Stopping is safe (log 13). -/
inductive Fault where
  /-- raised by `fireTbMerge`: `TB_MERGE` with an empty priority structure; R107 wants two entries and R108 one. Safe. -/
  | queueEmpty
  /-- raised by the header-reading items: `HD_WALK` with `NEED = 0`; R132 wants `NEED >= 1`. Safe. -/
  | headerClosed
  /-- raised where a phase is complete: the phase is not in the chain of `CMD` (10_state R41). Safe. -/
  | noNextPhase
  /-- raised by the body items: `DEC_WALK` with `CUR` a leaf; R175 wants an internal node. Safe. -/
  | curNotNode
  /-- raised by the decoder: a leaf whose symbol is 257..511, which no tree held with `TREE_VALID = 1` has (10_state R22); R174 and R175 give it no case. Safe. -/
  | reservedLeaf
  deriving DecidableEq, Repr

/-- Situations the spec excludes by the word "refuse" (60_exceptions R210), each with its own name, and items that stand where no rule reads or writes them. Refusing is safe. -/
inductive Refusal where
  /-- an instruction that has no meaning in this model; raised by no arm. Safe. -/
  | notModelled (mnemonic : String)
  /-- raised by `HS_RUN`, `ENC_RUN`, `DEC_RUN` and by the rules that read `TREE`: `TREE_VALID = 0` (93 U7, U8). Safe, log 10. -/
  | treeNotValid
  /-- raised by the five commands that write: the sink is closed, or, but for `HS_RUN`, not empty (93 U9, 70_reset R236). Safe, log 10. -/
  | sinkNotReady
  /-- raised by every sink transaction: the sink is closed (20_memory R52, 70_reset R236). Safe, log 10. -/
  | sinkClosed
  /-- raised in `ENC_BODY` and `ENC_EOF`: the symbol's `CODE[]` entry is `none` (93 U5). Safe, log 10. -/
  | noCode
  /-- raised by the body items: `CUR` holds no value (93 U7). Safe, log 10. -/
  | curNoValue
  /-- raised by the host's supply of a stream, and by no step: `BUSY = 1`, when the streams are not the host's to touch (70_reset R241, 93 U12). Safe, log 21. -/
  | streamInUse
  /-- raised by the stream items: in this phase no rule reads or writes such an item. Safe, log 14. -/
  | itemOutOfPhase
  /-- raised by the stream items: the phase is right, but this is not the item that the source holds, or that the tree or the table gives, next. Safe, log 14. -/
  | itemNotNext
  deriving DecidableEq, Repr

/-- The state right after reset (10_state R42). The streams and the inputs, which reset does not touch (70_reset R234), stand at power-up as logs 5 and 6 say. -/
def State.reset : State where
  rst := false
  cmdPort := none
  phase := .idle
  cmd := .nop
  tree := none
  treeValid := false
  treeOrigin := .built
  count := Vector.replicate 257 0
  countValid := false
  pq := []
  seq := 0
  hsStack := []
  hdStack := []
  leafCnt := 0
  need := 1
  code := Vector.replicate 257 none
  tableValid := false
  encStack := []
  cur := none
  faultCode := .none
  faultSub := .none
  faultValue := 0
  faultPhase := .idle
  src := ⟨[], 0⟩
  snk := ⟨[], false⟩
  trace := []

end Sys2Proof.Machine
end

