-- ==== Sys2Proof/Machine/Flags.lean ====
section
/-! DEFINITION. The flags and codes the host reads (10_state R30 to R37). There are no arithmetic condition codes: every flag is a function of other state (R33). -/

namespace Sys2Proof.Machine

/-- The 5-bit code of a phase (10_state R31). -/
def Phase.code : Phase → BitVec 5
  | .idle => 0
  | .tbCount => 1
  | .tbInit => 2
  | .tbMerge => 3
  | .hsWalk => 4
  | .hdWalk => 5
  | .encMagic => 6
  | .encTable => 7
  | .encRewind => 8
  | .encBody => 9
  | .encEof => 10
  | .encClose => 11
  | .decMagic => 12
  | .decStart => 13
  | .decWalk => 14
  | .decClose => 15
  | .done => 16
  | .fault => 17

/-- The code of `TREE_ORIGIN` (10_state R24). -/
def Origin.code : Origin → BitVec 1
  | .built => 0
  | .read => 1

/-- The 2-bit code of `FAULT_CODE` (10_state R34). -/
def FaultCode.code : FaultCode → BitVec 2
  | .none => 0
  | .malformedHeader => 1
  | .truncatedStream => 2

/-- The 4-bit code of `FAULT_SUB` (10_state R35). -/
def FaultSub.code : FaultSub → BitVec 4
  | .none => 0
  | .magicMismatch => 1
  | .symbolRange => 2
  | .capacity => 3
  | .leafRoot => 4
  | .eodMagic => 8
  | .eodHdrTag => 9
  | .eodHdrSym => 10
  | .eodBody => 11

/-- The kind a sub-code belongs to (10_state R35, 60_exceptions R201). -/
def FaultSub.kind : FaultSub → FaultCode
  | .none => .none
  | .magicMismatch | .symbolRange | .capacity | .leafRoot => .malformedHeader
  | .eodMagic | .eodHdrTag | .eodHdrSym | .eodBody => .truncatedStream

/-- `STATUS.DONE` (10_state R33). -/
def State.doneFlag (s : State) : Bool := decide (s.phase = .done)

/-- `STATUS.FAULT` (10_state R33). -/
def State.faultFlag (s : State) : Bool := decide (s.phase = .fault)

/-- `STATUS.BUSY` (10_state R33): no command can be accepted and no fault is held. -/
def State.busyFlag (s : State) : Bool :=
  decide (s.phase ≠ .idle ∧ s.phase ≠ .done ∧ s.phase ≠ .fault)

/-- `PHASE` is one in which a command is accepted (10_state R40). -/
def State.accepting (s : State) : Bool := decide (s.phase = .idle ∨ s.phase = .done)

/-- What the host reads on the CORE (10_state R33, 60_exceptions R209), each register under its code. -/
structure HostView where
  busy : Bool
  done : Bool
  fault : Bool
  treeValid : Bool
  treeOrigin : BitVec 1
  countValid : Bool
  tableValid : Bool
  cmd : BitVec 3
  faultCode : BitVec 2
  faultSub : BitVec 4
  faultValue : BitVec 32
  faultPhase : BitVec 5
  deriving DecidableEq, Repr

/-- The host's view of a state. -/
def State.hostView (s : State) : HostView where
  busy := s.busyFlag
  done := s.doneFlag
  fault := s.faultFlag
  treeValid := s.treeValid
  treeOrigin := s.treeOrigin.code
  countValid := s.countValid
  tableValid := s.tableValid
  cmd := s.cmd.code
  faultCode := s.faultCode.code
  faultSub := s.faultSub.code
  faultValue := s.faultValue
  faultPhase := s.faultPhase.code

end Sys2Proof.Machine
end

