-- ==== Sys2Proof/Machine/Operands.lean ====
section
/-! DEFINITION. Operand forms. Commands have no operand field: their operands are the streams and `TREE` (40 R100, 41 R120, 42 R130, 43 R150, 44 R170). What remains are the three unsigned conversions between widths of 30_encoding R89 and the two tables indexed by a symbol (10_state R25, R29, 20_memory R66). -/

namespace Sys2Proof.Machine

/-- A source value or a table index as a symbol, zero-extended (30_encoding R89 (a)). -/
def symOf (v : Nat) : Sym := BitVec.ofNat 9 v

/-- A symbol as the raw value of a fault, `zext_32` (10_state R36, 60_exceptions R204). -/
def zext32 (y : Sym) : Word32 := BitVec.setWidth 32 y

/-- `COUNT[v]`; the indices 257 to 511 do not exist (10_state R25). -/
def CountTable.get (tbl : CountTable) (v : Nat) : Nat := (tbl[v]?).getD 0

/-- `COUNT[v] <- w`. -/
def CountTable.put (tbl : CountTable) (v w : Nat) : CountTable := tbl.setIfInBounds v w

/-- `CODE[v]`; no entry outside 0..256 (10_state R29). -/
def CodeTable.get (tbl : CodeTable) (v : Nat) : Option Bits := (tbl[v]?).join

/-- `CODE[v] <- some(p)`. The reserved symbols 257 to 511 "never index anything" (20_memory R66). -/
def CodeTable.put (tbl : CodeTable) (v : Nat) (p : Bits) : CodeTable := tbl.setIfInBounds v (some p)

end Sys2Proof.Machine
end

