-- ==== Sys2Proof/Machine/Ops.lean ====
section
/-! DEFINITION. The named operations every meaning is made of: the four stream transactions (20_memory R51 to R54), the raise of a fault and the reset that alone ends it (60_exceptions R204, R207, 70_reset R230), the reads of `TREE` and of the tables, the sequencer (10_state R41) and what a command clears (10_state R40). -/

namespace Sys2Proof.Machine

/-- The outcome of a step. -/
abbrev Out := Host.Outcome State Fault Refusal

/-- Go on with `f` after a next state; a fault or a refusal ends the step. -/
def andThen (o : Out) (f : State → Out) : Out :=
  match o with
  | .next s => f s
  | .fault r => .fault r
  | .refused r => .refused r

/-! ## The source -/

/-- The bits not yet consumed. -/
def State.unread (s : State) : Bits := s.src.bits.drop s.src.pos

/-- The result of `SrcRead(n)`: the next `n` bits as a number, or `EOD` (`none`) when fewer remain (20_memory R51). -/
def srcPeek (n : Nat) (s : State) : Option Nat :=
  if s.src.pos + n ≤ s.src.bits.length then some (valOf (s.unread.take n)) else none

/-- The state after `SrcRead(n)`: `SRC.pos` has advanced by `n`, or stands still on `EOD` (20_memory R51, R59). -/
def srcAfter (n : Nat) (s : State) : State :=
  { s with
    src := { s.src with pos := if s.src.pos + n ≤ s.src.bits.length then s.src.pos + n else s.src.pos }
    trace := s.trace ++ [.srcRead n (srcPeek n s)] }

/-- `SrcRead(n)` (20_memory R51). -/
def srcRead (n : Nat) (s : State) : Option Nat × State := (srcPeek n s, srcAfter n s)

/-- `SrcRewind()` (20_memory R53). -/
def srcRewind (s : State) : State :=
  { s with src := { s.src with pos := 0 }, trace := s.trace ++ [.srcRewind] }

/-! ## The sink -/

/-- `SNK.bits` with `x` appended, as the transaction `t`. -/
def snkAppend (x : Bits) (t : Transaction) (s : State) : State :=
  { s with snk := { s.snk with bits := s.snk.bits ++ x }, trace := s.trace ++ [t] }

/-- `SnkWrite(n, v)` (20_memory R52, R61); on a closed sink it has no meaning (70_reset R236). -/
def snkWrite (n v : Nat) (s : State) : Out :=
  if s.snk.closed then .refused .sinkClosed
  else .next (snkAppend (bitsOf n v) (.snkWrite n v) s)

/-- `SnkWritePath(p)` (20_memory R52). -/
def snkWritePath (p : Bits) (s : State) : Out :=
  if s.snk.closed then .refused .sinkClosed
  else .next (snkAppend p (.snkWritePath p) s)

/-- The state after `SnkClose()`: zeros up to a byte boundary, then closed (20_memory R54). -/
def snkPadded (s : State) : State :=
  { s with
    snk := ⟨s.snk.bits ++ List.replicate (padLen s.snk.bits.length) false, true⟩
    trace := s.trace ++ [.snkClose] }

/-- `SnkClose()` (20_memory R54); a closed sink gets no further transaction (R55). -/
def snkClose (s : State) : Out :=
  if s.snk.closed then .refused .sinkClosed else .next (snkPadded s)

/-- The sink is as the host supplies it before a writing command, `(<>, 0)` (70_reset R236). -/
def State.sinkFresh (s : State) : Bool := s.snk.bits.isEmpty && !s.snk.closed

/-! ## Taking a fault, and the reset that ends it -/

/-- `raise K(sub, value)` (60_exceptions R204): the four fault registers, `PHASE <- FAULT`, and nothing else. -/
def raise (k : FaultCode) (sub : FaultSub) (value : Word32) (s : State) : State :=
  { s with
    faultCode := k
    faultSub := sub
    faultValue := value
    faultPhase := s.phase
    phase := .fault }

/-- Reset (70_reset R230): every register of the CORE takes its reset value; the streams, which are the collaborator's, and the transactions already observed stay (R234). It is the only event that leaves `FAULT` (60_exceptions R207); there is no return from a fault. -/
def resetCore (s : State) : State :=
  { State.reset with src := s.src, snk := s.snk, trace := s.trace }

/-! ## The tree and the tables -/

/-- A read of `TREE`, which `TREE_VALID` guards (10_state R24). -/
def readTree (s : State) : Option Tree := if s.treeValid then s.tree else none

/-- `TREE <- t; TREE_VALID <- 1; TREE_ORIGIN <- o` (40 R108, 42 R136). -/
def writeTree (t : Tree) (o : Origin) (s : State) : State :=
  { s with tree := some t, treeValid := true, treeOrigin := o }

/-- `CUR <- t` (44 R174, R175). -/
def setCur (t : Tree) (s : State) : State := { s with cur := some t }

/-- `HS_STACK <- ts` (41 R121 to R123). -/
def setHsStack (ts : List Tree) (s : State) : State := { s with hsStack := ts }

/-- `HD_STACK <- fs` (42 R133, R136). -/
def setHdStack (fs : List HdFrame) (s : State) : State := { s with hdStack := fs }

/-- `LEAF_CNT <- k; NEED <- n` (42 R133, R135). -/
def setHdCounts (k n : Nat) (s : State) : State := { s with leafCnt := k, need := n }

/-- `PQ <- pq; SEQ <- q` (40 R106 to R108). -/
def setQueue (pq : List PqEntry) (q : Nat) (s : State) : State := { s with pq := pq, seq := q }

/-- `COUNT_VALID <- 1` (40 R103). -/
def markCounted (s : State) : State := { s with countValid := true }

/-- `TABLE_VALID <- 1` (43 R152). -/
def markTable (s : State) : State := { s with tableValid := true }

/-- `CODE[s] <- none` for all `s`, and `ENC_STACK` holds the root with the empty path (43 R152). -/
def startTableWalk (t : Tree) (s : State) : State :=
  { s with code := Vector.replicate 257 none, encStack := [(t, [])] }

/-- `ENC_STACK <- st` (10_state R29). -/
def setEncStack (st : List (Tree × Bits)) (s : State) : State := { s with encStack := st }

/-- `COUNT[v] <- w`. -/
def writeCount (v w : Nat) (s : State) : State := { s with count := s.count.put v w }

/-- `CODE[y] <- some(p)`. -/
def writeCode (y : Sym) (p : Bits) (s : State) : State := { s with code := s.code.put y.toNat p }

/-! ## The sequencer (10_state R41) -/

/-- `PHASE <- p`. -/
def setPhase (p : Phase) (s : State) : State := { s with phase := p }

/-- The chain of phases of a command (10_state R41). The short cut from `DEC_START` to `DEC_CLOSE` is the decoder's own (44_decoder R174). -/
def chain : Command → List Phase
  | .nop => []
  | .tbRun => [.tbCount, .tbInit, .tbMerge, .done]
  | .hsRun => [.hsWalk, .done]
  | .hdRun => [.hdWalk, .done]
  | .encRun => [.encMagic, .hsWalk, .encTable, .encRewind, .encBody, .encEof, .encClose, .done]
  | .decRun => [.decStart, .decWalk, .decClose, .done]
  | .compress =>
    [.tbCount, .tbInit, .tbMerge, .encMagic, .hsWalk, .encTable, .encRewind, .encBody, .encEof,
      .encClose, .done]
  | .decompress => [.decMagic, .hdWalk, .decStart, .decWalk, .decClose, .done]

/-- The entry after `p` in a list of phases. -/
def entryAfter (p : Phase) : List Phase → Option Phase
  | a :: b :: rest => if a = p then some b else entryAfter p (b :: rest)
  | _ => none

/-- `first(c)` (10_state R41). -/
def firstPhase (c : Command) : Option Phase := (chain c).head?

/-- `next(c, p)` (10_state R41). -/
def nextPhase (c : Command) (p : Phase) : Option Phase := entryAfter p (chain c)

/-- "phase complete": `PHASE <- next(CMD, PHASE)` (10_state R41). -/
def phaseComplete (s : State) : Out :=
  match nextPhase s.cmd s.phase with
  | some p => .next (setPhase p s)
  | none => .fault .noNextPhase

/-! ## What a command clears on acceptance (10_state R40) -/

/-- `CODE[s] <- none` for all `s`; `TABLE_VALID <- 0`. -/
def clearTable (s : State) : State :=
  { s with code := Vector.replicate 257 none, tableValid := false }

/-- What `COMPRESS` and `TB_RUN` clear. -/
def clearForBuild (s : State) : State :=
  { clearTable s with
    count := Vector.replicate 257 0
    countValid := false
    pq := []
    seq := 0
    treeValid := false }

/-- What `DECOMPRESS` and `HD_RUN` clear. -/
def clearForRead (s : State) : State :=
  { clearTable s with hdStack := [], leafCnt := 0, need := 1, treeValid := false }

/-- `CMD <- c; PHASE <- first(c)`. -/
def startCommand (c : Command) (s : State) : State :=
  { s with cmd := c, phase := (firstPhase c).getD s.phase }

end Sys2Proof.Machine
end

