-- ==== Sys2Proof/Machine/Commands.lean ====
section
/-! DEFINITION. The eight commands: acceptance, 10_state R40. A command presented while the CORE is busy or in `FAULT` has no effect on any state. The preconditions on `TREE` (93 U8) and on the sink (93 U9, 70_reset R236) are the spec's; where one fails the spec gives no behaviour and the command is refused (60_exceptions R210, log 10). -/

namespace Sys2Proof.Machine

/-- `NOP`: accepted, changes nothing, `PHASE` and `CMD` included (10_state R40). -/
def execNop (s : State) : Out := .next s

/-- `COMPRESS` (43_encoder R160): clears what a build clears and starts in `TB_COUNT`; the sink is `(<>, 0)`. -/
def execCompress (s : State) : Out :=
  if s.accepting then
    if s.sinkFresh then .next (startCommand .compress (clearForBuild s)) else .refused .sinkNotReady
  else .next s

/-- `DECOMPRESS` (44_decoder R178): clears what a header read clears and starts in `DEC_MAGIC`; the sink is `(<>, 0)`. -/
def execDecompress (s : State) : Out :=
  if s.accepting then
    if s.sinkFresh then .next (startCommand .decompress (clearForRead s)) else .refused .sinkNotReady
  else .next s

/-- `TB_RUN` (40_tree_builder R100, R101): starts in `TB_COUNT`, uses no sink, consumes the source from wherever it stands. -/
def execTbRun (s : State) : Out :=
  if s.accepting then .next (startCommand .tbRun (clearForBuild s)) else .next s

/-- `HS_RUN` (41_header_serializer R120): clears nothing, requires `TREE_VALID = 1` and an open sink, which may already hold bits (70_reset R236). -/
def execHsRun (s : State) : Out :=
  if s.accepting then
    if !s.treeValid then .refused .treeNotValid
    else if s.snk.closed then .refused .sinkNotReady
    else .next (startCommand .hsRun s)
  else .next s

/-- `HD_RUN` (42_header_deserializer R130, R131): no precondition on `TREE_VALID`, uses no sink, starts in `HD_WALK`. -/
def execHdRun (s : State) : Out :=
  if s.accepting then .next (startCommand .hdRun (clearForRead s)) else .next s

/-- `ENC_RUN` (43_encoder R150): clears the code table, requires `TREE_VALID = 1` and the sink `(<>, 0)`; it rewinds the source itself, so any position will do. -/
def execEncRun (s : State) : Out :=
  if s.accepting then
    if !s.treeValid then .refused .treeNotValid
    else if s.sinkFresh then .next (startCommand .encRun (clearTable s))
    else .refused .sinkNotReady
  else .next s

/-- `DEC_RUN` (44_decoder R170): clears nothing, requires `TREE_VALID = 1` and the sink `(<>, 0)`. -/
def execDecRun (s : State) : Out :=
  if s.accepting then
    if !s.treeValid then .refused .treeNotValid
    else if s.sinkFresh then .next (startCommand .decRun s)
    else .refused .sinkNotReady
  else .next s

end Sys2Proof.Machine
end

