-- ==== Sys2Proof/Machine/Decoder.lean ====
section
/-! DEFINITION. huffman_decoder: the rules of the phases `DEC_MAGIC`, `DEC_START` and `DEC_WALK` (44_decoder); `DEC_CLOSE` is `closeSink`. -/

namespace Sys2Proof.Machine

/-- `DEC_MAGIC` on the first word `w` (44 R172): equal to `magic` in all 32 bits, or a fault. -/
def decReadMagic (magic w : Word32) (s : State) : Out :=
  match srcRead 32 s with
  | (some v, s1) =>
    if v ≠ w.toNat then .refused .itemNotNext
    else if w ≠ magic then .next (raise .malformedHeader .magicMismatch w s1)
    else .next (setPhase .hdWalk s1)
  | (none, _) => .refused .itemNotNext

/-- `DEC_MAGIC` with fewer than 32 bits left (44 R172). -/
def decEodMagic (s : State) : Out :=
  match srcRead 32 s with
  | (none, s1) => .next (raise .truncatedStream .eodMagic 0 s1)
  | (some _, _) => .refused .itemNotNext

/-- `DEC_START` (44 R174): an internal root starts the walk, the sentinel alone ends it before any bit, a byte leaf is a fault. -/
def fireDecStart (s : State) : Out :=
  match readTree s with
  | none => .refused .treeNotValid
  | some t =>
    let s1 := setCur t s
    match t with
    | .node _ _ => .next (setPhase .decWalk s1)
    | .leaf y =>
      if y = EOF_SYM then .next (setPhase .decClose s1)
      else if y.toNat ≤ 255 then .next (raise .malformedHeader .leafRoot (zext32 y) s1)
      else .fault .reservedLeaf

/-- The child `c` the walk has moved to (44 R175): the sentinel stops it, a byte leaf is emitted and the walk goes back to the root, an internal node is the new position. -/
def decArrive (c : Tree) (s : State) : Out :=
  match c with
  | .node _ _ => .next (setCur c s)
  | .leaf y =>
    if y = EOF_SYM then .next (setPhase .decClose s)
    else if y.toNat ≤ 255 then
      match readTree s with
      | none => .refused .treeNotValid
      | some t => andThen (snkWrite 8 y.toNat s) fun s1 => .next (setCur t s1)
    else .fault .reservedLeaf

/-- `DEC_WALK` on the body bit `b` (44 R175). -/
def decWalkBit (b : Bool) (s : State) : Out :=
  match s.cur with
  | none => .refused .curNoValue
  | some (.leaf _) => .fault .curNotNode
  | some (.node l r) =>
    match srcRead 1 s with
    | (some v, s1) =>
      if v ≠ b.toNat then .refused .itemNotNext else decArrive (if b then r else l) s1
    | (none, _) => .refused .itemNotNext

/-- `DEC_WALK` on several body bits in turn (44 R175 once per bit). -/
def decWalkBits : Bits → State → Out
  | [], s => .next s
  | b :: bs, s =>
    match s.phase with
    | .decWalk => andThen (decWalkBit b s) (decWalkBits bs)
    | _ => .refused .itemOutOfPhase

/-- `DEC_WALK` with no bit left (44 R175). -/
def decEodBody (s : State) : Out :=
  match s.cur with
  | none => .refused .curNoValue
  | some (.leaf _) => .fault .curNotNode
  | some (.node _ _) =>
    match srcRead 1 s with
    | (none, s1) => .next (raise .truncatedStream .eodBody 0 s1)
    | (some _, _) => .refused .itemNotNext

end Sys2Proof.Machine
end

