-- ==== Sys2Proof/Machine/Encoder.lean ====
section
/-! DEFINITION. huffman_encoder: the rules of the phases `ENC_MAGIC`, `ENC_TABLE`, `ENC_REWIND`, `ENC_BODY`, `ENC_EOF` and `ENC_CLOSE` (43_encoder). -/

namespace Sys2Proof.Machine

/-- `ENC_MAGIC` (43 R154). -/
def encWriteMagic (magic : Word32) (s : State) : Out :=
  andThen (snkWrite 32 magic.toNat s) fun s1 => .next (setPhase .hsWalk s1)

/-- One node visit of the table walk (43 R152): an internal node pushes its children, left on top, and a leaf records its path. -/
def encVisit (s : State) : State :=
  match s.encStack with
  | [] => s
  | (.leaf y, p) :: rest => setEncStack rest (writeCode y p s)
  | (.node l r, p) :: rest =>
    setEncStack ((l, p ++ [false]) :: (r, p ++ [true]) :: rest) s

/-- That many node visits. -/
def encVisits : Nat → State → State
  | 0, s => s
  | k + 1, s => encVisits k (encVisit s)

/-- `ENC_TABLE`, one step that visits every node of `TREE` with `ENC_STACK` (43 R152, 10_state R29). Of several leaves with one symbol the last in pre-order gives the entry (R153 (a)). -/
def fireEncTable (s : State) : Out :=
  match readTree s with
  | none => .refused .treeNotValid
  | some t =>
    .next (setPhase .encRewind (markTable (encVisits t.nodes (startTableWalk t s))))

/-- `ENC_REWIND` (43 R155). -/
def fireEncRewind (s : State) : Out := .next (setPhase .encBody (srcRewind s))

/-- The code `p` goes to the sink; a code of length 0 makes no transaction (43 R156, R157). -/
def emitCode (p : Bits) (s : State) : Out :=
  match p with
  | [] => .next s
  | b :: q => snkWritePath (b :: q) s

/-- `ENC_BODY` on a source byte whose code is `p` (43 R156). -/
def encWriteByte (p : Bits) (s : State) : Out :=
  match srcRead 8 s with
  | (some v, s1) =>
    match s1.code.get v with
    | some q => if q = p then emitCode p s1 else .refused .itemNotNext
    | none => .refused .noCode
  | (none, _) => .refused .itemNotNext

/-- `ENC_BODY` where no code can be written: the end of the pass on `EOD`, or a byte without a code, which the spec refuses (43 R156, R153 (b)). -/
def fireEncBody (s : State) : Out :=
  match srcRead 8 s with
  | (none, s1) => .next (setPhase .encEof s1)
  | (some _, _) => .refused .noCode

/-- `ENC_EOF`: the sentinel's code `p` (43 R157). -/
def encWriteEof (p : Bits) (s : State) : Out :=
  match s.code.get 256 with
  | some q =>
    if q = p then andThen (emitCode p s) fun s1 => .next (setPhase .encClose s1)
    else .refused .itemNotNext
  | none => .refused .noCode

/-- `ENC_CLOSE` (43 R158) and `DEC_CLOSE` (44 R176): the collaborator pads with the `k` zeros that fill the last byte. -/
def closeSink (k : Nat) (s : State) : Out :=
  if k = padLen s.snk.bits.length then
    andThen (snkClose s) fun s1 => .next (setPhase .done s1)
  else .refused .itemNotNext

end Sys2Proof.Machine
end

