-- ==== Sys2Proof/Machine/HeaderDeserializer.lean ====
section
/-! DEFINITION. huffman_header_deserializer: the rules of the phase `HD_WALK` (42_header_deserializer), one header item a step. The checks come in the order of R140. -/

namespace Sys2Proof.Machine

/-- What reducing a finished subtree ends in (42 R136). -/
inductive Reduced where
  /-- the stack is empty: the header is complete and this is its tree -/
  | closed (t : Tree)
  /-- a right subtree comes next, with this stack -/
  | pending (stack : List HdFrame)
  deriving DecidableEq, Repr

/-- The loop of 42 R136. -/
def hdReduce : List HdFrame → Tree → Reduced
  | [], t => .closed t
  | .awaitLeft :: rest, t => .pending (.haveLeft t :: rest)
  | .haveLeft l :: rest, t => hdReduce rest (.node l t)

/-- A finished subtree `t` (42 R136). -/
def hdFinish (t : Tree) (s : State) : Out :=
  match hdReduce s.hdStack t with
  | .closed t' => phaseComplete (setHdStack [] (writeTree t' .read s))
  | .pending stack => .next (setHdStack stack s)

/-- The tag `0`: the capacity check (42 R134), then the internal node (R132, R133). -/
def hdReadNode (s : State) : Out :=
  if s.need = 0 then .fault .headerClosed
  else
    match srcRead 1 s with
    | (some 0, s1) =>
      if s1.leafCnt + s1.need = NSYM then .next (raise .malformedHeader .capacity 0 s1)
      else .next (setHdStack (.awaitLeft :: s1.hdStack) (setHdCounts s1.leafCnt (s1.need + 1) s1))
    | _ => .refused .itemNotNext

/-- The tag `1` and the field `y` (42 R132, R135): the range check, then the leaf. -/
def hdReadLeaf (y : Sym) (s : State) : Out :=
  if s.need = 0 then .fault .headerClosed
  else
    match srcRead 1 s with
    | (some 1, s1) =>
      match srcRead 9 s1 with
      | (some v, s2) =>
        if v ≠ y.toNat then .refused .itemNotNext
        else if 256 < v then .next (raise .malformedHeader .symbolRange (zext32 y) s2)
        else hdFinish (.leaf y) (setHdCounts (s2.leafCnt + 1) (s2.need - 1) s2)
      | (none, _) => .refused .itemNotNext
    | _ => .refused .itemNotNext

/-- End of data where a tag is expected (42 R132). -/
def hdEodTag (s : State) : Out :=
  if s.need = 0 then .fault .headerClosed
  else
    match srcRead 1 s with
    | (none, s1) => .next (raise .truncatedStream .eodHdrTag 0 s1)
    | _ => .refused .itemNotNext

/-- End of data in the field after a tag `1` (42 R135); none of the leftover bits is consumed. -/
def hdEodSym (s : State) : Out :=
  if s.need = 0 then .fault .headerClosed
  else
    match srcRead 1 s with
    | (some 1, s1) =>
      match srcRead 9 s1 with
      | (none, s2) => .next (raise .truncatedStream .eodHdrSym 0 s2)
      | _ => .refused .itemNotNext
    | _ => .refused .itemNotNext

end Sys2Proof.Machine
end

