-- ==== Sys2Proof/Machine/HeaderSerializer.lean ====
section
/-! DEFINITION. huffman_header_serializer: the rules of the phase `HS_WALK` (41_header_serializer). As in the trace P1 of 95_test_vectors, the entry (R121) fires with the first node and the completion (R124) with the last leaf (log 4). -/

namespace Sys2Proof.Machine

/-- The subtrees still to be written, top first: `HS_STACK`, or `[TREE]` at the entry (41 R121). -/
def hsPending (s : State) : Option (List Tree) :=
  match s.hsStack with
  | [] => (readTree s).map fun t => [t]
  | t :: ts => some (t :: ts)

/-- A step on an internal node (41 R122). -/
def hsWriteNode (s : State) : Out :=
  match hsPending s with
  | none => .refused .treeNotValid
  | some (.node l r :: rest) =>
    andThen (snkWrite 1 0 s) fun s1 => .next (setHsStack (l :: r :: rest) s1)
  | some _ => .refused .itemNotNext

/-- A step on the leaf `y` (41 R123), and the completion when no subtree is left (R124). -/
def hsWriteLeaf (y : Sym) (s : State) : Out :=
  match hsPending s with
  | none => .refused .treeNotValid
  | some (.leaf z :: rest) =>
    if z = y then
      andThen (snkWrite 1 1 s) fun s1 =>
        andThen (snkWrite 9 y.toNat s1) fun s2 =>
          match rest with
          | [] => phaseComplete (setHsStack [] s2)
          | t :: ts => .next (setHsStack (t :: ts) s2)
    else .refused .itemNotNext
  | some _ => .refused .itemNotNext

end Sys2Proof.Machine
end

