-- ==== Sys2Proof/Machine/StreamItems.lean ====
section
/-! DEFINITION. The meaning of each item of the compressed stream and of each end-of-data event. The table names for an item the rule that reads it and the rule that writes it ("rule" and "write_rule"); which of them fires is told by `PHASE` (10_state R31). In every other phase no rule of the spec touches the item (log 14). -/

namespace Sys2Proof.Machine

/-- `MAGIC`: written in `ENC_MAGIC` (43 R154), read and found equal in `DEC_MAGIC` (44 R172). -/
def execMagic (s : State) : Out :=
  match s.phase with
  | .encMagic => encWriteMagic Config.magic s
  | .decMagic => decReadMagic Config.magic Config.magic s
  | _ => .refused .itemOutOfPhase

/-- `MAGIC_BAD`: read in `DEC_MAGIC` and found different, a fault (44 R172, 30 R95). -/
def execMagicBad (m : Word32) (s : State) : Out :=
  match s.phase with
  | .decMagic => decReadMagic Config.magic m s
  | _ => .refused .itemOutOfPhase

/-- `N`: written in `HS_WALK` (41 R122), read in `HD_WALK` (42 R132, R134, R133). -/
def execN (s : State) : Out :=
  match s.phase with
  | .hsWalk => hsWriteNode s
  | .hdWalk => hdReadNode s
  | _ => .refused .itemOutOfPhase

/-- `L`: written in `HS_WALK` (41 R123), read in `HD_WALK` (42 R135, R136). -/
def execL (y : Sym) (s : State) : Out :=
  match s.phase with
  | .hsWalk => hsWriteLeaf y s
  | .hdWalk => hdReadLeaf y s
  | _ => .refused .itemOutOfPhase

/-- `L_RESERVED`: read in `HD_WALK`, a fault (42 R135, 30 R94); never written. -/
def execLReserved (y : Sym) (s : State) : Out :=
  match s.phase with
  | .hdWalk => hdReadLeaf y s
  | _ => .refused .itemOutOfPhase

/-- `C`: written in `ENC_BODY` and `ENC_EOF` (43 R156, R157), read bit by bit in `DEC_WALK` (44 R175); with no bits it is the sentinel's code of the one-leaf tree, met in `DEC_START` (44 R174). -/
def execC (p : Bits) (s : State) : Out :=
  match s.phase with
  | .encBody => encWriteByte p s
  | .encEof => encWriteEof p s
  | .decStart =>
    match p, readTree s with
    | [], some (.leaf y) => if y = EOF_SYM then fireDecStart s else .refused .itemNotNext
    | _, _ => .refused .itemNotNext
  | .decWalk =>
    match p with
    | [] => .refused .itemNotNext
    | b :: bs => decWalkBits (b :: bs) s
  | _ => .refused .itemOutOfPhase

/-- `PAD`: appended by `SnkClose` in `ENC_CLOSE` (43 R158) and in `DEC_CLOSE` (44 R176). It is never read (30 R96). -/
def execPad (k : Nat) (s : State) : Out :=
  match s.phase with
  | .encClose | .decClose => closeSink k s
  | _ => .refused .itemOutOfPhase

/-- `EOD_AT_MAGIC`: `TruncatedStream(EOD_MAGIC)` (44 R172). -/
def execEodAtMagic (s : State) : Out :=
  match s.phase with
  | .decMagic => decEodMagic s
  | _ => .refused .itemOutOfPhase

/-- `EOD_AT_HDR_TAG`: `TruncatedStream(EOD_HDR_TAG)` (42 R132). -/
def execEodAtHdrTag (s : State) : Out :=
  match s.phase with
  | .hdWalk => hdEodTag s
  | _ => .refused .itemOutOfPhase

/-- `EOD_AT_HDR_SYM`: `TruncatedStream(EOD_HDR_SYM)` (42 R135). -/
def execEodAtHdrSym (s : State) : Out :=
  match s.phase with
  | .hdWalk => hdEodSym s
  | _ => .refused .itemOutOfPhase

/-- `EOD_AT_BODY`: `TruncatedStream(EOD_BODY)` (44 R175). -/
def execEodAtBody (s : State) : Out :=
  match s.phase with
  | .decWalk => decEodBody s
  | _ => .refused .itemOutOfPhase

end Sys2Proof.Machine
end

