-- ==== Sys2Proof/Machine/Dispatch.lean ====
section
/-! DEFINITION. One arm per instruction of spec/opcode_table.json. -/

namespace Sys2Proof.Machine

def exec (i : Instr) (s : State) : Host.Outcome State Fault Refusal :=
  match i with
  | .nop => Sys2Proof.Machine.execNop s
  | .compress => Sys2Proof.Machine.execCompress s
  | .decompress => Sys2Proof.Machine.execDecompress s
  | .tbRun => Sys2Proof.Machine.execTbRun s
  | .hsRun => Sys2Proof.Machine.execHsRun s
  | .hdRun => Sys2Proof.Machine.execHdRun s
  | .encRun => Sys2Proof.Machine.execEncRun s
  | .decRun => Sys2Proof.Machine.execDecRun s
  | .magic => Sys2Proof.Machine.execMagic s
  | .magicBad m => Sys2Proof.Machine.execMagicBad m s
  | .n => Sys2Proof.Machine.execN s
  | .l y => Sys2Proof.Machine.execL y s
  | .lReserved y => Sys2Proof.Machine.execLReserved y s
  | .c p => Sys2Proof.Machine.execC p s
  | .pad k => Sys2Proof.Machine.execPad k s
  | .eodAtMagic => Sys2Proof.Machine.execEodAtMagic s
  | .eodAtHdrTag => Sys2Proof.Machine.execEodAtHdrTag s
  | .eodAtHdrSym => Sys2Proof.Machine.execEodAtHdrSym s
  | .eodAtBody => Sys2Proof.Machine.execEodAtBody s

end Sys2Proof.Machine
end

