-- ==== Sys2Proof/Machine/TreeBuilder.lean ====
section
/-! DEFINITION. huffman_tree_builder: the rules of the phases `TB_COUNT`, `TB_INIT` and `TB_MERGE` (40_tree_builder). The open choices are an argument (R107, R112). Counts and weights are unbounded naturals (R104, R113, log 2). -/

namespace Sys2Proof.Machine

/-- One counting step, or the end of the pass on `EOD` (40 R102, R103). -/
def fireTbCount (s : State) : Out :=
  match srcRead 8 s with
  | (some v, s1) => .next (writeCount v (s1.count.get v + 1) s1)
  | (none, s1) => .next (setPhase .tbInit (markCounted (writeCount 256 1 s1)))

/-- The symbols of positive count, ascending (40 R106). -/
def qualifying (tbl : CountTable) : List Nat :=
  (List.range NSYM).filter fun v => decide (0 < tbl.get v)

/-- `v` put before the first element that comes after it, by key and then by symbol. -/
def insertByKey (key : Nat → Nat) (v : Nat) : List Nat → List Nat
  | [] => [v]
  | u :: us =>
    if key v < key u ∨ (key v = key u ∧ v ≤ u) then v :: u :: us
    else u :: insertByKey key v us

/-- Symbols in `LEAF_ORDER` (00_scope R10). -/
def orderByKey (key : Nat → Nat) : List Nat → List Nat
  | [] => []
  | v :: vs => insertByKey key v (orderByKey key vs)

/-- One leaf per symbol, with its count as weight and numbered from `q` on (40 R106). -/
def enqueueLeaves (tbl : CountTable) : List Nat → Nat → List PqEntry
  | [], _ => []
  | v :: vs, q => ⟨tbl.get v, q, .leaf (symOf v)⟩ :: enqueueLeaves tbl vs (q + 1)

/-- `TB_INIT` (40 R106). -/
def fireTbInit (P : Policy) (s : State) : Out :=
  let order := orderByKey P.leafKey (qualifying s.count)
  .next (setPhase .tbMerge (setQueue (enqueueLeaves s.count order 0) order.length s))

/-- The entries of least weight (40 R107: "with wa <= w for every (w, _, _) in PQ"). -/
def lightest (pq : List PqEntry) : List PqEntry :=
  pq.filter fun e => pq.all fun e' => decide (e.weight ≤ e'.weight)

/-- The entry of least weight that the policy removes. -/
def chooseLightest (P : Policy) (pq : List PqEntry) : Option PqEntry :=
  match lightest pq with
  | [e] => some e
  | es => es[P.pick pq % es.length]?

/-- The internal node made of the removed pair, in the order the policy gives the children (40 R107). -/
def joinPair (P : Policy) (a b : PqEntry) (q : Nat) : PqEntry :=
  ⟨a.weight + b.weight, q,
    if P.secondLeft a b then .node b.tree a.tree else .node a.tree b.tree⟩

/-- One merge: remove two lightest entries, insert their parent with the next sequence number (40 R107). -/
def mergeStep (P : Policy) (pq : List PqEntry) (q : Nat) : Option (List PqEntry) :=
  match chooseLightest P pq with
  | none => none
  | some a =>
    match chooseLightest P (pq.erase a) with
    | none => none
    | some b => some (((pq.erase a).erase b) ++ [joinPair P a b q])

/-- `TB_MERGE`: a merge while two entries or more remain (40 R107), and with one entry the end of construction (R108, R109). -/
def fireTbMerge (P : Policy) (s : State) : Out :=
  match s.pq with
  | [] => .fault .queueEmpty
  | [e] => phaseComplete (setQueue [] s.seq (writeTree e.tree .built s))
  | _ =>
    match mergeStep P s.pq s.seq with
    | some pq => .next (setQueue pq (s.seq + 1) s)
    | none => .fault .queueEmpty

end Sys2Proof.Machine
end

