-- ==== Sys2Proof/Machine/Fetch.lean ====
section
/-! DEFINITION. What runs next. There is no program counter and no instruction memory (10_state R32): `PHASE` says where the next item is found. In a reading phase it is decoded from the unread source; in a writing phase it is the item that the tree or the table gives next; in the other phases a rule fires that no row of the opcode table names. -/

namespace Sys2Proof.Machine

/-- The item that stands first in the unread source where `ctx` is expected. -/
def readItem (ctx : Ctx) (s : State) : Option Instr :=
  match decode ctx s.unread with
  | .ok (i, _) => some i
  | .error _ => none

/-- The header item that `HS_WALK` writes next (41 R122, R123). -/
def nextHeaderItem (s : State) : Option Instr :=
  match hsPending s with
  | some (.node _ _ :: _) => some .n
  | some (.leaf y :: _) => some (.l y)
  | _ => none

/-- The code that `ENC_BODY` writes next: that of the next source byte (43 R156). -/
def nextBodyCode (s : State) : Option Instr :=
  match srcPeek 8 s with
  | some v => (s.code.get v).map Instr.c
  | none => none

/-- The sentinel's code of the one-leaf tree, in `DEC_START` (44 R174). -/
def emptyCode (s : State) : Option Instr :=
  match readTree s with
  | some (.leaf y) => if y = EOF_SYM then some (.c []) else none
  | _ => none

/-- The item of the opcode table that the next step runs, if it runs one. -/
def nextItem (s : State) : Option Instr :=
  match s.phase with
  | .decMagic => readItem .magic s
  | .hdWalk => readItem .header s
  | .decWalk => readItem .bodyBit s
  | .decStart => emptyCode s
  | .encMagic => some .magic
  | .hsWalk => nextHeaderItem s
  | .encBody => nextBodyCode s
  | .encEof => (s.code.get 256).map Instr.c
  | .encClose | .decClose => some (.pad (padLen s.snk.bits.length))
  | .idle | .tbCount | .tbInit | .tbMerge | .encTable | .encRewind | .done | .fault => none

/-- The step of a phase that runs no item. In `IDLE` and `DONE` the CORE waits for a command (10_state R31, 70_reset R233) and in `FAULT` no rule fires (60_exceptions R207). `ENC_EOF` and `HS_WALK` come here only where the spec refuses (93 U5, U7). -/
def fireRule (s : State) : Out :=
  match s.phase with
  | .idle | .done | .fault => .next s
  | .tbCount => fireTbCount s
  | .tbInit => fireTbInit Config.policy s
  | .tbMerge => fireTbMerge Config.policy s
  | .encTable => fireEncTable s
  | .encRewind => fireEncRewind s
  | .encBody => fireEncBody s
  | .encEof => .refused .noCode
  | .decStart => fireDecStart s
  | .hsWalk => .refused .treeNotValid
  | .hdWalk | .encMagic | .encClose | .decMagic | .decWalk | .decClose => .refused .itemNotNext

/-- The host withdraws the command once the CORE has seen it (10_state R40). -/
def clearPort (s : State) : State := { s with cmdPort := none }

/-- The source with `x` standing where the next read begins, and all else as before. -/
def placeBits (x : Bits) (s : Source) : Source :=
  { bits := s.bits.take s.pos ++ x ++ s.bits.drop (s.pos + x.length)
    pos := min s.pos s.bits.length }

/-- The state whose next step meets the item bits `x` in the context `ctx`: a command on the port with the CORE waiting, or stream bits before a CORE that is about to read them. A walk already under way goes on; otherwise it stands at its start. -/
def placeItem (ctx : Ctx) (x : Bits) (s : State) : State :=
  match ctx with
  | .command =>
    { s with
      rst := false
      cmdPort := some (BitVec.ofNat 3 (valOf x))
      phase := if s.accepting then s.phase else .idle }
  | .magic =>
    { s with rst := false, cmdPort := none, phase := .decMagic, cmd := .decompress, src := placeBits x s.src }
  | .header =>
    match s.phase with
    | .hdWalk => { s with rst := false, cmdPort := none, src := placeBits x s.src }
    | _ =>
      { startCommand .hdRun (clearForRead s) with
        rst := false, cmdPort := none, src := placeBits x s.src }
  | .bodyBit | .code _ | .padding _ => s

end Sys2Proof.Machine
end

