-- ==== Sys2Proof/Machine/Step.lean ====
section
/-! DEFINITION. One step of the machine: the reset input, then a command on the port, then the rule of the phase. -/

namespace Sys2Proof.Machine

/-- The state in which the next step fetches and runs the instruction of the table word `w` (log 15). -/
def State.withFetchWord (s : State) (nbits w : Nat) : State :=
  match tableItem nbits w with
  | none => s
  | some (ctx, x) => placeItem ctx x s

/-- One step. Reset wins over everything (70_reset R230, R232); a command on the port is seen before the phase goes on (10_state R40, log 5); else the next item runs, or the rule of a phase without one. -/
def step (s : State) : Host.Outcome State Fault Refusal :=
  if s.rst then .next (resetCore s)
  else
    match s.cmdPort with
    | some w => exec (decodeCommand w) (clearPort s)
    | none =>
      match nextItem s with
      | some i => exec i s
      | none => fireRule s

end Sys2Proof.Machine
end

