-- ==== Sys2Proof/Machine/Port.lean ====
section
/-! DEFINITION. What the host does to the machine, between two steps (70_reset R230, R235 to R237, 10_state R40). -/

namespace Sys2Proof.Machine

/-- The host presents a command (10_state R40). -/
def State.presentCommand (c : Command) (s : State) : State := { s with cmdPort := some c.code }

/-- The host asserts `RST` (70_reset R230). -/
def State.assertReset (s : State) : State := { s with rst := true }

/-- What the host does to a stream has the premise `BUSY = 0` (70_reset R241). While `BUSY = 1` the situation has no behaviour and is refused: the source is fixed for the operation (20_memory R50, 93 U12, 60_exceptions R210, log 21). -/
def unlessBusy (t s : State) : Out := if s.busyFlag then .refused .streamInUse else .next t

/-- The host supplies a source, positioned at its start (70_reset R235). -/
def State.supplySource (x : Bits) (s : State) : Out := unlessBusy { s with src := ⟨x, 0⟩ } s

/-- The host supplies a byte source (20_memory R50). -/
def State.supplyBytes (b : List (BitVec 8)) (s : State) : Out := s.supplySource (bitsOfBytes b)

/-- The host supplies an empty open sink (70_reset R236). -/
def State.supplySink (s : State) : Out := unlessBusy { s with snk := ⟨[], false⟩ } s

/-- The sink as bytes, defined only when it is closed (20_memory R55, R56). -/
def State.sinkBytes (s : State) : Option (List (BitVec 8)) :=
  if s.snk.closed then some (bytesOfBits s.snk.bits) else none

end Sys2Proof.Machine
end

