-- ==== Sys2Proof/Machine/Reference.lean ====
section
/-! DEFINITION. What whole operations compute, as functions and relations on data: the header reader `des` (42 R137), the body walk, `dec` and `decompress` (44 R177), the compressed stream `enc` (43 R159), the counts of a source (40 R105), and the trees a build can end in, `Greedy` (40 R107, R112). The step does not call them; claims compare the machine with them. -/

namespace Sys2Proof.Machine

/-- The fault registers of a raise (60_exceptions R201). -/
structure Raised where
  kind : FaultCode
  sub : FaultSub
  value : Word32
  deriving DecidableEq, Repr

/-- `des(x, c, n)` of 42 R137 with a bound on the recursion depth; each call consumes a bit, so a bound above the number of bits is never met. -/
def desWithin : Nat → Bits → Nat → Nat → Except Raised (Tree × Bits × Nat)
  | 0, _, _, _ => .error ⟨.truncatedStream, .eodHdrTag, 0⟩
  | _ + 1, [], _, _ => .error ⟨.truncatedStream, .eodHdrTag, 0⟩
  | f + 1, false :: x, c, n =>
    if c + n = NSYM then .error ⟨.malformedHeader, .capacity, 0⟩
    else
      match desWithin f x c (n + 1) with
      | .error e => .error e
      | .ok (l, x1, c1) =>
        match desWithin f x1 c1 n with
        | .error e => .error e
        | .ok (r, x2, c2) => .ok (.node l r, x2, c2)
  | _ + 1, true :: x, c, _ =>
    if x.length < 9 then .error ⟨.truncatedStream, .eodHdrSym, 0⟩
    else
      let y : Sym := symOf (valOf (x.take 9))
      if 256 < y.toNat then .error ⟨.malformedHeader, .symbolRange, zext32 y⟩
      else .ok (.leaf y, x.drop 9, c + 1)

/-- `des(x, c, n)` (42 R137): the tree, the bits after it and the leaves read in all, or a fault. -/
def des (x : Bits) (c n : Nat) : Except Raised (Tree × Bits × Nat) := desWithin (x.length + 1) x c n

/-- The bits that `desWithin` leaves unread: those after the header, or on a fault those after the last read that was completed, since a short field is not consumed (42 R132 to R135, 20_memory R59). -/
def desLeftWithin : Nat → Bits → Nat → Nat → Bits
  | 0, x, _, _ => x
  | _ + 1, [], _, _ => []
  | f + 1, false :: x, c, n =>
    if c + n = NSYM then x
    else
      match desWithin f x c (n + 1) with
      | .error _ => desLeftWithin f x c (n + 1)
      | .ok (_, x1, c1) => desLeftWithin f x1 c1 n
  | _ + 1, true :: x, _, _ => if x.length < 9 then x else x.drop 9

/-- The bits that `des(x, c, n)` leaves unread, with a tree and with a fault alike (42 R137: "exactly the reads up to the failing one"). -/
def desLeft (x : Bits) (c n : Nat) : Bits := desLeftWithin (x.length + 1) x c n

/-- `walk(t, cur, x, out)` (44 R177) for the root `node tl tr` and the position `node l r`. -/
def walk (tl tr : Tree) : Bits → Tree → Tree → List (BitVec 8) →
    Except Raised (List (BitVec 8) × Bits)
  | [], _, _, _ => .error ⟨.truncatedStream, .eodBody, 0⟩
  | b :: x, l, r, out =>
    match if b then r else l with
    | .node l' r' => walk tl tr x l' r' out
    | .leaf y =>
      if y = EOF_SYM then .ok (out, x) else walk tl tr x tl tr (out ++ [BitVec.setWidth 8 y])

/-- The bytes that `walk` has emitted when it ends, at the sentinel or on a fault: its accumulator (44 R177, R182). -/
def walkOut (tl tr : Tree) : Bits → Tree → Tree → List (BitVec 8) → List (BitVec 8)
  | [], _, _, out => out
  | b :: x, l, r, out =>
    match if b then r else l with
    | .node l' r' => walkOut tl tr x l' r' out
    | .leaf y =>
      if y = EOF_SYM then out else walkOut tl tr x tl tr (out ++ [BitVec.setWidth 8 y])

/-- `dec(t, x)` (44 R177). -/
def dec (t : Tree) (x : Bits) : Except Raised (List (BitVec 8) × Bits) :=
  match t with
  | .leaf y =>
    if y = EOF_SYM then .ok ([], x) else .error ⟨.malformedHeader, .leafRoot, zext32 y⟩
  | .node l r => walk l r x l r []

/-- The bytes emitted when `dec(t, x)` ends, with success or with a fault: none for a root that is a leaf (44 R174, R177, R182). -/
def decOut (t : Tree) (x : Bits) : List (BitVec 8) :=
  match t with
  | .leaf _ => []
  | .node l r => walkOut l r x l r []

/-- The bits that `dec(t, x)` leaves unread: those after the code of the sentinel, on `LEAF_ROOT` all of `x`, on `EOD_BODY` none (60_exceptions R201). -/
def decLeft (t : Tree) (x : Bits) : Bits :=
  match dec t x with
  | .ok (_, rest) => rest
  | .error e => if e.sub = .leafRoot then x else []

/-- `decompress(y)` (44 R177). -/
def decompress (magic : Word32) (y : Bits) : Except Raised (List (BitVec 8) × Bits) :=
  if y.length < 32 then .error ⟨.truncatedStream, .eodMagic, 0⟩
  else
    let w : Word32 := BitVec.ofNat 32 (valOf (y.take 32))
    if w ≠ magic then .error ⟨.malformedHeader, .magicMismatch, w⟩
    else
      match des (y.drop 32) 0 1 with
      | .error e => .error e
      | .ok (t, x, _) => dec t x

/-- The bytes emitted when `decompress(y)` ends: none before the body (60_exceptions R205). -/
def decompressOut (magic : Word32) (y : Bits) : List (BitVec 8) :=
  if y.length < 32 ∨ BitVec.ofNat 32 (valOf (y.take 32)) ≠ magic then []
  else
    match des (y.drop 32) 0 1 with
    | .error _ => []
    | .ok (t, x, _) => decOut t x

/-- The bits that `decompress(y)` leaves unread (60_exceptions R201): all of them where the magic word is cut short, those after it where it differs. -/
def decompressLeft (magic : Word32) (y : Bits) : Bits :=
  if y.length < 32 then y
  else if BitVec.ofNat 32 (valOf (y.take 32)) ≠ magic then y.drop 32
  else
    match des (y.drop 32) 0 1 with
    | .error _ => desLeft (y.drop 32) 0 1
    | .ok (t, x, _) => decLeft t x

/-- The code of a symbol in a tree: its path, the last in pre-order where several leaves have it (43 R152, R153 (a)). -/
def codeOf (t : Tree) (y : Sym) : Option Bits :=
  ((t.codes.filter fun q => q.1 = y).getLast?).map fun q => q.2

/-- The codes of the bytes in order, then the sentinel's (30_encoding R80, part 3); nothing where one is missing. -/
def bodyOf (t : Tree) : List (BitVec 8) → Option Bits
  | [] => codeOf t EOF_SYM
  | b :: bs =>
    match codeOf t (symOf b.toNat), bodyOf t bs with
    | some p, some q => some (p ++ q)
    | _, _ => none

/-- `bits_32(MAGIC) ++ ser(t) ++ body` (30_encoding R80, parts 1 to 3). -/
def streamOf (magic : Word32) (t : Tree) (body : Bits) : Bits :=
  bitsOf 32 magic.toNat ++ t.ser ++ body

/-- A bit sequence with its padding (30_encoding R86). -/
def padded (x : Bits) : Bits := x ++ List.replicate (padLen x.length) false

/-- `enc(t, B)` (43 R159), where every code it uses is defined. -/
def enc (magic : Word32) (t : Tree) (B : List (BitVec 8)) : Option Bits :=
  (bodyOf t B).map fun body => padded (streamOf magic t body)

/-- The transactions that write the header of a tree (41 R122, R123). -/
def headerWrites : Tree → List Transaction
  | .leaf y => [.snkWrite 1 1, .snkWrite 9 y.toNat]
  | .node l r => .snkWrite 1 0 :: (headerWrites l ++ headerWrites r)

/-- The transaction that writes a code, none for a code of length 0 (43 R156, R157). -/
def codeWrites : Bits → List Transaction
  | [] => []
  | b :: p => [.snkWritePath (b :: p)]

/-- The transactions of the body pass over the rest of a source (43 R156). -/
def bodyTransactions (t : Tree) : List (BitVec 8) → List Transaction
  | [] => [.srcRead 8 none]
  | b :: bs =>
    .srcRead 8 (some b.toNat) ::
      (codeWrites ((codeOf t (symOf b.toNat)).getD []) ++ bodyTransactions t bs)

/-- The transactions of the counting pass (40 R102, R103). -/
def countTransactions (B : List (BitVec 8)) : List Transaction :=
  B.map (fun b => .srcRead 8 (some b.toNat)) ++ [.srcRead 8 none]

/-- The transactions of `ENC_RUN` (43 R150, R159). -/
def encodeTransactions (magic : Word32) (t : Tree) (B : List (BitVec 8)) : List Transaction :=
  .snkWrite 32 magic.toNat :: (headerWrites t ++ .srcRewind :: (bodyTransactions t B ++
    (codeWrites ((codeOf t EOF_SYM).getD []) ++ [.snkClose])))

/-- The counts of a source (40 R105). -/
def countsOf (B : List (BitVec 8)) : CountTable :=
  Vector.ofFn fun v => if v.val = 256 then 1 else B.countP fun b => decide (b.toNat = v.val)

/-- One admissible merge: two entries of least weight are removed and their parent is inserted, with any choice among equals and either child order (40 R107). -/
inductive MergeRel (pq : List PqEntry) (q : Nat) : List PqEntry → Prop where
  | merge (a b : PqEntry) (l r : Tree)
      (ha : a ∈ pq) (hamin : ∀ e ∈ pq, a.weight ≤ e.weight)
      (hb : b ∈ pq.erase a) (hbmin : ∀ e ∈ pq.erase a, b.weight ≤ e.weight)
      (hlr : (l = a.tree ∧ r = b.tree) ∨ (l = b.tree ∧ r = a.tree)) :
      MergeRel pq q ((pq.erase a).erase b ++ [⟨a.weight + b.weight, q, .node l r⟩])

/-- One admissible merge of a priority structure with its next sequence number (40 R107). -/
def Merges (a b : List PqEntry × Nat) : Prop := MergeRel a.1 a.2 b.1 ∧ b.2 = a.2 + 1

/-- The trees reachable from a priority structure by admissible merges, with the weight the root ends with (40 R107, R108). -/
inductive GreedyFrom : List PqEntry → Nat → Nat → Tree → Prop where
  | root (e : PqEntry) (q : Nat) : GreedyFrom [e] q e.weight e.tree
  | merge {pq pq' : List PqEntry} {q w : Nat} {t : Tree}
      (h : MergeRel pq q pq') (hrest : GreedyFrom pq' (q + 1) w t) : GreedyFrom pq q w t

/-- `Greedy(COUNT)` (40 R112), for every order in which the leaves may enter (40 R106). -/
def Greedy (tbl : CountTable) (t : Tree) : Prop :=
  ∃ order w, order.Perm (qualifying tbl) ∧
    GreedyFrom (enqueueLeaves tbl order 0) order.length w t

/-- The weighted path length of a tree: the sum over its leaves of count times depth (40 R111 (d)). -/
def wpl (tbl : CountTable) (t : Tree) : Nat :=
  (t.codes.map fun q => tbl.get q.1.toNat * q.2.length).sum

end Sys2Proof.Machine
end

