-- ==== Sys2Proof/Safety.lean ====
section
/-! DEFINITION. What counts as a safe run: the premises of a host that uses the machine as the spec says, and the invariant of the states the rules reach. -/

namespace Sys2Proof.Machine

/-- The launch premise on the length of a source of `m` bytes (40 R104, 70_reset R245). -/
def LaunchPremise (m : Nat) : Prop := m + 1 < 2 ^ Config.weightBits

/-- The output of an operation is valid exactly when `DONE = 1` after it (10_state R33, 44 R182). -/
def OutputValid (s : State) : Prop := s.phase = .done

/-- No input of the host is pending: what runs next is the CORE's own (log 5). -/
def Quiet (s : State) : Prop := s.rst = false ∧ s.cmdPort = none

/-- `n` steps in turn; a step that stops ends the run. -/
def run : Nat → State → Out
  | 0, s => .next s
  | n + 1, s => andThen (step s) (run n)

/-- `s'` comes after some number of steps from `s`, each of which answers a next state. -/
def Reaches (s s' : State) : Prop := ∃ n, run n s = .next s'

/-- The transactions a step may issue in a phase, in order: the rows of 20_memory R64. -/
def Issues (p : Phase) (ts : List Transaction) : Prop :=
  match p with
  | .tbCount => ∃ r, ts = [.srcRead 8 r]
  | .decMagic => ∃ r, ts = [.srcRead 32 r]
  | .hdWalk => (∃ r, ts = [.srcRead 1 r]) ∨ ∃ r, ts = [.srcRead 1 (some 1), .srcRead 9 r]
  | .decWalk =>
    (∃ r, ts = [.srcRead 1 r]) ∨ ∃ v y, y ≤ 255 ∧ ts = [.srcRead 1 (some v), .snkWrite 8 y]
  | .encMagic => ts = [.snkWrite 32 Config.magic.toNat]
  | .hsWalk => ts = [.snkWrite 1 0] ∨ ∃ y, y ≤ 256 ∧ ts = [.snkWrite 1 1, .snkWrite 9 y]
  | .encRewind => ts = [.srcRewind]
  | .encBody =>
    (∃ r, ts = [.srcRead 8 r]) ∨
      ∃ v p, 1 ≤ p.length ∧ p.length ≤ 256 ∧ ts = [.srcRead 8 (some v), .snkWritePath p]
  | .encEof => ts = [] ∨ ∃ p, 1 ≤ p.length ∧ p.length ≤ 256 ∧ ts = [.snkWritePath p]
  | .encClose | .decClose => ts = [.snkClose]
  | .idle | .tbInit | .tbMerge | .encTable | .decStart | .done | .fault => ts = []

/-- The leaves of the subtrees in a list. -/
def leavesIn (ts : List Tree) : List Sym := ts.flatMap Tree.leaves

/-- The finished left subtrees in a header stack. -/
def leftsIn : List HdFrame → List Tree
  | [] => []
  | .awaitLeft :: rest => leftsIn rest
  | .haveLeft l :: rest => l :: leftsIn rest

/-- The number of `AwaitLeft` frames in a header stack. -/
def awaiting : List HdFrame → Nat
  | [] => 0
  | .awaitLeft :: rest => awaiting rest + 1
  | .haveLeft _ :: rest => awaiting rest

/-- The phases in which a rule reads `TREE` or goes on to one that does. -/
def needsTree : Phase → Bool
  | .hsWalk | .encMagic | .encTable | .encRewind | .encBody | .encEof | .encClose
  | .decStart | .decWalk | .decClose => true
  | .idle | .tbCount | .tbInit | .tbMerge | .hdWalk | .decMagic | .done | .fault => false

/-- The phases before a new tree is complete (10_state R24, R40). -/
def makesTree : Phase → Bool
  | .tbCount | .tbInit | .tbMerge | .decMagic | .hdWalk => true
  | .idle | .hsWalk | .encMagic | .encTable | .encRewind | .encBody | .encEof | .encClose
  | .decStart | .decWalk | .decClose | .done | .fault => false

/-- The phases between the making of the code table and its last use (43 R152 to R157). -/
def needsTable : Phase → Bool
  | .encRewind | .encBody | .encEof => true
  | .idle | .tbCount | .tbInit | .tbMerge | .hsWalk | .hdWalk | .encMagic | .encTable | .encClose
  | .decMagic | .decStart | .decWalk | .decClose | .done | .fault => false

/-- The commands that write the sink (70_reset R236). -/
def writesSink : Command → Bool
  | .compress | .decompress | .hsRun | .encRun | .decRun => true
  | .nop | .tbRun | .hdRun => false

/-- The commands whose output is whole bytes at every step (44 R171). -/
def writesBytes : Command → Bool
  | .decompress | .decRun => true
  | .nop | .compress | .tbRun | .hsRun | .hdRun | .encRun => false

/-- The phase in which a cause is raised (60_exceptions R201). -/
def raisedIn : FaultSub → Phase
  | .none => .idle
  | .magicMismatch | .eodMagic => .decMagic
  | .symbolRange | .capacity | .eodHdrTag | .eodHdrSym => .hdWalk
  | .leafRoot => .decStart
  | .eodBody => .decWalk

/-- The invariant of the states that reset and the rules reach, whatever the host does between two operations. -/
structure Inv (s : State) : Prop where
  /-- 20_memory R50: `0 <= pos <= |bits|` -/
  srcPos : s.src.pos ≤ s.src.bits.length
  /-- 10_state R31, R41: the phase is one of the command's chain, or no operation runs -/
  inChain : s.phase ∈ chain s.cmd ∨ s.phase = .idle ∨ s.phase = .done ∨ s.phase = .fault
  /-- 10_state R22 (b), (c): a held tree is legal -/
  treeHeld : s.treeValid = true → ∃ t, s.tree = some t ∧ t.legal
  /-- 10_state R22 (d): a built tree has the sentinel, and no symbol twice -/
  treeBuilt : s.treeValid = true → s.treeOrigin = .built →
    ∃ t, s.tree = some t ∧ EOF_SYM ∈ t.leaves ∧ t.leaves.Nodup
  /-- 10_state R24: the phases that use `TREE` run with `TREE_VALID = 1` -/
  treeReady : needsTree s.phase = true → s.treeValid = true
  /-- 10_state R24, R40: while a tree is being made none is held -/
  treeNotYet : makesTree s.phase = true → s.treeValid = false
  /-- 43 R152, 70_reset R246: the code table is complete before the body is written -/
  tableReady : needsTable s.phase = true →
    s.tableValid = true ∧
    ∃ t, s.tree = some t ∧ ∀ y : Sym, y.toNat ≤ 256 → s.code.get y.toNat = codeOf t y
  /-- 10_state R25, 40 R103: the sentinel's count -/
  sentinelCount : s.countValid = true → s.count.get 256 = 1
  /-- 40 R103: `COUNT` is complete before `TB_INIT` reads it -/
  counted : s.phase = .tbInit → s.countValid = true
  /-- 10_state R26: `PQ` is empty outside `TB_MERGE` -/
  queueIdle : s.phase ≠ .tbMerge → s.pq = []
  /-- 10_state R26, 40 R106, R107: the entries are numbered in order and hold each symbol once, the sentinel among them -/
  queue : s.phase = .tbMerge →
    (s.pq.map PqEntry.seq).Pairwise (· < ·) ∧ (∀ e ∈ s.pq, e.seq < s.seq) ∧
    s.seq + s.pq.length ≤ 514 ∧
    (leavesIn (s.pq.map PqEntry.tree)).Nodup ∧
    (∀ y ∈ leavesIn (s.pq.map PqEntry.tree), y.toNat ≤ 256) ∧
    EOF_SYM ∈ leavesIn (s.pq.map PqEntry.tree)
  /-- 40 R111 (c): the weight of every entry is the sum of the counts of the leaves below it -/
  queueWeights : s.phase = .tbMerge → ∀ e ∈ s.pq,
    e.weight = (e.tree.leaves.map fun y => s.count.get y.toNat).sum
  /-- 10_state R26: `SEQ` is below 514 -/
  seqBound : s.seq < 514
  /-- 10_state R27: `HS_STACK` is empty outside `HS_WALK` -/
  hsIdle : s.phase ≠ .hsWalk → s.hsStack = []
  /-- 10_state R27: what is still to be written is legal and at most 257 leaves -/
  hsLegal : (∀ y ∈ leavesIn s.hsStack, y.toNat ≤ 256) ∧ (leavesIn s.hsStack).length ≤ NSYM
  /-- 10_state R28: a header of more than 257 leaves is never begun -/
  hdBound : s.leafCnt + s.need ≤ NSYM
  /-- 10_state R28: at most 256 frames -/
  hdDepth : s.hdStack.length + 1 ≤ s.leafCnt + s.need
  /-- 10_state R28: the counters agree with the frames while a tag bit is about to be read -/
  hdCounts : s.phase = .hdWalk →
    s.need = awaiting s.hdStack + 1 ∧
    s.leafCnt = (leavesIn (leftsIn s.hdStack)).length ∧
    (∀ y ∈ leavesIn (leftsIn s.hdStack), y.toNat ≤ 256)
  /-- 10_state R28, R40: before the walk starts its registers stand at their start -/
  hdStart : s.phase = .decMagic →
    s.hdStack = [] ∧ s.leafCnt = 0 ∧ s.need = 1
  /-- 10_state R29: no code is longer than 256 bits -/
  codeLength : ∀ v p, s.code.get v = some p → p.length ≤ 256
  /-- 10_state R29: `ENC_STACK` is used only inside 43 R152 -/
  encIdle : s.encStack = []
  /-- 44 R171: while the decoder walks, `CUR` is an internal node of `TREE` -/
  curNode : s.phase = .decWalk →
    ∃ t p l r, s.tree = some t ∧ t.sub p = some (.node l r) ∧ s.cur = some (.node l r)
  /-- 20_memory R55: an operation that writes holds an open sink -/
  sinkOpen : s.busyFlag = true → writesSink s.cmd = true → s.snk.closed = false
  /-- 43 R154: the sink is empty when the magic word is written -/
  sinkEmpty : s.phase = .tbCount ∨ s.phase = .tbInit ∨ s.phase = .tbMerge ∨ s.phase = .encMagic →
    writesSink s.cmd = true → s.snk.bits = []
  /-- 44 R171: the decoder's output is a whole number of bytes -/
  sinkBytes : s.busyFlag = true → writesBytes s.cmd = true → s.snk.bits.length % 8 = 0
  /-- 10_state R38: outside `FAULT` the fault registers hold their reset values -/
  noFault : s.phase ≠ .fault →
    s.faultCode = .none ∧ s.faultSub = .none ∧ s.faultValue = 0 ∧ s.faultPhase = .idle
  /-- 60_exceptions R201: in `FAULT` they name one cause -/
  oneFault : s.phase = .fault →
    s.faultSub ≠ .none ∧ s.faultCode = s.faultSub.kind ∧ s.faultPhase = raisedIn s.faultSub

end Sys2Proof.Machine
end

