-- ==== Sys2Proof/WellFormed.lean ====
section
/-! DEFINITION. Well-formed instructions: the operand ranges of spec/opcode_table.json's rows. -/

namespace Sys2Proof

/-- The ranges of the rows, for a given `MAGIC`: a bad first word differs from `MAGIC` (30_encoding R95), a leaf symbol is 0..256 (R83), a reserved one 257..511 (R94), a code has at most 256 bits (00_scope R9, 30_encoding R85) and padding at most 7 (R86). -/
def Instr.wfFor (magic : Word32) : Instr → Bool
  | .nop | .compress | .decompress | .tbRun | .hsRun | .hdRun | .encRun | .decRun => true
  | .magic => true
  | .magicBad m => decide (m ≠ magic)
  | .n => true
  | .l y => decide (y.toNat ≤ 256)
  | .lReserved y => decide (256 < y.toNat)
  | .c p => decide (p.length ≤ 256)
  | .pad k => decide (k ≤ 7)
  | .eodAtMagic | .eodAtHdrTag | .eodAtHdrSym | .eodAtBody => true

/-- Well-formed for this build's `MAGIC`. -/
def Instr.wf (i : Instr) : Bool := i.wfFor Config.magic

end Sys2Proof
end

