-- ==== Sys2Proof/Certificates/Slice0/Obligations.lean ====
section
/-! DEFINITION. The statements for the provers, from the numbered rules of spec/. A result is written out as one update of the state before, which says at once what changes and that nothing else does. -/

open Sys2Proof Sys2Proof.Machine

/-! ## Encoding, reset and the step -/

/-- 30_encoding R81 to R86, R91, R94, R95, R98: every well-formed instruction is decoded from its own bits, wherever it can stand, and the bits after it are left. -/
def Obligations.DecodeEncodeRoundTrip : Prop :=
  ∀ (i : Instr) (ctx : Ctx) (x : Bits),
    i.wf = true → i.standsIn ctx x → decode ctx (encode i ++ x) = .ok (i, x)

/-- 30_encoding R82 to R87: what a reader decodes is well formed, can stand there, and its bits are exactly the bits consumed; a whole body code is the path to a leaf. -/
def Obligations.DecodeConsumesTheItem : Prop :=
  (∀ (ctx : Ctx) (x : Bits) (i : Instr) (rest : Bits),
    (ctx = .command ∨ ctx = .magic ∨ ctx = .header ∨ ctx = .bodyBit) →
    decode ctx x = .ok (i, rest) →
    x = encode i ++ rest ∧ i.wf = true ∧ i.standsIn ctx rest) ∧
  ∀ (t : Tree) (x p rest : Bits),
    decode (.code t) x = .ok (.c p, rest) ↔ x = p ++ rest ∧ ∃ y, t.sub p = some (.leaf y)

/-- 30_encoding R81, R82, R83, R91, R94, R95: words of the opcode table, written out from the encodings. That a word of the table is read with its first stream bit most significant and in the context its width tells is the model's choice (log 15). -/
def Obligations.TableWordsDecode : Prop :=
  decodeTableWord 3 0b000 = some .nop ∧
  decodeTableWord 3 0b001 = some .compress ∧
  decodeTableWord 3 0b010 = some .decompress ∧
  decodeTableWord 3 0b011 = some .tbRun ∧
  decodeTableWord 3 0b100 = some .hsRun ∧
  decodeTableWord 3 0b101 = some .hdRun ∧
  decodeTableWord 3 0b110 = some .encRun ∧
  decodeTableWord 3 0b111 = some .decRun ∧
  decodeTableWord 1 0b0 = some .n ∧
  decodeTableWord 10 0b1001000001 = some (.l 65) ∧
  decodeTableWord 10 0b1100000000 = some (.l 256) ∧
  decodeTableWord 10 0b1100000001 = some (.lReserved 257) ∧
  decodeTableWord 10 0b1111111111 = some (.lReserved 511) ∧
  ∀ m : Word32, decodeTableWord 32 m.toNat =
    some (if m = Config.magic then .magic else .magicBad m)

/-- 10_state R42: the values after reset, and what the host reads then (R33 to R37). -/
def Obligations.ResetStateValues : Prop :=
  State.reset.hostView = ⟨false, false, false, false, 0, false, false, 0, 0, 0, 0, 0⟩ ∧
  State.reset.phase = .idle ∧ State.reset.tree = none ∧ State.reset.cur = none ∧
  (∀ v, State.reset.count.get v = 0) ∧ (∀ v, State.reset.code.get v = none) ∧
  State.reset.pq = [] ∧ State.reset.seq = 0 ∧ State.reset.hsStack = [] ∧
  State.reset.encStack = [] ∧ State.reset.hdStack = [] ∧
  State.reset.leafCnt = 0 ∧ State.reset.need = 1

/-- 70_reset R230, R234: asserted in any state, whatever else is presented, reset gives the reset state and leaves both streams alone. (That `RST` is withdrawn by the step and that the trace goes on are the model's, logs 5 and 8.) -/
def Obligations.ResetFromAnyState : Prop :=
  ∀ s : State, s.rst = true →
    step s = .next { State.reset with src := s.src, snk := s.snk, trace := s.trace }

/-- 10_state R31, R40, 30_encoding R90, R98: a step runs the instruction that is decoded where `PHASE` says: from the command port, from the unread source, or from the tree, the table or the padding that comes next. (That a command is seen before the phase goes on is the model's, log 5.) -/
def Obligations.StepRunsTheDecodedInstruction : Prop :=
  (∀ (s : State) (w : BitVec 3) (i : Instr) (x : Bits), s.rst = false → s.cmdPort = some w →
    decode .command (bitsOf 3 w.toNat) = .ok (i, x) → step s = exec i { s with cmdPort := none }) ∧
  ∀ s : State, Quiet s →
    (∀ (ctx : Ctx) (i : Instr) (rest : Bits),
      (s.phase = .decMagic ∧ ctx = .magic) ∨ (s.phase = .hdWalk ∧ ctx = .header) ∨
        (s.phase = .decWalk ∧ ctx = .bodyBit) →
      decode ctx s.unread = .ok (i, rest) → step s = exec i s) ∧
    (s.phase = .encMagic → step s = exec .magic s) ∧
    (∀ (l r : Tree) (ts : List Tree), s.phase = .hsWalk → s.hsStack = .node l r :: ts →
      step s = exec .n s) ∧
    (∀ (y : Sym) (ts : List Tree), s.phase = .hsWalk → s.hsStack = .leaf y :: ts →
      step s = exec (.l y) s) ∧
    (∀ (v : BitVec 8) (x p : Bits), s.phase = .encBody → s.unread = bitsOf 8 v.toNat ++ x →
      s.code.get v.toNat = some p → step s = exec (.c p) s) ∧
    (∀ p : Bits, s.phase = .encEof → s.code.get 256 = some p → step s = exec (.c p) s) ∧
    (s.phase = .decStart → s.treeValid = true → s.tree = some (.leaf EOF_SYM) →
      step s = exec (.c []) s) ∧
    (s.phase = .encClose ∨ s.phase = .decClose →
      step s = exec (.pad ((8 - s.snk.bits.length % 8) % 8)) s)

/-- Model's own (log 15): the state that the host's interface prepares for a table word runs exactly the instruction that the decoder reads from it, and neither the sink nor the trace is touched before. -/
def Obligations.FetchedWordRuns : Prop :=
  ∀ (s : State) (nbits w : Nat) (i : Instr), decodeTableWord nbits w = some i →
    step (s.withFetchWord nbits w) = exec i { s.withFetchWord nbits w with cmdPort := none } ∧
    (s.withFetchWord nbits w).snk = s.snk ∧ (s.withFetchWord nbits w).trace = s.trace

/-! ## Commands (10_state R40) -/

/-- 10_state R40, 70_reset R243: a command presented while the CORE is busy or holds a fault has no effect on any state, and is not kept. -/
def Obligations.CommandsIgnoredWhileBusyOrFaulted : Prop :=
  ∀ (s : State) (c : Command), s.phase ≠ .idle → s.phase ≠ .done →
    exec (decodeCommand c.code) s = .next s ∧
    (s.rst = false → s.cmdPort = some c.code → step s = .next { s with cmdPort := none })

/-- 10_state R40: `NOP` changes nothing; `COMPRESS` and `TB_RUN` clear what a build makes and start in `TB_COUNT`. `COMPRESS` wants an empty open sink and is refused otherwise (70_reset R236, 93 U9). -/
def Obligations.BuildCommandsAccepted : Prop :=
  ∀ s : State, s.phase = .idle ∨ s.phase = .done →
    exec .nop s = .next s ∧
    exec .tbRun s = .next
      { s with
        cmd := .tbRun, phase := .tbCount
        count := Vector.replicate 257 0, countValid := false, pq := [], seq := 0
        treeValid := false, code := Vector.replicate 257 none, tableValid := false } ∧
    (s.snk = ⟨[], false⟩ → exec .compress s = .next
      { s with
        cmd := .compress, phase := .tbCount
        count := Vector.replicate 257 0, countValid := false, pq := [], seq := 0
        treeValid := false, code := Vector.replicate 257 none, tableValid := false }) ∧
    (s.snk ≠ ⟨[], false⟩ → exec .compress s = .refused .sinkNotReady)

/-- 10_state R40: `DECOMPRESS` and `HD_RUN` clear what a header read makes, keep the counts, and start in `DEC_MAGIC` and `HD_WALK`. `DECOMPRESS` wants an empty open sink and is refused otherwise (70_reset R236, 93 U9). -/
def Obligations.ReadCommandsAccepted : Prop :=
  ∀ s : State, s.phase = .idle ∨ s.phase = .done →
    exec .hdRun s = .next
      { s with
        cmd := .hdRun, phase := .hdWalk
        hdStack := [], leafCnt := 0, need := 1
        treeValid := false, code := Vector.replicate 257 none, tableValid := false } ∧
    (s.snk = ⟨[], false⟩ → exec .decompress s = .next
      { s with
        cmd := .decompress, phase := .decMagic
        hdStack := [], leafCnt := 0, need := 1
        treeValid := false, code := Vector.replicate 257 none, tableValid := false }) ∧
    (s.snk ≠ ⟨[], false⟩ → exec .decompress s = .refused .sinkNotReady)

/-- 10_state R40: `HS_RUN` and `DEC_RUN` clear nothing, `ENC_RUN` clears the code table; without a held tree, or on a sink that is not as 70_reset R236 says, the three are refused (93 U8, U9). -/
def Obligations.TreeCommandsAccepted : Prop :=
  ∀ s : State, s.phase = .idle ∨ s.phase = .done →
    (s.treeValid = true →
      (s.snk.closed = false → exec .hsRun s = .next { s with cmd := .hsRun, phase := .hsWalk }) ∧
      (s.snk.closed = true → exec .hsRun s = .refused .sinkNotReady) ∧
      (s.snk = ⟨[], false⟩ →
        exec .encRun s = .next
          { s with
            cmd := .encRun, phase := .encMagic
            code := Vector.replicate 257 none, tableValid := false } ∧
        exec .decRun s = .next { s with cmd := .decRun, phase := .decStart }) ∧
      (s.snk ≠ ⟨[], false⟩ →
        exec .encRun s = .refused .sinkNotReady ∧ exec .decRun s = .refused .sinkNotReady)) ∧
    (s.treeValid = false →
      exec .hsRun s = .refused .treeNotValid ∧ exec .encRun s = .refused .treeNotValid ∧
      exec .decRun s = .refused .treeNotValid)

/-! ## The two streams (20_memory) -/

/-- 20_memory R51, R59: the next `n` bits most significant first, or `EOD` with the position unchanged. -/
def Obligations.SrcReadReturnsTheNextBits : Prop :=
  ∀ (n : Nat) (s : State),
    let v := valOf ((s.src.bits.drop s.src.pos).take n)
    v < 2 ^ n ∧
    (s.src.pos + n ≤ s.src.bits.length →
      srcRead n s = (some v,
        { s with
          src := ⟨s.src.bits, s.src.pos + n⟩
          trace := s.trace ++ [.srcRead n (some v)] })) ∧
    (s.src.bits.length < s.src.pos + n →
      srcRead n s = (none, { s with trace := s.trace ++ [.srcRead n none] }))

/-- 20_memory R52, R61: a write appends bit `n - 1` of the value first and bit 0 last; a path appends as the number whose digits it is. -/
def Obligations.SnkWriteAppendsHighBitFirst : Prop :=
  (∀ (n v : Nat) (s : State), s.snk.closed = false →
    snkWrite n v s = .next
      { s with
        snk := ⟨s.snk.bits ++ (List.range n).map (fun i => v.testBit (n - 1 - i)), false⟩
        trace := s.trace ++ [.snkWrite n v] }) ∧
  ∀ (p : Bits) (s : State), s.snk.closed = false →
    snkWritePath p s = .next
      { s with
        snk := ⟨s.snk.bits ++ p, false⟩
        trace := s.trace ++ [.snkWritePath p] } ∧
    p = (List.range p.length).map (fun i => (valOf p).testBit (p.length - 1 - i))

/-- 20_memory R53, R54: the rewind goes to position 0; the close pads with 0 to 7 zeros to a whole number of bytes and finalizes. -/
def Obligations.RewindAndClose : Prop :=
  ∀ s : State,
    srcRewind s =
      { s with src := ⟨s.src.bits, 0⟩, trace := s.trace ++ [.srcRewind] } ∧
    (s.snk.closed = false → ∃ k, k ≤ 7 ∧ (s.snk.bits.length + k) % 8 = 0 ∧
      snkClose s = .next
        { s with
          snk := ⟨s.snk.bits ++ List.replicate k false, true⟩
          trace := s.trace ++ [.snkClose] })

/-- 20_memory R60: stream bit `8 j + i` is bit `7 - i` of byte `j`, and cutting a stream into bytes undoes it. -/
def Obligations.StreamBitsOfBytes : Prop :=
  (∀ (B : List (BitVec 8)) (j i : Nat) (b : BitVec 8), B[j]? = some b → i < 8 →
    (bitsOfBytes B)[8 * j + i]? = some (b.getLsbD (7 - i))) ∧
  (∀ B : List (BitVec 8), bytesOfBits (bitsOfBytes B) = B) ∧
  ∀ x : Bits, x.length % 8 = 0 → bitsOfBytes (bytesOfBits x) = x

/-! ## The items of the stream, rule by rule -/

/-- 44_decoder R172: the first word is read and compared in all 32 bits; an unequal word and a source of fewer than 32 bits are faults. -/
def Obligations.MagicReadAndCompared : Prop :=
  ∀ s : State, s.phase = .decMagic →
    (∀ (w : Word32) (x : Bits), s.unread = bitsOf 32 w.toNat ++ x →
      (w = Config.magic → exec .magic s = .next
        { s with
          phase := .hdWalk
          src := ⟨s.src.bits, s.src.pos + 32⟩
          trace := s.trace ++ [.srcRead 32 (some w.toNat)] }) ∧
      (w ≠ Config.magic → exec (.magicBad w) s = .next
        { s with
          phase := .fault
          faultCode := .malformedHeader, faultSub := .magicMismatch
          faultValue := w, faultPhase := .decMagic
          src := ⟨s.src.bits, s.src.pos + 32⟩
          trace := s.trace ++ [.srcRead 32 (some w.toNat)] })) ∧
    (s.unread.length < 32 → exec .eodAtMagic s = .next
      { s with
        phase := .fault
        faultCode := .truncatedStream, faultSub := .eodMagic
        faultValue := 0, faultPhase := .decMagic
        trace := s.trace ++ [.srcRead 32 none] })

/-- 43_encoder R154: the magic word is written, then the header. -/
def Obligations.MagicWritten : Prop :=
  ∀ s : State, s.phase = .encMagic → s.snk.closed = false →
    exec .magic s = .next
      { s with
        phase := .hsWalk
        snk := ⟨s.snk.bits ++ bitsOf 32 Config.magic.toNat, false⟩
        trace := s.trace ++ [.snkWrite 32 Config.magic.toNat] }

/-- 42_header_deserializer R132 to R134: a tag 0 opens an internal node, unless the header could then have no fewer than 258 leaves, which is a fault. -/
def Obligations.HeaderNodeRead : Prop :=
  ∀ (s : State) (x : Bits), s.phase = .hdWalk → 1 ≤ s.need → s.unread = false :: x →
    (s.leafCnt + s.need ≠ 257 → exec .n s = .next
      { s with
        hdStack := .awaitLeft :: s.hdStack, need := s.need + 1
        src := ⟨s.src.bits, s.src.pos + 1⟩
        trace := s.trace ++ [.srcRead 1 (some 0)] }) ∧
    (s.leafCnt + s.need = 257 → exec .n s = .next
      { s with
        phase := .fault
        faultCode := .malformedHeader, faultSub := .capacity
        faultValue := 0, faultPhase := .hdWalk
        src := ⟨s.src.bits, s.src.pos + 1⟩
        trace := s.trace ++ [.srcRead 1 (some 0)] })

/-- 42_header_deserializer R135, R136: a leaf joins the finished left subtrees `ls` above it, innermost first, and becomes the left subtree of the next open node, or closes the header; a symbol above 256 is a fault. -/
def Obligations.HeaderLeafRead : Prop :=
  ∀ (s : State) (y : Sym) (x : Bits), s.phase = .hdWalk → 1 ≤ s.need →
    s.unread = true :: (bitsOf 9 y.toNat ++ x) →
    (y.toNat ≤ 256 → ∀ (ls : List Tree),
      (∀ rest : List HdFrame, s.hdStack = ls.map HdFrame.haveLeft ++ .awaitLeft :: rest →
        exec (.l y) s = .next
          { s with
            hdStack := .haveLeft (ls.foldl (fun t l => .node l t) (.leaf y)) :: rest
            leafCnt := s.leafCnt + 1, need := s.need - 1
            src := ⟨s.src.bits, s.src.pos + 10⟩
            trace := s.trace ++ [.srcRead 1 (some 1), .srcRead 9 (some y.toNat)] }) ∧
      (∀ p : Phase, s.hdStack = ls.map HdFrame.haveLeft →
        (s.cmd = .hdRun ∧ p = .done) ∨ (s.cmd = .decompress ∧ p = .decStart) →
        exec (.l y) s = .next
          { s with
            phase := p
            tree := some (ls.foldl (fun t l => .node l t) (.leaf y))
            treeValid := true, treeOrigin := .read
            hdStack := [], leafCnt := s.leafCnt + 1, need := s.need - 1
            src := ⟨s.src.bits, s.src.pos + 10⟩
            trace := s.trace ++ [.srcRead 1 (some 1), .srcRead 9 (some y.toNat)] })) ∧
    (256 < y.toNat → exec (.lReserved y) s = .next
      { s with
        phase := .fault
        faultCode := .malformedHeader, faultSub := .symbolRange
        faultValue := BitVec.setWidth 32 y, faultPhase := .hdWalk
        src := ⟨s.src.bits, s.src.pos + 10⟩
        trace := s.trace ++ [.srcRead 1 (some 1), .srcRead 9 (some y.toNat)] })

/-- 42_header_deserializer R132, R135: a missing tag bit and a missing symbol field are truncations, and nothing of a short field is consumed. -/
def Obligations.HeaderTruncated : Prop :=
  ∀ s : State, s.phase = .hdWalk → 1 ≤ s.need →
    (s.unread = [] → exec .eodAtHdrTag s = .next
      { s with
        phase := .fault
        faultCode := .truncatedStream, faultSub := .eodHdrTag
        faultValue := 0, faultPhase := .hdWalk
        trace := s.trace ++ [.srcRead 1 none] }) ∧
    (∀ x : Bits, s.unread = true :: x → x.length < 9 → exec .eodAtHdrSym s = .next
      { s with
        phase := .fault
        faultCode := .truncatedStream, faultSub := .eodHdrSym
        faultValue := 0, faultPhase := .hdWalk
        src := ⟨s.src.bits, s.src.pos + 1⟩
        trace := s.trace ++ [.srcRead 1 (some 1), .srcRead 9 none] })

/-- 41_header_serializer R121 to R124: at the entry the tree itself is on top; an internal node writes 0 and puts its children on the stack, left on top; a leaf writes 1 and its 9-bit symbol; the last leaf completes the walk. -/
def Obligations.HeaderItemsWritten : Prop :=
  ∀ (s : State) (top : Tree) (rest : List Tree), s.phase = .hsWalk → s.snk.closed = false →
    (s.hsStack = top :: rest ∨
      (s.hsStack = [] ∧ rest = [] ∧ s.treeValid = true ∧ s.tree = some top)) →
    (∀ l r : Tree, top = .node l r → exec .n s = .next
      { s with
        hsStack := l :: r :: rest
        snk := ⟨s.snk.bits ++ [false], false⟩
        trace := s.trace ++ [.snkWrite 1 0] }) ∧
    (∀ y : Sym, top = .leaf y →
      (rest ≠ [] → exec (.l y) s = .next
        { s with
          hsStack := rest
          snk := ⟨s.snk.bits ++ true :: bitsOf 9 y.toNat, false⟩
          trace := s.trace ++ [.snkWrite 1 1, .snkWrite 9 y.toNat] }) ∧
      (∀ p : Phase, rest = [] →
        (s.cmd = .hsRun ∧ p = .done) ∨
          ((s.cmd = .encRun ∨ s.cmd = .compress) ∧ p = .encTable) →
        exec (.l y) s = .next
          { s with
            phase := p
            hsStack := []
            snk := ⟨s.snk.bits ++ true :: bitsOf 9 y.toNat, false⟩
            trace := s.trace ++ [.snkWrite 1 1, .snkWrite 9 y.toNat] }))

/-- 44_decoder R175: one body bit moves left or right; the sentinel ends the walk, a byte leaf emits its byte and the walk goes back to the root, an internal node is the new position; no bit left is a truncation. -/
def Obligations.BodyBitRead : Prop :=
  ∀ (s : State) (l r : Tree), s.phase = .decWalk → s.cur = some (.node l r) →
    (∀ (b : Bool) (x : Bits) (c : Tree), s.unread = b :: x → c = (if b then r else l) →
      (c = .leaf EOF_SYM → exec (.c [b]) s = .next
        { s with
          phase := .decClose
          src := ⟨s.src.bits, s.src.pos + 1⟩
          trace := s.trace ++ [.srcRead 1 (some b.toNat)] }) ∧
      (∀ (y : Sym) (t : Tree), c = .leaf y → y.toNat ≤ 255 →
        s.treeValid = true → s.tree = some t → s.snk.closed = false →
        exec (.c [b]) s = .next
          { s with
            cur := some t
            src := ⟨s.src.bits, s.src.pos + 1⟩
            snk := ⟨s.snk.bits ++ bitsOf 8 y.toNat, false⟩
            trace := s.trace ++ [.srcRead 1 (some b.toNat), .snkWrite 8 y.toNat] }) ∧
      (∀ l' r' : Tree, c = .node l' r' → exec (.c [b]) s = .next
        { s with
          cur := some (.node l' r')
          src := ⟨s.src.bits, s.src.pos + 1⟩
          trace := s.trace ++ [.srcRead 1 (some b.toNat)] })) ∧
    (s.unread = [] → exec .eodAtBody s = .next
      { s with
        phase := .fault
        faultCode := .truncatedStream, faultSub := .eodBody
        faultValue := 0, faultPhase := .decWalk
        trace := s.trace ++ [.srcRead 1 none] })

/-- 30_encoding R85, R87, 44_decoder R175 once per bit: from the root, the whole code of a byte emits that byte and comes back to the root, and the sentinel's code ends the walk, in exactly its own bits. -/
def Obligations.WholeCodeRead : Prop :=
  ∀ (s : State) (t : Tree) (p x : Bits) (y : Sym), s.phase = .decWalk → s.treeValid = true →
    s.tree = some t → s.cur = some t → p ≠ [] → t.sub p = some (.leaf y) →
    s.unread = p ++ x → s.snk.closed = false →
    (y.toNat ≤ 255 → exec (.c p) s = .next
      { s with
        src := ⟨s.src.bits, s.src.pos + p.length⟩
        snk := ⟨s.snk.bits ++ bitsOf 8 y.toNat, false⟩
        trace := s.trace ++ p.map (fun b => .srcRead 1 (some b.toNat)) ++ [.snkWrite 8 y.toNat] }) ∧
    (y = EOF_SYM → ∃ u : Tree, exec (.c p) s = .next
      { s with
        phase := .decClose
        cur := some u
        src := ⟨s.src.bits, s.src.pos + p.length⟩
        trace := s.trace ++ p.map (fun b => .srcRead 1 (some b.toNat)) })

/-- 43_encoder R156, R157: the code of each source byte, then the sentinel's code once; a code of length 0 makes no transaction; a symbol without a code is refused. -/
def Obligations.CodesWritten : Prop :=
  ∀ s : State, s.snk.closed = false →
    (s.phase = .encBody →
      (∀ (v : BitVec 8) (x : Bits), s.unread = bitsOf 8 v.toNat ++ x →
        (∀ p : Bits, s.code.get v.toNat = some p → exec (.c p) s = .next
          { s with
            src := ⟨s.src.bits, s.src.pos + 8⟩
            snk := ⟨s.snk.bits ++ p, false⟩
            trace := s.trace ++ .srcRead 8 (some v.toNat) :: codeWrites p }) ∧
        (s.code.get v.toNat = none → Quiet s → step s = .refused .noCode)) ∧
      (s.unread.length < 8 → Quiet s → step s = .next
        { s with phase := .encEof, trace := s.trace ++ [.srcRead 8 none] })) ∧
    (s.phase = .encEof →
      (∀ p : Bits, s.code.get 256 = some p → exec (.c p) s = .next
        { s with
          phase := .encClose
          snk := ⟨s.snk.bits ++ p, false⟩
          trace := s.trace ++ codeWrites p }) ∧
      (s.code.get 256 = none → Quiet s → step s = .refused .noCode))

/-- 44_decoder R174: the walk starts at the root; on the sentinel alone the code of no bits is met and decoding ends; a byte leaf as root is a fault. -/
def Obligations.DecoderStarts : Prop :=
  ∀ (s : State) (t : Tree), s.phase = .decStart → s.treeValid = true → s.tree = some t →
    (t = .leaf EOF_SYM → exec (.c []) s = .next
      { s with phase := .decClose, cur := some (.leaf EOF_SYM) }) ∧
    (Quiet s →
      (∀ l r : Tree, t = .node l r → step s = .next
        { s with phase := .decWalk, cur := some (.node l r) }) ∧
      (∀ y : Sym, t = .leaf y → y.toNat ≤ 255 → step s = .next
        { s with
          phase := .fault, cur := some (.leaf y)
          faultCode := .malformedHeader, faultSub := .leafRoot
          faultValue := BitVec.setWidth 32 y, faultPhase := .decStart }))

/-- 43_encoder R158, 44_decoder R176: the last byte is filled with zeros, the sink is closed and the operation is done. -/
def Obligations.PaddingClosesTheSink : Prop :=
  ∀ (s : State) (k : Nat), s.phase = .encClose ∨ s.phase = .decClose → s.snk.closed = false →
    k = (8 - s.snk.bits.length % 8) % 8 →
    exec (.pad k) s = .next
      { s with
        phase := .done
        snk := ⟨s.snk.bits ++ List.replicate k false, true⟩
        trace := s.trace ++ [.snkClose] } ∧
    (s.snk.bits ++ List.replicate k false).length % 8 = 0

/-! ## The rules that fire without an item -/

/-- 40_tree_builder R102, R103: a byte read adds 1 to its own count and to no other; on `EOD` the sentinel's count becomes 1 and the pass ends. -/
def Obligations.CountingSteps : Prop :=
  ∀ s : State, Quiet s → s.phase = .tbCount →
    (∀ (v : BitVec 8) (x : Bits), s.unread = bitsOf 8 v.toNat ++ x →
      ∃ tbl : CountTable,
        step s = .next
          { s with
            count := tbl
            src := ⟨s.src.bits, s.src.pos + 8⟩
            trace := s.trace ++ [.srcRead 8 (some v.toNat)] } ∧
        ∀ u, tbl.get u = s.count.get u + if u = v.toNat then 1 else 0) ∧
    (s.unread.length < 8 →
      ∃ tbl : CountTable,
        step s = .next
          { s with
            phase := .tbInit
            count := tbl, countValid := true
            trace := s.trace ++ [.srcRead 8 none] } ∧
        ∀ u, tbl.get u = if u = 256 then 1 else s.count.get u)

/-- 40_tree_builder R106: one leaf for each symbol of positive count and for no other, in `LEAF_ORDER`, with its count as weight and numbered from 0. -/
def Obligations.LeavesEnqueued : Prop :=
  ∀ s : State, Quiet s → s.phase = .tbInit →
    ∃ order : List Nat,
      order.Nodup ∧ (∀ v, v ∈ order ↔ v ≤ 256 ∧ 0 < s.count.get v) ∧
      order.Pairwise (fun u v => Config.leafKey u ≤ Config.leafKey v) ∧
      step s = .next
        { s with
          phase := .tbMerge
          pq := order.zipIdx.map fun q => ⟨s.count.get q.1, q.2, .leaf (BitVec.ofNat 9 q.1)⟩
          seq := order.length }

/-- 40_tree_builder R107, R108, R109: while two entries or more remain one admissible merge is made; the last entry is the tree. -/
def Obligations.ConstructionSteps : Prop :=
  ∀ s : State, Quiet s → s.phase = .tbMerge →
    (2 ≤ s.pq.length → ∃ pq : List PqEntry,
      MergeRel s.pq s.seq pq ∧ pq.length + 1 = s.pq.length ∧
      step s = .next { s with pq := pq, seq := s.seq + 1 }) ∧
    (∀ (e : PqEntry) (p : Phase), s.pq = [e] →
      (s.cmd = .tbRun ∧ p = .done) ∨ (s.cmd = .compress ∧ p = .encMagic) →
      step s = .next
        { s with
          phase := p
          tree := some e.tree, treeValid := true, treeOrigin := .built
          pq := [] })

/-- 40_tree_builder R107: every policy makes an admissible merge, and every admissible merge is made by some policy. -/
def Obligations.MergesAreTheAdmissibleOnes : Prop :=
  (∀ (P : Policy) (pq : List PqEntry) (q : Nat), 2 ≤ pq.length →
    ∃ pq', mergeStep P pq q = some pq' ∧ MergeRel pq q pq') ∧
  ∀ (pq pq' : List PqEntry) (q : Nat), MergeRel pq q pq' →
    ∃ P : Policy, mergeStep P pq q = some pq'

/-- 43_encoder R151, R152, R155: every symbol gets the path of its leaf, of the last such leaf in pre-order where there are several, and no other symbol an entry; then the source is rewound. -/
def Obligations.CodeTableBuilt : Prop :=
  ∀ s : State, Quiet s →
    (∀ t : Tree, s.phase = .encTable → s.treeValid = true → s.tree = some t →
      ∃ tbl : CodeTable,
        step s = .next
          { s with phase := .encRewind, code := tbl, tableValid := true, encStack := [] } ∧
        ∀ y : Sym, y.toNat ≤ 256 →
          tbl.get y.toNat = codeOf t y ∧
          (tbl.get y.toNat = none ↔ y ∉ t.leaves) ∧
          (∀ p, tbl.get y.toNat = some p → t.sub p = some (.leaf y))) ∧
    (s.phase = .encRewind → step s = .next
      { s with
        phase := .encBody
        src := ⟨s.src.bits, 0⟩
        trace := s.trace ++ [.srcRewind] })

/-! ## Rules about the whole machine -/

/-- 20_memory R50, R55: nothing the CORE does changes the source's bits; its position goes back only by the rewind; the sink only grows; a closed sink is final. -/
def Obligations.StreamsOnlyMoveOn : Prop :=
  ∀ s t : State, step s = .next t →
    t.src.bits = s.src.bits ∧
    (s.phase ≠ .encRewind → s.src.pos ≤ t.src.pos) ∧
    s.snk.bits <+: t.snk.bits ∧
    (s.snk.closed = true → t.snk = s.snk)

/-- 60_exceptions R201, R204, R205: a step into `FAULT` writes the four fault registers and `PHASE`, names one cause of the table with its phase, value and stream position, and changes nothing else but the reads already made and, for `LEAF_ROOT`, `CUR`. -/
def Obligations.FaultEntry : Prop :=
  ∀ s t : State, Quiet s → step s = .next t → s.phase ≠ .fault → t.phase = .fault →
    t =
      { s with
        phase := .fault
        faultCode := t.faultSub.kind, faultSub := t.faultSub
        faultValue := t.faultValue, faultPhase := raisedIn t.faultSub
        src := ⟨s.src.bits, t.src.pos⟩, cur := t.cur, trace := t.trace } ∧
    s.phase = raisedIn t.faultSub ∧
    (match t.faultSub with
      | .none => False
      | .magicMismatch =>
        s.src.pos + 32 ≤ s.src.bits.length ∧ t.src.pos = s.src.pos + 32 ∧
          t.faultValue ≠ Config.magic ∧ t.faultValue.toNat = valOf (s.unread.take 32)
      | .symbolRange =>
        s.src.pos + 10 ≤ s.src.bits.length ∧ t.src.pos = s.src.pos + 10 ∧
          256 < t.faultValue.toNat ∧ t.faultValue.toNat = valOf ((s.unread.drop 1).take 9)
      | .capacity =>
        s.leafCnt + s.need = 257 ∧ t.src.pos = s.src.pos + 1 ∧ t.faultValue = 0
      | .leafRoot =>
        ∃ y : Sym, s.tree = some (.leaf y) ∧ t.cur = s.tree ∧ y.toNat ≤ 255 ∧
          t.src.pos = s.src.pos ∧ t.faultValue.toNat = y.toNat
      | .eodMagic => s.unread.length < 32 ∧ t.src.pos = s.src.pos ∧ t.faultValue = 0
      | .eodHdrTag | .eodBody => s.unread = [] ∧ t.src.pos = s.src.pos ∧ t.faultValue = 0
      | .eodHdrSym =>
        s.unread.length < 10 ∧ t.src.pos = s.src.pos + 1 ∧ t.faultValue = 0) ∧
    (t.faultSub ≠ .leafRoot → t.cur = s.cur)

/-- 60_exceptions R207, 70_reset R231: in `FAULT` no rule fires and no command is taken; without a reset nothing changes. -/
def Obligations.FaultIsLeftOnlyByReset : Prop :=
  ∀ s : State, s.phase = .fault →
    (s.rst = false → step s = .next { s with cmdPort := none }) ∧
    (s.rst = true → ∃ t, step s = .next t ∧ t.phase = .idle ∧ t.faultCode = .none ∧
      t.faultSub = .none ∧ t.faultValue = 0 ∧ t.faultPhase = .idle)

/-- 10_state R38: no step but a raise or a reset writes the fault registers. -/
def Obligations.FaultRegistersWrittenOnlyByRaise : Prop :=
  ∀ s t : State, step s = .next t → s.rst = false →
    (t.faultCode = s.faultCode ∧ t.faultSub = s.faultSub ∧ t.faultValue = s.faultValue ∧
      t.faultPhase = s.faultPhase) ∨
    (s.phase ≠ .fault ∧ t.phase = .fault ∧ t.faultPhase = s.phase)

/-- 20_memory R70, 10_state R23: a held tree is never written until a new command or a reset. -/
def Obligations.HeldTreeIsReadOnly : Prop :=
  ∀ s t : State, Inv s → Quiet s → step s = .next t → s.treeValid = true →
    t.tree = s.tree ∧ t.treeValid = true ∧ t.treeOrigin = s.treeOrigin

/-- 20_memory R64, R71: the transactions of a step are those that the table gives its phase, in order, and no other; a command and a reset issue none. -/
def Obligations.TransactionsAreThoseOfTheTable : Prop :=
  ∀ s t : State, Inv s → step s = .next t →
    ∃ ts : List Transaction, t.trace = s.trace ++ ts ∧
      (Quiet s → Issues s.phase ts) ∧ (¬ Quiet s → ts = [])

/-- 10_state R41: `PHASE` stays, moves on along the chain of `CMD`, takes the decoder's short cut, or goes to `FAULT`; `CMD` stays. -/
def Obligations.PhasesFollowTheChain : Prop :=
  ∀ s t : State, Inv s → Quiet s → step s = .next t →
    t.cmd = s.cmd ∧
    (t.phase = s.phase ∨ nextPhase s.cmd s.phase = some t.phase ∨
      (s.phase = .decStart ∧ t.phase = .decClose) ∨ t.phase = .fault)

/-- 10_state R23 to R32: each register is written only in the phases of the unit it belongs to. -/
def Obligations.RegistersWrittenOnlyByTheirUnit : Prop :=
  ∀ s t : State, Quiet s → step s = .next t →
    t.rst = false ∧ t.cmdPort = none ∧ t.cmd = s.cmd ∧
    (s.phase ≠ .tbCount → t.count = s.count ∧ t.countValid = s.countValid) ∧
    (s.phase ≠ .tbInit → s.phase ≠ .tbMerge → t.pq = s.pq ∧ t.seq = s.seq) ∧
    (s.phase ≠ .tbMerge → s.phase ≠ .hdWalk →
      t.tree = s.tree ∧ t.treeValid = s.treeValid ∧ t.treeOrigin = s.treeOrigin) ∧
    (s.phase ≠ .hsWalk → t.hsStack = s.hsStack) ∧
    (s.phase ≠ .hdWalk →
      t.hdStack = s.hdStack ∧ t.leafCnt = s.leafCnt ∧ t.need = s.need) ∧
    (s.phase ≠ .encTable →
      t.code = s.code ∧ t.tableValid = s.tableValid ∧ t.encStack = s.encStack) ∧
    (s.phase ≠ .decStart → s.phase ≠ .decWalk → t.cur = s.cur)

/-! ## The invariant -/

/-- The invariant holds after reset (10_state R42). That the source and the sink are empty in `State.reset` is the model's choice (log 6): R42 leaves them to the collaborator. -/
def Obligations.ResetSatisfiesInv : Prop := Inv State.reset

/-- Every step keeps the invariant: the rules, a command and a reset alike (10_state R22 to R38, 44_decoder R171). -/
def Obligations.StepKeepsInv : Prop := ∀ s t : State, Inv s → step s = .next t → Inv t

/-- 10_state R40, 70_reset R230, R235, R236, R241: what the host does keeps the invariant: it presents a command or asserts reset at any time, and supplies a source at its start or an empty open sink while `BUSY = 0`, with nothing else changed. While `BUSY = 1` a supply is refused (60_exceptions R210, 93 U12, log 21). -/
def Obligations.HostKeepsInv : Prop :=
  ∀ s : State, Inv s →
    (∀ c : Command, Inv (s.presentCommand c)) ∧ Inv s.assertReset ∧
    ((s.phase = .idle ∨ s.phase = .done ∨ s.phase = .fault) →
      (∀ x : Bits, ∃ t, s.supplySource x = .next t ∧ t = { s with src := ⟨x, 0⟩ } ∧ Inv t) ∧
      ∃ t, s.supplySink = .next t ∧ t = { s with snk := ⟨[], false⟩ } ∧ Inv t) ∧
    (¬(s.phase = .idle ∨ s.phase = .done ∨ s.phase = .fault) →
      (∀ x : Bits, s.supplySource x = .refused .streamInUse) ∧
      s.supplySink = .refused .streamInUse)

/-- 60_exceptions R210, 93: in a state of the invariant the machine is never stuck, and a step is refused only as the spec refuses: a symbol without a code (U5), a command without its tree (U8) or without its sink (U9). -/
def Obligations.NeverStuck : Prop :=
  ∀ s : State, Inv s →
    (∀ r, step s ≠ .fault r) ∧
    ∀ r, step s = .refused r →
      (Quiet s ∧ r = .noCode ∧
        ((s.phase = .encBody ∧ ∃ v, srcPeek 8 s = some v ∧ s.code.get v = none) ∨
          (s.phase = .encEof ∧ s.code.get 256 = none))) ∨
      (s.rst = false ∧ s.accepting = true ∧ ∃ c : Command, s.cmdPort = some c.code ∧
        ((r = .treeNotValid ∧ s.treeValid = false ∧
            (c = .hsRun ∨ c = .encRun ∨ c = .decRun)) ∨
          (r = .sinkNotReady ∧ writesSink c = true ∧
            (s.snk.closed = true ∨ (c ≠ .hsRun ∧ s.snk.bits ≠ [])))))

/-! ## What the operations compute -/

/-- 42_header_deserializer R139: `des` and `ser` are inverse, both ways, whatever follows the header. -/
def Obligations.HeaderInverse : Prop :=
  (∀ (t : Tree) (x : Bits), t.legal → des (t.ser ++ x) 0 1 = .ok (t, x, t.nleaves)) ∧
  ∀ (y x : Bits) (t : Tree) (k : Nat), des y 0 1 = .ok (t, x, k) →
    y = t.ser ++ x ∧ k = t.nleaves ∧ t.legal

/-- 30_encoding R88, 00_scope R9: the header of a tree of `k` leaves has `11 k - 1` bits; a legal tree has at most 2826 header bits, 513 nodes and codes of 256 bits. -/
def Obligations.HeaderLengthAndBounds : Prop :=
  ∀ t : Tree, t.ser.length = 11 * t.nleaves - 1 ∧
    (t.legal → t.ser.length ≤ 2826 ∧ t.nodes ≤ 513 ∧
      ∀ y p, (y, p) ∈ t.codes → p.length ≤ 256)

/-- 43_encoder R162: no code is the beginning of another leaf's code, so with distinct symbols no code begins another symbol's; with one leaf the only code is empty, with two leaves or more none is. -/
def Obligations.CodesArePrefixFree : Prop :=
  ∀ (t : Tree) (a b : Sym) (p q : Bits), (a, p) ∈ t.codes → (b, q) ∈ t.codes →
    (p <+: q → p = q ∧ a = b) ∧
    (t.leaves.Nodup → codeOf t a = some p) ∧
    (t.nleaves = 1 → p = []) ∧
    (2 ≤ t.nleaves → p ≠ [])

/-- 44_decoder R179: what `enc` writes, `decompress` reads back, whatever follows, for every tree with distinct symbols that covers the bytes and the sentinel. -/
def Obligations.DecompressInvertsEnc : Prop :=
  ∀ (magic : Word32) (t : Tree) (B : List (BitVec 8)), t.legal → t.leaves.Nodup →
    EOF_SYM ∈ t.leaves → (∀ b ∈ B, BitVec.setWidth 9 b ∈ t.leaves) →
    ∃ body, bodyOf t B = some body ∧ enc magic t B = some (padded (streamOf magic t body)) ∧
      ∀ z : Bits, decompress magic (padded (streamOf magic t body) ++ z) =
        .ok (B, List.replicate (padLen (streamOf magic t body).length) false ++ z)

/-- 44_decoder R181: a stream cut before its last bit gives `TruncatedStream`, with the sub-code of the part in which the cut falls. -/
def Obligations.TruncationIsReported : Prop :=
  ∀ (magic : Word32) (t : Tree) (B : List (BitVec 8)) (body x : Bits), t.legal →
    t.leaves.Nodup → bodyOf t B = some body →
    x <+: streamOf magic t body → x.length < (streamOf magic t body).length →
    ∃ sub : FaultSub, decompress magic x = .error ⟨.truncatedStream, sub, 0⟩ ∧
      (x.length < 32 → sub = .eodMagic) ∧
      (32 ≤ x.length → x.length < 32 + t.ser.length → sub = .eodHdrTag ∨ sub = .eodHdrSym) ∧
      (32 + t.ser.length ≤ x.length → sub = .eodBody)

/-- 41_header_serializer R120, R124, R125: `HS_RUN` appends exactly `ser(TREE)`, in one step per node, and changes nothing else. -/
def Obligations.HsRunWritesTheHeader : Prop :=
  ∀ (s : State) (t : Tree), s.rst = false → s.phase = .idle ∨ s.phase = .done →
    s.hsStack = [] → s.treeValid = true → s.tree = some t → s.snk.closed = false →
    run (t.nodes + 1) (s.presentCommand .hsRun) = .next
      { s with
        cmdPort := none, cmd := .hsRun, phase := .done
        snk := ⟨s.snk.bits ++ t.ser, false⟩
        trace := s.trace ++ headerWrites t }

/-- 42_header_deserializer R130, R137, R141: `HD_RUN` behaves as `des` on the unread source, with a tree and with a fault, and has read what `des` has read. -/
def Obligations.HdRunIsDes : Prop :=
  ∀ s : State, s.rst = false → s.phase = .idle ∨ s.phase = .done →
    match des s.unread 0 1 with
    | .ok (t, rest, k) =>
      ∃ v : State, Reaches (s.presentCommand .hdRun) v ∧ v =
        { s with
          cmdPort := none, cmd := .hdRun, phase := .done
          tree := some t, treeValid := true, treeOrigin := .read
          code := Vector.replicate 257 none, tableValid := false
          hdStack := [], leafCnt := k, need := 0
          src := ⟨s.src.bits, s.src.pos + (s.unread.length - rest.length)⟩
          trace := v.trace }
    | .error e =>
      ∃ v : State, Reaches (s.presentCommand .hdRun) v ∧ v =
        { s with
          cmdPort := none, cmd := .hdRun, phase := .fault
          faultCode := e.kind, faultSub := e.sub, faultValue := e.value, faultPhase := .hdWalk
          treeValid := false, code := Vector.replicate 257 none, tableValid := false
          hdStack := v.hdStack, leafCnt := v.leafCnt, need := v.need
          src := ⟨s.src.bits, s.src.pos + (s.unread.length - (desLeft s.unread 0 1).length)⟩
          trace := v.trace }

/-- 40_tree_builder R100, R105, R108, R112: `TB_RUN` counts the whole bytes that stand unread and ends, after one merge fewer than there are leaves, with an admissible tree of those counts. Counts and weights are unbounded naturals here (R104, log 2). -/
def Obligations.TbRunBuildsAGreedyTree : Prop :=
  ∀ (s : State) (B : List (BitVec 8)) (tail : Bits), s.rst = false →
    s.phase = .idle ∨ s.phase = .done → s.unread = bitsOfBytes B ++ tail → tail.length < 8 →
    ∃ (t : Tree) (q : Nat), Greedy (countsOf B) t ∧
      run (B.length + t.nleaves + 3) (s.presentCommand .tbRun) = .next
        { s with
          cmdPort := none, cmd := .tbRun, phase := .done
          count := countsOf B, countValid := true
          tree := some t, treeValid := true, treeOrigin := .built
          code := Vector.replicate 257 none, tableValid := false
          pq := [], seq := q
          src := ⟨s.src.bits, s.src.pos + 8 * B.length⟩
          trace := s.trace ++ countTransactions B }

/-- 43_encoder R150, R153, R159: `ENC_RUN` on an empty sink writes `enc(TREE, B)` for the bytes of the whole source, wherever the source stood; where a code is missing it stops, refused. -/
def Obligations.EncRunWritesEnc : Prop :=
  ∀ (s : State) (t : Tree) (B : List (BitVec 8)) (tail : Bits), s.rst = false →
    s.phase = .idle ∨ s.phase = .done → s.hsStack = [] → s.treeValid = true →
    s.tree = some t → s.snk = ⟨[], false⟩ → s.src.bits = bitsOfBytes B ++ tail → tail.length < 8 →
    (∀ y, enc Config.magic t B = some y → ∃ tbl : CodeTable,
      (∀ a : Sym, a.toNat ≤ 256 → tbl.get a.toNat = codeOf t a) ∧
      Reaches (s.presentCommand .encRun)
        { s with
          cmdPort := none, cmd := .encRun, phase := .done
          code := tbl, tableValid := true, encStack := []
          src := ⟨s.src.bits, 8 * B.length⟩
          snk := ⟨y, true⟩
          trace := s.trace ++ encodeTransactions Config.magic t B }) ∧
    (enc Config.magic t B = none → ∃ v : State,
      Reaches (s.presentCommand .encRun) v ∧ step v = .refused .noCode)

/-- 44_decoder R170, R177, R182, 60_exceptions R201, R205: `DEC_RUN` behaves as `dec(TREE, unread)`: the bytes on a closed sink, or the fault with the bytes emitted before it on the sink, left open. On `LEAF_ROOT` no byte is emitted, no bit is read and `CUR` is the root; on `EOD_BODY` the source is read to its end. -/
def Obligations.DecRunIsDec : Prop :=
  ∀ (s : State) (t : Tree), s.rst = false → s.phase = .idle ∨ s.phase = .done →
    s.treeValid = true → s.tree = some t → t.legal → s.snk = ⟨[], false⟩ →
    match dec t s.unread with
    | .ok (out, rest) =>
      ∃ v : State, Reaches (s.presentCommand .decRun) v ∧ v =
        { s with
          cmdPort := none, cmd := .decRun, phase := .done, cur := v.cur
          src := ⟨s.src.bits, s.src.pos + (s.unread.length - rest.length)⟩
          snk := ⟨bitsOfBytes out, true⟩, trace := v.trace }
    | .error e =>
      ∃ v : State, Reaches (s.presentCommand .decRun) v ∧
        (e.sub = .leafRoot ∨ e.sub = .eodBody) ∧
        (e.sub = .leafRoot → decOut t s.unread = [] ∧ v.cur = some t) ∧ v =
        { s with
          cmdPort := none, cmd := .decRun, phase := .fault, cur := v.cur
          faultCode := e.kind, faultSub := e.sub, faultValue := e.value
          faultPhase := raisedIn e.sub
          src := ⟨s.src.bits, if e.sub = .leafRoot then s.src.pos else s.src.pos + s.unread.length⟩
          snk := ⟨bitsOfBytes (decOut t s.unread), false⟩, trace := v.trace }

/-- 43_encoder R160: `COMPRESS` on any bytes ends in `DONE` with the sink holding `enc(t, B)`, closed, for a `t` in `Greedy(COUNT)`, with the flags, the position and the transactions that the rule lists. Counts and weights are unbounded naturals here (R104, log 2). -/
def Obligations.CompressWritesEnc : Prop :=
  ∀ (s : State) (B : List (BitVec 8)) (tail : Bits), s.rst = false →
    s.phase = .idle ∨ s.phase = .done → s.hsStack = [] → s.snk = ⟨[], false⟩ →
    s.src = ⟨bitsOfBytes B ++ tail, 0⟩ → tail.length < 8 →
    ∃ (t : Tree) (y : Bits) (q : Nat) (tbl : CodeTable),
      Greedy (countsOf B) t ∧ enc Config.magic t B = some y ∧
      (∀ a : Sym, a.toNat ≤ 256 → tbl.get a.toNat = codeOf t a) ∧
      Reaches (s.presentCommand .compress)
        { s with
          cmdPort := none, cmd := .compress, phase := .done
          count := countsOf B, countValid := true
          tree := some t, treeValid := true, treeOrigin := .built
          pq := [], seq := q
          code := tbl, tableValid := true, encStack := []
          src := ⟨s.src.bits, 8 * B.length⟩
          snk := ⟨y, true⟩
          trace := s.trace ++ countTransactions B ++ encodeTransactions Config.magic t B }

/-- 44_decoder R177, R178, R180, R182, 60_exceptions R201, R205: `DECOMPRESS` behaves as `decompress` of the unread source, on every source. It ends in `DONE` with the bytes on a closed sink and the tree that `des` reads; or in `FAULT` with the registers of the fault, the source at the position of the fault, and on the open sink the bytes emitted before it, none but for `EOD_BODY`. A fault before the tree is complete leaves `TREE`, invalid, and `CUR`; a later one holds the tree read. -/
def Obligations.DecompressIsDecompress : Prop :=
  ∀ s : State, s.rst = false → s.phase = .idle ∨ s.phase = .done → s.snk = ⟨[], false⟩ →
    match decompress Config.magic s.unread with
    | .ok (out, rest) =>
      ∃ (v : State) (t : Tree) (body : Bits), Reaches (s.presentCommand .decompress) v ∧
        des (s.unread.drop 32) 0 1 = .ok (t, body, t.nleaves) ∧ t.legal ∧ v =
        { s with
          cmdPort := none, cmd := .decompress, phase := .done
          tree := some t, treeValid := true, treeOrigin := .read
          code := Vector.replicate 257 none, tableValid := false
          hdStack := [], leafCnt := t.nleaves, need := 0, cur := v.cur
          src := ⟨s.src.bits, s.src.pos + (s.unread.length - rest.length)⟩
          snk := ⟨bitsOfBytes out, true⟩, trace := v.trace }
    | .error e =>
      ∃ v : State, Reaches (s.presentCommand .decompress) v ∧ v =
        { s with
          cmdPort := none, cmd := .decompress, phase := .fault
          faultCode := e.kind, faultSub := e.sub, faultValue := e.value
          faultPhase := raisedIn e.sub
          tree := v.tree, treeOrigin := v.treeOrigin, cur := v.cur
          treeValid := decide (raisedIn e.sub = .decStart ∨ raisedIn e.sub = .decWalk)
          code := Vector.replicate 257 none, tableValid := false
          hdStack := v.hdStack, leafCnt := v.leafCnt, need := v.need
          src := ⟨s.src.bits,
            s.src.pos + (s.unread.length - (decompressLeft Config.magic s.unread).length)⟩
          snk := ⟨if e.sub = .eodBody then bitsOfBytes (decompressOut Config.magic s.unread) else [],
            false⟩
          trace := v.trace } ∧
        (e.sub = .eodMagic → v.src.pos = s.src.pos) ∧
        (e.sub = .magicMismatch → v.src.pos = s.src.pos + 32) ∧
        (e.sub = .eodHdrTag ∨ e.sub = .eodBody → v.src.pos = s.src.pos + s.unread.length) ∧
        (raisedIn e.sub = .decMagic → v.hdStack = [] ∧ v.leafCnt = 0 ∧ v.need = 1) ∧
        (raisedIn e.sub = .decMagic ∨ raisedIn e.sub = .hdWalk →
          v.tree = s.tree ∧ v.treeOrigin = s.treeOrigin ∧ v.cur = s.cur) ∧
        (raisedIn e.sub = .decStart ∨ raisedIn e.sub = .decWalk →
          ∃ (t : Tree) (body : Bits), des (s.unread.drop 32) 0 1 = .ok (t, body, t.nleaves) ∧
            v.tree = some t ∧ v.treeOrigin = .read ∧
            v.hdStack = [] ∧ v.leafCnt = t.nleaves ∧ v.need = 0 ∧
            (e.sub = .leafRoot → v.cur = some t ∧ v.src.pos = s.src.pos + 32 + t.ser.length))

/-- 40_tree_builder R111 (a), (b), (c): every admissible tree has one leaf per symbol of positive count, one internal node fewer, and at the root the sum of all counts, which is the sum of the counts of its leaves. -/
def Obligations.GreedyTrees : Prop :=
  ∀ (tbl : CountTable) (order : List Nat) (w : Nat) (t : Tree), order.Perm (qualifying tbl) →
    GreedyFrom (enqueueLeaves tbl order 0) order.length w t →
    t.leaves.Nodup ∧ (∀ y : Sym, y ∈ t.leaves ↔ y.toNat ≤ 256 ∧ 0 < tbl.get y.toNat) ∧
    t.nleaves = order.length ∧ t.nodes = 2 * order.length - 1 ∧ t.legal ∧
    w = ((List.range 257).map tbl.get).sum ∧
    w = (t.leaves.map fun y => tbl.get y.toNat).sum

/-- 40_tree_builder R104, 70_reset R245: no byte is counted more often than there are bytes and the sentinel is counted once; every entry of every priority structure that admissible merges reach, and every entry that waits in `TB_MERGE` over these counts, has a weight of at most the number of bytes and one, and the root has exactly that. So under the launch premise every count and every weight fits in `WEIGHT_BITS`, and unbounded naturals and the build's counters agree (log 2). -/
def Obligations.WeightsFitUnderTheLaunchPremise : Prop :=
  ∀ B : List (BitVec 8),
    (∀ v, v ≠ 256 → (countsOf B).get v ≤ B.length) ∧ (countsOf B).get 256 = 1 ∧
    (LaunchPremise B.length → ∀ v, (countsOf B).get v < 2 ^ Config.weightBits) ∧
    (∀ order : List Nat, order.Perm (qualifying (countsOf B)) →
      (∀ (pq : List PqEntry) (q : Nat),
        Relation.ReflTransGen Merges (enqueueLeaves (countsOf B) order 0, order.length) (pq, q) →
        ∀ e ∈ pq, e.weight ≤ B.length + 1 ∧
          (LaunchPremise B.length → e.weight < 2 ^ Config.weightBits)) ∧
      ∀ (w : Nat) (t : Tree),
        GreedyFrom (enqueueLeaves (countsOf B) order 0) order.length w t → w = B.length + 1) ∧
    ∀ s : State, Inv s → s.phase = .tbMerge → s.count = countsOf B →
      ∀ e ∈ s.pq, e.weight ≤ B.length + 1 ∧
        (LaunchPremise B.length → e.weight < 2 ^ Config.weightBits)

/-- 43_encoder R161, 30_encoding R86: before padding the output has 32 bits, 11 bits for each of the `k` leaves but one, and the weighted path length of the tree; the padding fills whole bytes. -/
def Obligations.OutputLength : Prop :=
  ∀ (magic : Word32) (B : List (BitVec 8)) (t : Tree) (body : Bits), Greedy (countsOf B) t →
    bodyOf t B = some body →
    let len := 32 + (11 * t.nleaves - 1) + wpl (countsOf B) t
    (streamOf magic t body).length = len ∧
      (padded (streamOf magic t body)).length = 8 * ((len + 7) / 8)

/-- 43_encoder R163: for every byte sequence, `COMPRESS` ends in `DONE`, and `DECOMPRESS` on its output, on any machine with the same `MAGIC` and with or without more data behind it, ends in `DONE` with those bytes. Counts and weights are unbounded naturals here (40 R104, log 2). -/
def Obligations.MachineRoundTrip : Prop :=
  ∀ (s : State) (B : List (BitVec 8)), Inv s → s.rst = false → s.accepting = true →
    s.snk = ⟨[], false⟩ → s.src = ⟨bitsOfBytes B, 0⟩ →
    ∃ t : State, Reaches (s.presentCommand .compress) t ∧ OutputValid t ∧ t.snk.closed = true ∧
      ∀ (u : State) (z : Bits), u.rst = false → u.accepting = true → u.snk = ⟨[], false⟩ →
        u.src = ⟨t.snk.bits ++ z, 0⟩ →
        ∃ v : State, Reaches (u.presentCommand .decompress) v ∧ OutputValid v ∧
          v.sinkBytes = some B

/-- 10_state R33: the flags of `STATUS` are these functions of the state, the output is valid exactly when `DONE` is read, and after reset the flags are 0. With them, of every state: bit 3 of `FAULT_SUB` tells the causes of `TruncatedStream`, and in the invariant it is 1 exactly when `FAULT_CODE` is 2 (R35), the fault registers are 0 outside `FAULT` (R38) and `FAULT_PHASE` is one of 5, 12, 13, 14 in it (R37). -/
def Obligations.StatusIsAFunctionOfTheState : Prop :=
  (∀ s : State,
    (s.hostView.busy = true ↔ ¬(s.phase = .idle ∨ s.phase = .done ∨ s.phase = .fault)) ∧
    (s.hostView.done = true ↔ s.phase = .done) ∧
    (s.hostView.fault = true ↔ s.phase = .fault) ∧
    s.hostView.treeValid = s.treeValid ∧
    (s.hostView.treeOrigin = 1 ↔ s.treeOrigin = .read) ∧
    (s.hostView.treeOrigin = 0 ↔ s.treeOrigin = .built) ∧
    s.hostView.countValid = s.countValid ∧ s.hostView.tableValid = s.tableValid ∧
    (OutputValid s ↔ s.hostView.done = true) ∧
    (s.hostView.faultSub.getLsbD 3 = true ↔ s.faultSub.kind = .truncatedStream)) ∧
  (State.reset.hostView.busy = false ∧ State.reset.hostView.done = false ∧
    State.reset.hostView.fault = false ∧ State.reset.hostView.treeValid = false ∧
    State.reset.hostView.countValid = false ∧ State.reset.hostView.tableValid = false) ∧
  ∀ s : State, Inv s →
    (s.hostView.faultSub.getLsbD 3 = true ↔ s.hostView.faultCode = 2) ∧
    (s.hostView.fault = false → s.hostView.faultCode = 0 ∧ s.hostView.faultSub = 0 ∧
      s.hostView.faultValue = 0 ∧ s.hostView.faultPhase = 0) ∧
    (s.hostView.fault = true → (s.hostView.faultCode = 1 ∨ s.hostView.faultCode = 2) ∧
      (s.hostView.faultPhase = 5 ∨ s.hostView.faultPhase = 12 ∨ s.hostView.faultPhase = 13 ∨
        s.hostView.faultPhase = 14))
end

