-- ==== Sys2Proof/Laws/Bits.lean ====
section
/-! SUPPORT. Words and bit sequences: `val` and `bits_n` are inverse to each other (00_scope R12), and bytes and bits (20_memory R60). -/

namespace Sys2Proof

@[simp] theorem bitsOf_length (n v : Nat) : (bitsOf n v).length = n := by
  induction n with
  | zero => rfl
  | succ n ih => simp [bitsOf, ih]

@[simp] theorem valOf_nil : valOf [] = 0 := rfl

theorem valOf_cons (b : Bool) (s : Bits) : valOf (b :: s) = b.toNat * 2 ^ s.length + valOf s := rfl

theorem valOf_lt (s : Bits) : valOf s < 2 ^ s.length := by
  induction s with
  | nil => simp
  | cons b s ih =>
    have hb : b.toNat ≤ 1 := Bool.toNat_le b
    have hm : b.toNat * 2 ^ s.length ≤ 1 * 2 ^ s.length := Nat.mul_le_mul_right _ hb
    rw [valOf_cons, List.length_cons, Nat.pow_succ]
    omega

theorem mod_two_pow_succ_testBit (v n : Nat) :
    v % 2 ^ (n + 1) = (v.testBit n).toNat * 2 ^ n + v % 2 ^ n := by
  rw [Nat.mod_pow_succ, Nat.toNat_testBit]
  ring

theorem valOf_bitsOf (n v : Nat) : valOf (bitsOf n v) = v % 2 ^ n := by
  induction n with
  | zero => simp [bitsOf, Nat.mod_one]
  | succ n ih => rw [bitsOf, valOf_cons, ih, bitsOf_length, mod_two_pow_succ_testBit]

theorem valOf_bitsOf_of_lt {n v : Nat} (h : v < 2 ^ n) : valOf (bitsOf n v) = v := by
  rw [valOf_bitsOf, Nat.mod_eq_of_lt h]

theorem bitsOf_congr {n v w : Nat} (h : v % 2 ^ n = w % 2 ^ n) : bitsOf n v = bitsOf n w := by
  induction n with
  | zero => rfl
  | succ n ih =>
    have hbit : v.testBit n = w.testBit n := by
      have hv := Nat.testBit_mod_two_pow v (n + 1) n
      have hw := Nat.testBit_mod_two_pow w (n + 1) n
      rw [h] at hv
      simpa using hv.symm.trans hw
    have hlow : v % 2 ^ n = w % 2 ^ n := by
      have hd : 2 ^ n ∣ 2 ^ (n + 1) := Nat.pow_dvd_pow 2 (Nat.le_succ n)
      rw [← Nat.mod_mod_of_dvd v hd, h, Nat.mod_mod_of_dvd w hd]
    simp [bitsOf, hbit, ih hlow]

theorem bitsOf_valOf (s : Bits) : bitsOf s.length (valOf s) = s := by
  induction s with
  | nil => rfl
  | cons b s ih =>
    have hlt := valOf_lt s
    have htop : (valOf (b :: s)).testBit s.length = b := by
      rw [valOf_cons]
      cases b with
      | false => simpa using Nat.testBit_lt_two_pow hlt
      | true => simp [Nat.testBit_two_pow_add_eq, Nat.testBit_lt_two_pow hlt]
    have hlow : bitsOf s.length (valOf (b :: s)) = bitsOf s.length (valOf s) := by
      apply bitsOf_congr
      rw [valOf_cons, Nat.mul_comm, Nat.mul_add_mod]
    rw [List.length_cons, bitsOf, htop, hlow, ih]

theorem valOf_append (s t : Bits) : valOf (s ++ t) = valOf s * 2 ^ t.length + valOf t := by
  induction s with
  | nil => simp
  | cons b s ih =>
    rw [List.cons_append, valOf_cons, ih, valOf_cons, List.length_append, Nat.pow_add]
    ring

@[simp] theorem valOf_singleton (b : Bool) : valOf [b] = b.toNat := by simp [valOf]

theorem padLen_lt (len : Nat) : padLen len < 8 := by unfold padLen; omega

/-- After the padding the length is a whole number of bytes (20_memory R54). -/
theorem add_padLen_mod (len : Nat) : (len + padLen len) % 8 = 0 := by unfold padLen; omega

theorem padLen_eq_zero {len : Nat} (h : len % 8 = 0) : padLen len = 0 := by unfold padLen; omega

@[simp] theorem bitsOfBytes_nil : bitsOfBytes [] = [] := rfl

@[simp] theorem bitsOfBytes_cons (b : BitVec 8) (bs : List (BitVec 8)) :
    bitsOfBytes (b :: bs) = bitsOf 8 b.toNat ++ bitsOfBytes bs := rfl

@[simp] theorem bitsOfBytes_length (bs : List (BitVec 8)) :
    (bitsOfBytes bs).length = 8 * bs.length := by
  induction bs with
  | nil => rfl
  | cons b bs ih => simp [ih]; ring

theorem bitsOfBytes_append (as bs : List (BitVec 8)) :
    bitsOfBytes (as ++ bs) = bitsOfBytes as ++ bitsOfBytes bs := by
  induction as with
  | nil => rfl
  | cons a as ih => simp [ih]

/-- Eight bits in front of a sequence are its first byte (20_memory R60). -/
theorem bytesOfBits_append {x : Bits} (hx : x.length = 8) (y : Bits) :
    bytesOfBits (x ++ y) = BitVec.ofNat 8 (valOf x) :: bytesOfBits y := by
  obtain ⟨b0, x, rfl⟩ := List.exists_cons_of_length_eq_add_one hx
  obtain ⟨b1, x, rfl⟩ := List.exists_cons_of_length_eq_add_one (by simpa using hx)
  obtain ⟨b2, x, rfl⟩ := List.exists_cons_of_length_eq_add_one (by simpa using hx)
  obtain ⟨b3, x, rfl⟩ := List.exists_cons_of_length_eq_add_one (by simpa using hx)
  obtain ⟨b4, x, rfl⟩ := List.exists_cons_of_length_eq_add_one (by simpa using hx)
  obtain ⟨b5, x, rfl⟩ := List.exists_cons_of_length_eq_add_one (by simpa using hx)
  obtain ⟨b6, x, rfl⟩ := List.exists_cons_of_length_eq_add_one (by simpa using hx)
  obtain ⟨b7, x, rfl⟩ := List.exists_cons_of_length_eq_add_one (by simpa using hx)
  obtain rfl : x = [] := by simpa using hx
  rfl

/-- A source or sink that holds bytes holds those bytes (20_memory R60). -/
theorem bytesOfBits_bitsOfBytes (bs : List (BitVec 8)) : bytesOfBits (bitsOfBytes bs) = bs := by
  induction bs with
  | nil => rfl
  | cons b bs ih =>
    rw [bitsOfBytes_cons, bytesOfBits_append (bitsOf_length 8 _), valOf_bitsOf_of_lt b.isLt, ih]
    simp

/-- `bits_n(v)` bit by bit: bit `n - 1` first and bit 0 last (00_scope R12). -/
theorem bitsOf_eq_map_range (n v : Nat) :
    bitsOf n v = (List.range n).map fun i => v.testBit (n - 1 - i) := by
  induction n with
  | zero => rfl
  | succ n ih =>
    rw [List.range_succ_eq_map]
    simp [bitsOf, ih]
    intro a _
    congr 1
    omega

theorem bitsOf_getElem? {n v i : Nat} (h : i < n) :
    (bitsOf n v)[i]? = some (v.testBit (n - 1 - i)) := by
  rw [bitsOf_eq_map_range]; simp [h]

/-- A sequence of `n` bits or more starts with the bits of its first number. -/
theorem eq_bitsOf_take_append {n : Nat} {x : Bits} (h : n ≤ x.length) :
    x = bitsOf n (valOf (x.take n)) ++ x.drop n := by
  have hn : (x.take n).length = n := by simp [h]
  have hb := bitsOf_valOf (x.take n)
  rw [hn] at hb
  rw [hb, List.take_append_drop]

end Sys2Proof
end

