-- ==== Sys2Proof/Laws/State.lean ====
section
/-! SUPPORT. One lemma per field per update of the state: what each named operation of Machine/Ops.lean makes of each register. No later proof unfolds a record update. -/

namespace Sys2Proof.Machine

@[simp] theorem reset_rst : State.reset.rst = false := rfl
@[simp] theorem reset_cmdPort : State.reset.cmdPort = none := rfl
@[simp] theorem reset_phase : State.reset.phase = .idle := rfl
@[simp] theorem reset_cmd : State.reset.cmd = .nop := rfl
@[simp] theorem reset_tree : State.reset.tree = none := rfl
@[simp] theorem reset_treeValid : State.reset.treeValid = false := rfl
@[simp] theorem reset_treeOrigin : State.reset.treeOrigin = .built := rfl
@[simp] theorem reset_count : State.reset.count = Vector.replicate 257 0 := rfl
@[simp] theorem reset_countValid : State.reset.countValid = false := rfl
@[simp] theorem reset_pq : State.reset.pq = [] := rfl
@[simp] theorem reset_seq : State.reset.seq = 0 := rfl
@[simp] theorem reset_hsStack : State.reset.hsStack = [] := rfl
@[simp] theorem reset_hdStack : State.reset.hdStack = [] := rfl
@[simp] theorem reset_leafCnt : State.reset.leafCnt = 0 := rfl
@[simp] theorem reset_need : State.reset.need = 1 := rfl
@[simp] theorem reset_code : State.reset.code = Vector.replicate 257 none := rfl
@[simp] theorem reset_tableValid : State.reset.tableValid = false := rfl
@[simp] theorem reset_encStack : State.reset.encStack = [] := rfl
@[simp] theorem reset_cur : State.reset.cur = none := rfl
@[simp] theorem reset_faultCode : State.reset.faultCode = .none := rfl
@[simp] theorem reset_faultSub : State.reset.faultSub = .none := rfl
@[simp] theorem reset_faultValue : State.reset.faultValue = 0 := rfl
@[simp] theorem reset_faultPhase : State.reset.faultPhase = .idle := rfl
@[simp] theorem reset_src : State.reset.src = ⟨[], 0⟩ := rfl
@[simp] theorem reset_snk : State.reset.snk = ⟨[], false⟩ := rfl
@[simp] theorem reset_trace : State.reset.trace = [] := rfl

@[simp] theorem srcAfter_rst (n : Nat) (s : State) : (srcAfter n s).rst = s.rst := rfl
@[simp] theorem srcAfter_cmdPort (n : Nat) (s : State) : (srcAfter n s).cmdPort = s.cmdPort := rfl
@[simp] theorem srcAfter_phase (n : Nat) (s : State) : (srcAfter n s).phase = s.phase := rfl
@[simp] theorem srcAfter_cmd (n : Nat) (s : State) : (srcAfter n s).cmd = s.cmd := rfl
@[simp] theorem srcAfter_tree (n : Nat) (s : State) : (srcAfter n s).tree = s.tree := rfl
@[simp] theorem srcAfter_treeValid (n : Nat) (s : State) : (srcAfter n s).treeValid = s.treeValid := rfl
@[simp] theorem srcAfter_treeOrigin (n : Nat) (s : State) : (srcAfter n s).treeOrigin = s.treeOrigin := rfl
@[simp] theorem srcAfter_count (n : Nat) (s : State) : (srcAfter n s).count = s.count := rfl
@[simp] theorem srcAfter_countValid (n : Nat) (s : State) : (srcAfter n s).countValid = s.countValid := rfl
@[simp] theorem srcAfter_pq (n : Nat) (s : State) : (srcAfter n s).pq = s.pq := rfl
@[simp] theorem srcAfter_seq (n : Nat) (s : State) : (srcAfter n s).seq = s.seq := rfl
@[simp] theorem srcAfter_hsStack (n : Nat) (s : State) : (srcAfter n s).hsStack = s.hsStack := rfl
@[simp] theorem srcAfter_hdStack (n : Nat) (s : State) : (srcAfter n s).hdStack = s.hdStack := rfl
@[simp] theorem srcAfter_leafCnt (n : Nat) (s : State) : (srcAfter n s).leafCnt = s.leafCnt := rfl
@[simp] theorem srcAfter_need (n : Nat) (s : State) : (srcAfter n s).need = s.need := rfl
@[simp] theorem srcAfter_code (n : Nat) (s : State) : (srcAfter n s).code = s.code := rfl
@[simp] theorem srcAfter_tableValid (n : Nat) (s : State) : (srcAfter n s).tableValid = s.tableValid := rfl
@[simp] theorem srcAfter_encStack (n : Nat) (s : State) : (srcAfter n s).encStack = s.encStack := rfl
@[simp] theorem srcAfter_cur (n : Nat) (s : State) : (srcAfter n s).cur = s.cur := rfl
@[simp] theorem srcAfter_faultCode (n : Nat) (s : State) : (srcAfter n s).faultCode = s.faultCode := rfl
@[simp] theorem srcAfter_faultSub (n : Nat) (s : State) : (srcAfter n s).faultSub = s.faultSub := rfl
@[simp] theorem srcAfter_faultValue (n : Nat) (s : State) : (srcAfter n s).faultValue = s.faultValue := rfl
@[simp] theorem srcAfter_faultPhase (n : Nat) (s : State) : (srcAfter n s).faultPhase = s.faultPhase := rfl
@[simp] theorem srcAfter_src (n : Nat) (s : State) : (srcAfter n s).src = { s.src with pos := if s.src.pos + n ≤ s.src.bits.length then s.src.pos + n else s.src.pos } := rfl
@[simp] theorem srcAfter_snk (n : Nat) (s : State) : (srcAfter n s).snk = s.snk := rfl
@[simp] theorem srcAfter_trace (n : Nat) (s : State) : (srcAfter n s).trace = s.trace ++ [.srcRead n (srcPeek n s)] := rfl

@[simp] theorem srcRewind_rst (s : State) : (srcRewind s).rst = s.rst := rfl
@[simp] theorem srcRewind_cmdPort (s : State) : (srcRewind s).cmdPort = s.cmdPort := rfl
@[simp] theorem srcRewind_phase (s : State) : (srcRewind s).phase = s.phase := rfl
@[simp] theorem srcRewind_cmd (s : State) : (srcRewind s).cmd = s.cmd := rfl
@[simp] theorem srcRewind_tree (s : State) : (srcRewind s).tree = s.tree := rfl
@[simp] theorem srcRewind_treeValid (s : State) : (srcRewind s).treeValid = s.treeValid := rfl
@[simp] theorem srcRewind_treeOrigin (s : State) : (srcRewind s).treeOrigin = s.treeOrigin := rfl
@[simp] theorem srcRewind_count (s : State) : (srcRewind s).count = s.count := rfl
@[simp] theorem srcRewind_countValid (s : State) : (srcRewind s).countValid = s.countValid := rfl
@[simp] theorem srcRewind_pq (s : State) : (srcRewind s).pq = s.pq := rfl
@[simp] theorem srcRewind_seq (s : State) : (srcRewind s).seq = s.seq := rfl
@[simp] theorem srcRewind_hsStack (s : State) : (srcRewind s).hsStack = s.hsStack := rfl
@[simp] theorem srcRewind_hdStack (s : State) : (srcRewind s).hdStack = s.hdStack := rfl
@[simp] theorem srcRewind_leafCnt (s : State) : (srcRewind s).leafCnt = s.leafCnt := rfl
@[simp] theorem srcRewind_need (s : State) : (srcRewind s).need = s.need := rfl
@[simp] theorem srcRewind_code (s : State) : (srcRewind s).code = s.code := rfl
@[simp] theorem srcRewind_tableValid (s : State) : (srcRewind s).tableValid = s.tableValid := rfl
@[simp] theorem srcRewind_encStack (s : State) : (srcRewind s).encStack = s.encStack := rfl
@[simp] theorem srcRewind_cur (s : State) : (srcRewind s).cur = s.cur := rfl
@[simp] theorem srcRewind_faultCode (s : State) : (srcRewind s).faultCode = s.faultCode := rfl
@[simp] theorem srcRewind_faultSub (s : State) : (srcRewind s).faultSub = s.faultSub := rfl
@[simp] theorem srcRewind_faultValue (s : State) : (srcRewind s).faultValue = s.faultValue := rfl
@[simp] theorem srcRewind_faultPhase (s : State) : (srcRewind s).faultPhase = s.faultPhase := rfl
@[simp] theorem srcRewind_src (s : State) : (srcRewind s).src = { s.src with pos := 0 } := rfl
@[simp] theorem srcRewind_snk (s : State) : (srcRewind s).snk = s.snk := rfl
@[simp] theorem srcRewind_trace (s : State) : (srcRewind s).trace = s.trace ++ [.srcRewind] := rfl

@[simp] theorem snkAppend_rst (x : Bits) (t : Transaction) (s : State) : (snkAppend x t s).rst = s.rst := rfl
@[simp] theorem snkAppend_cmdPort (x : Bits) (t : Transaction) (s : State) : (snkAppend x t s).cmdPort = s.cmdPort := rfl
@[simp] theorem snkAppend_phase (x : Bits) (t : Transaction) (s : State) : (snkAppend x t s).phase = s.phase := rfl
@[simp] theorem snkAppend_cmd (x : Bits) (t : Transaction) (s : State) : (snkAppend x t s).cmd = s.cmd := rfl
@[simp] theorem snkAppend_tree (x : Bits) (t : Transaction) (s : State) : (snkAppend x t s).tree = s.tree := rfl
@[simp] theorem snkAppend_treeValid (x : Bits) (t : Transaction) (s : State) : (snkAppend x t s).treeValid = s.treeValid := rfl
@[simp] theorem snkAppend_treeOrigin (x : Bits) (t : Transaction) (s : State) : (snkAppend x t s).treeOrigin = s.treeOrigin := rfl
@[simp] theorem snkAppend_count (x : Bits) (t : Transaction) (s : State) : (snkAppend x t s).count = s.count := rfl
@[simp] theorem snkAppend_countValid (x : Bits) (t : Transaction) (s : State) : (snkAppend x t s).countValid = s.countValid := rfl
@[simp] theorem snkAppend_pq (x : Bits) (t : Transaction) (s : State) : (snkAppend x t s).pq = s.pq := rfl
@[simp] theorem snkAppend_seq (x : Bits) (t : Transaction) (s : State) : (snkAppend x t s).seq = s.seq := rfl
@[simp] theorem snkAppend_hsStack (x : Bits) (t : Transaction) (s : State) : (snkAppend x t s).hsStack = s.hsStack := rfl
@[simp] theorem snkAppend_hdStack (x : Bits) (t : Transaction) (s : State) : (snkAppend x t s).hdStack = s.hdStack := rfl
@[simp] theorem snkAppend_leafCnt (x : Bits) (t : Transaction) (s : State) : (snkAppend x t s).leafCnt = s.leafCnt := rfl
@[simp] theorem snkAppend_need (x : Bits) (t : Transaction) (s : State) : (snkAppend x t s).need = s.need := rfl
@[simp] theorem snkAppend_code (x : Bits) (t : Transaction) (s : State) : (snkAppend x t s).code = s.code := rfl
@[simp] theorem snkAppend_tableValid (x : Bits) (t : Transaction) (s : State) : (snkAppend x t s).tableValid = s.tableValid := rfl
@[simp] theorem snkAppend_encStack (x : Bits) (t : Transaction) (s : State) : (snkAppend x t s).encStack = s.encStack := rfl
@[simp] theorem snkAppend_cur (x : Bits) (t : Transaction) (s : State) : (snkAppend x t s).cur = s.cur := rfl
@[simp] theorem snkAppend_faultCode (x : Bits) (t : Transaction) (s : State) : (snkAppend x t s).faultCode = s.faultCode := rfl
@[simp] theorem snkAppend_faultSub (x : Bits) (t : Transaction) (s : State) : (snkAppend x t s).faultSub = s.faultSub := rfl
@[simp] theorem snkAppend_faultValue (x : Bits) (t : Transaction) (s : State) : (snkAppend x t s).faultValue = s.faultValue := rfl
@[simp] theorem snkAppend_faultPhase (x : Bits) (t : Transaction) (s : State) : (snkAppend x t s).faultPhase = s.faultPhase := rfl
@[simp] theorem snkAppend_src (x : Bits) (t : Transaction) (s : State) : (snkAppend x t s).src = s.src := rfl
@[simp] theorem snkAppend_snk (x : Bits) (t : Transaction) (s : State) : (snkAppend x t s).snk = { s.snk with bits := s.snk.bits ++ x } := rfl
@[simp] theorem snkAppend_trace (x : Bits) (t : Transaction) (s : State) : (snkAppend x t s).trace = s.trace ++ [t] := rfl

@[simp] theorem snkPadded_rst (s : State) : (snkPadded s).rst = s.rst := rfl
@[simp] theorem snkPadded_cmdPort (s : State) : (snkPadded s).cmdPort = s.cmdPort := rfl
@[simp] theorem snkPadded_phase (s : State) : (snkPadded s).phase = s.phase := rfl
@[simp] theorem snkPadded_cmd (s : State) : (snkPadded s).cmd = s.cmd := rfl
@[simp] theorem snkPadded_tree (s : State) : (snkPadded s).tree = s.tree := rfl
@[simp] theorem snkPadded_treeValid (s : State) : (snkPadded s).treeValid = s.treeValid := rfl
@[simp] theorem snkPadded_treeOrigin (s : State) : (snkPadded s).treeOrigin = s.treeOrigin := rfl
@[simp] theorem snkPadded_count (s : State) : (snkPadded s).count = s.count := rfl
@[simp] theorem snkPadded_countValid (s : State) : (snkPadded s).countValid = s.countValid := rfl
@[simp] theorem snkPadded_pq (s : State) : (snkPadded s).pq = s.pq := rfl
@[simp] theorem snkPadded_seq (s : State) : (snkPadded s).seq = s.seq := rfl
@[simp] theorem snkPadded_hsStack (s : State) : (snkPadded s).hsStack = s.hsStack := rfl
@[simp] theorem snkPadded_hdStack (s : State) : (snkPadded s).hdStack = s.hdStack := rfl
@[simp] theorem snkPadded_leafCnt (s : State) : (snkPadded s).leafCnt = s.leafCnt := rfl
@[simp] theorem snkPadded_need (s : State) : (snkPadded s).need = s.need := rfl
@[simp] theorem snkPadded_code (s : State) : (snkPadded s).code = s.code := rfl
@[simp] theorem snkPadded_tableValid (s : State) : (snkPadded s).tableValid = s.tableValid := rfl
@[simp] theorem snkPadded_encStack (s : State) : (snkPadded s).encStack = s.encStack := rfl
@[simp] theorem snkPadded_cur (s : State) : (snkPadded s).cur = s.cur := rfl
@[simp] theorem snkPadded_faultCode (s : State) : (snkPadded s).faultCode = s.faultCode := rfl
@[simp] theorem snkPadded_faultSub (s : State) : (snkPadded s).faultSub = s.faultSub := rfl
@[simp] theorem snkPadded_faultValue (s : State) : (snkPadded s).faultValue = s.faultValue := rfl
@[simp] theorem snkPadded_faultPhase (s : State) : (snkPadded s).faultPhase = s.faultPhase := rfl
@[simp] theorem snkPadded_src (s : State) : (snkPadded s).src = s.src := rfl
@[simp] theorem snkPadded_snk (s : State) : (snkPadded s).snk = ⟨s.snk.bits ++ List.replicate (padLen s.snk.bits.length) false, true⟩ := rfl
@[simp] theorem snkPadded_trace (s : State) : (snkPadded s).trace = s.trace ++ [.snkClose] := rfl

@[simp] theorem raise_rst (k : FaultCode) (sub : FaultSub) (v : Word32) (s : State) : (raise k sub v s).rst = s.rst := rfl
@[simp] theorem raise_cmdPort (k : FaultCode) (sub : FaultSub) (v : Word32) (s : State) : (raise k sub v s).cmdPort = s.cmdPort := rfl
@[simp] theorem raise_phase (k : FaultCode) (sub : FaultSub) (v : Word32) (s : State) : (raise k sub v s).phase = .fault := rfl
@[simp] theorem raise_cmd (k : FaultCode) (sub : FaultSub) (v : Word32) (s : State) : (raise k sub v s).cmd = s.cmd := rfl
@[simp] theorem raise_tree (k : FaultCode) (sub : FaultSub) (v : Word32) (s : State) : (raise k sub v s).tree = s.tree := rfl
@[simp] theorem raise_treeValid (k : FaultCode) (sub : FaultSub) (v : Word32) (s : State) : (raise k sub v s).treeValid = s.treeValid := rfl
@[simp] theorem raise_treeOrigin (k : FaultCode) (sub : FaultSub) (v : Word32) (s : State) : (raise k sub v s).treeOrigin = s.treeOrigin := rfl
@[simp] theorem raise_count (k : FaultCode) (sub : FaultSub) (v : Word32) (s : State) : (raise k sub v s).count = s.count := rfl
@[simp] theorem raise_countValid (k : FaultCode) (sub : FaultSub) (v : Word32) (s : State) : (raise k sub v s).countValid = s.countValid := rfl
@[simp] theorem raise_pq (k : FaultCode) (sub : FaultSub) (v : Word32) (s : State) : (raise k sub v s).pq = s.pq := rfl
@[simp] theorem raise_seq (k : FaultCode) (sub : FaultSub) (v : Word32) (s : State) : (raise k sub v s).seq = s.seq := rfl
@[simp] theorem raise_hsStack (k : FaultCode) (sub : FaultSub) (v : Word32) (s : State) : (raise k sub v s).hsStack = s.hsStack := rfl
@[simp] theorem raise_hdStack (k : FaultCode) (sub : FaultSub) (v : Word32) (s : State) : (raise k sub v s).hdStack = s.hdStack := rfl
@[simp] theorem raise_leafCnt (k : FaultCode) (sub : FaultSub) (v : Word32) (s : State) : (raise k sub v s).leafCnt = s.leafCnt := rfl
@[simp] theorem raise_need (k : FaultCode) (sub : FaultSub) (v : Word32) (s : State) : (raise k sub v s).need = s.need := rfl
@[simp] theorem raise_code (k : FaultCode) (sub : FaultSub) (v : Word32) (s : State) : (raise k sub v s).code = s.code := rfl
@[simp] theorem raise_tableValid (k : FaultCode) (sub : FaultSub) (v : Word32) (s : State) : (raise k sub v s).tableValid = s.tableValid := rfl
@[simp] theorem raise_encStack (k : FaultCode) (sub : FaultSub) (v : Word32) (s : State) : (raise k sub v s).encStack = s.encStack := rfl
@[simp] theorem raise_cur (k : FaultCode) (sub : FaultSub) (v : Word32) (s : State) : (raise k sub v s).cur = s.cur := rfl
@[simp] theorem raise_faultCode (k : FaultCode) (sub : FaultSub) (v : Word32) (s : State) : (raise k sub v s).faultCode = k := rfl
@[simp] theorem raise_faultSub (k : FaultCode) (sub : FaultSub) (v : Word32) (s : State) : (raise k sub v s).faultSub = sub := rfl
@[simp] theorem raise_faultValue (k : FaultCode) (sub : FaultSub) (v : Word32) (s : State) : (raise k sub v s).faultValue = v := rfl
@[simp] theorem raise_faultPhase (k : FaultCode) (sub : FaultSub) (v : Word32) (s : State) : (raise k sub v s).faultPhase = s.phase := rfl
@[simp] theorem raise_src (k : FaultCode) (sub : FaultSub) (v : Word32) (s : State) : (raise k sub v s).src = s.src := rfl
@[simp] theorem raise_snk (k : FaultCode) (sub : FaultSub) (v : Word32) (s : State) : (raise k sub v s).snk = s.snk := rfl
@[simp] theorem raise_trace (k : FaultCode) (sub : FaultSub) (v : Word32) (s : State) : (raise k sub v s).trace = s.trace := rfl

@[simp] theorem resetCore_rst (s : State) : (resetCore s).rst = false := rfl
@[simp] theorem resetCore_cmdPort (s : State) : (resetCore s).cmdPort = none := rfl
@[simp] theorem resetCore_phase (s : State) : (resetCore s).phase = .idle := rfl
@[simp] theorem resetCore_cmd (s : State) : (resetCore s).cmd = .nop := rfl
@[simp] theorem resetCore_tree (s : State) : (resetCore s).tree = none := rfl
@[simp] theorem resetCore_treeValid (s : State) : (resetCore s).treeValid = false := rfl
@[simp] theorem resetCore_treeOrigin (s : State) : (resetCore s).treeOrigin = .built := rfl
@[simp] theorem resetCore_count (s : State) : (resetCore s).count = Vector.replicate 257 0 := rfl
@[simp] theorem resetCore_countValid (s : State) : (resetCore s).countValid = false := rfl
@[simp] theorem resetCore_pq (s : State) : (resetCore s).pq = [] := rfl
@[simp] theorem resetCore_seq (s : State) : (resetCore s).seq = 0 := rfl
@[simp] theorem resetCore_hsStack (s : State) : (resetCore s).hsStack = [] := rfl
@[simp] theorem resetCore_hdStack (s : State) : (resetCore s).hdStack = [] := rfl
@[simp] theorem resetCore_leafCnt (s : State) : (resetCore s).leafCnt = 0 := rfl
@[simp] theorem resetCore_need (s : State) : (resetCore s).need = 1 := rfl
@[simp] theorem resetCore_code (s : State) : (resetCore s).code = Vector.replicate 257 none := rfl
@[simp] theorem resetCore_tableValid (s : State) : (resetCore s).tableValid = false := rfl
@[simp] theorem resetCore_encStack (s : State) : (resetCore s).encStack = [] := rfl
@[simp] theorem resetCore_cur (s : State) : (resetCore s).cur = none := rfl
@[simp] theorem resetCore_faultCode (s : State) : (resetCore s).faultCode = .none := rfl
@[simp] theorem resetCore_faultSub (s : State) : (resetCore s).faultSub = .none := rfl
@[simp] theorem resetCore_faultValue (s : State) : (resetCore s).faultValue = 0 := rfl
@[simp] theorem resetCore_faultPhase (s : State) : (resetCore s).faultPhase = .idle := rfl
@[simp] theorem resetCore_src (s : State) : (resetCore s).src = s.src := rfl
@[simp] theorem resetCore_snk (s : State) : (resetCore s).snk = s.snk := rfl
@[simp] theorem resetCore_trace (s : State) : (resetCore s).trace = s.trace := rfl

@[simp] theorem writeTree_rst (t : Tree) (o : Origin) (s : State) : (writeTree t o s).rst = s.rst := rfl
@[simp] theorem writeTree_cmdPort (t : Tree) (o : Origin) (s : State) : (writeTree t o s).cmdPort = s.cmdPort := rfl
@[simp] theorem writeTree_phase (t : Tree) (o : Origin) (s : State) : (writeTree t o s).phase = s.phase := rfl
@[simp] theorem writeTree_cmd (t : Tree) (o : Origin) (s : State) : (writeTree t o s).cmd = s.cmd := rfl
@[simp] theorem writeTree_tree (t : Tree) (o : Origin) (s : State) : (writeTree t o s).tree = some t := rfl
@[simp] theorem writeTree_treeValid (t : Tree) (o : Origin) (s : State) : (writeTree t o s).treeValid = true := rfl
@[simp] theorem writeTree_treeOrigin (t : Tree) (o : Origin) (s : State) : (writeTree t o s).treeOrigin = o := rfl
@[simp] theorem writeTree_count (t : Tree) (o : Origin) (s : State) : (writeTree t o s).count = s.count := rfl
@[simp] theorem writeTree_countValid (t : Tree) (o : Origin) (s : State) : (writeTree t o s).countValid = s.countValid := rfl
@[simp] theorem writeTree_pq (t : Tree) (o : Origin) (s : State) : (writeTree t o s).pq = s.pq := rfl
@[simp] theorem writeTree_seq (t : Tree) (o : Origin) (s : State) : (writeTree t o s).seq = s.seq := rfl
@[simp] theorem writeTree_hsStack (t : Tree) (o : Origin) (s : State) : (writeTree t o s).hsStack = s.hsStack := rfl
@[simp] theorem writeTree_hdStack (t : Tree) (o : Origin) (s : State) : (writeTree t o s).hdStack = s.hdStack := rfl
@[simp] theorem writeTree_leafCnt (t : Tree) (o : Origin) (s : State) : (writeTree t o s).leafCnt = s.leafCnt := rfl
@[simp] theorem writeTree_need (t : Tree) (o : Origin) (s : State) : (writeTree t o s).need = s.need := rfl
@[simp] theorem writeTree_code (t : Tree) (o : Origin) (s : State) : (writeTree t o s).code = s.code := rfl
@[simp] theorem writeTree_tableValid (t : Tree) (o : Origin) (s : State) : (writeTree t o s).tableValid = s.tableValid := rfl
@[simp] theorem writeTree_encStack (t : Tree) (o : Origin) (s : State) : (writeTree t o s).encStack = s.encStack := rfl
@[simp] theorem writeTree_cur (t : Tree) (o : Origin) (s : State) : (writeTree t o s).cur = s.cur := rfl
@[simp] theorem writeTree_faultCode (t : Tree) (o : Origin) (s : State) : (writeTree t o s).faultCode = s.faultCode := rfl
@[simp] theorem writeTree_faultSub (t : Tree) (o : Origin) (s : State) : (writeTree t o s).faultSub = s.faultSub := rfl
@[simp] theorem writeTree_faultValue (t : Tree) (o : Origin) (s : State) : (writeTree t o s).faultValue = s.faultValue := rfl
@[simp] theorem writeTree_faultPhase (t : Tree) (o : Origin) (s : State) : (writeTree t o s).faultPhase = s.faultPhase := rfl
@[simp] theorem writeTree_src (t : Tree) (o : Origin) (s : State) : (writeTree t o s).src = s.src := rfl
@[simp] theorem writeTree_snk (t : Tree) (o : Origin) (s : State) : (writeTree t o s).snk = s.snk := rfl
@[simp] theorem writeTree_trace (t : Tree) (o : Origin) (s : State) : (writeTree t o s).trace = s.trace := rfl

@[simp] theorem writeCount_rst (v w : Nat) (s : State) : (writeCount v w s).rst = s.rst := rfl
@[simp] theorem writeCount_cmdPort (v w : Nat) (s : State) : (writeCount v w s).cmdPort = s.cmdPort := rfl
@[simp] theorem writeCount_phase (v w : Nat) (s : State) : (writeCount v w s).phase = s.phase := rfl
@[simp] theorem writeCount_cmd (v w : Nat) (s : State) : (writeCount v w s).cmd = s.cmd := rfl
@[simp] theorem writeCount_tree (v w : Nat) (s : State) : (writeCount v w s).tree = s.tree := rfl
@[simp] theorem writeCount_treeValid (v w : Nat) (s : State) : (writeCount v w s).treeValid = s.treeValid := rfl
@[simp] theorem writeCount_treeOrigin (v w : Nat) (s : State) : (writeCount v w s).treeOrigin = s.treeOrigin := rfl
@[simp] theorem writeCount_count (v w : Nat) (s : State) : (writeCount v w s).count = s.count.put v w := rfl
@[simp] theorem writeCount_countValid (v w : Nat) (s : State) : (writeCount v w s).countValid = s.countValid := rfl
@[simp] theorem writeCount_pq (v w : Nat) (s : State) : (writeCount v w s).pq = s.pq := rfl
@[simp] theorem writeCount_seq (v w : Nat) (s : State) : (writeCount v w s).seq = s.seq := rfl
@[simp] theorem writeCount_hsStack (v w : Nat) (s : State) : (writeCount v w s).hsStack = s.hsStack := rfl
@[simp] theorem writeCount_hdStack (v w : Nat) (s : State) : (writeCount v w s).hdStack = s.hdStack := rfl
@[simp] theorem writeCount_leafCnt (v w : Nat) (s : State) : (writeCount v w s).leafCnt = s.leafCnt := rfl
@[simp] theorem writeCount_need (v w : Nat) (s : State) : (writeCount v w s).need = s.need := rfl
@[simp] theorem writeCount_code (v w : Nat) (s : State) : (writeCount v w s).code = s.code := rfl
@[simp] theorem writeCount_tableValid (v w : Nat) (s : State) : (writeCount v w s).tableValid = s.tableValid := rfl
@[simp] theorem writeCount_encStack (v w : Nat) (s : State) : (writeCount v w s).encStack = s.encStack := rfl
@[simp] theorem writeCount_cur (v w : Nat) (s : State) : (writeCount v w s).cur = s.cur := rfl
@[simp] theorem writeCount_faultCode (v w : Nat) (s : State) : (writeCount v w s).faultCode = s.faultCode := rfl
@[simp] theorem writeCount_faultSub (v w : Nat) (s : State) : (writeCount v w s).faultSub = s.faultSub := rfl
@[simp] theorem writeCount_faultValue (v w : Nat) (s : State) : (writeCount v w s).faultValue = s.faultValue := rfl
@[simp] theorem writeCount_faultPhase (v w : Nat) (s : State) : (writeCount v w s).faultPhase = s.faultPhase := rfl
@[simp] theorem writeCount_src (v w : Nat) (s : State) : (writeCount v w s).src = s.src := rfl
@[simp] theorem writeCount_snk (v w : Nat) (s : State) : (writeCount v w s).snk = s.snk := rfl
@[simp] theorem writeCount_trace (v w : Nat) (s : State) : (writeCount v w s).trace = s.trace := rfl

@[simp] theorem writeCode_rst (y : Sym) (p : Bits) (s : State) : (writeCode y p s).rst = s.rst := rfl
@[simp] theorem writeCode_cmdPort (y : Sym) (p : Bits) (s : State) : (writeCode y p s).cmdPort = s.cmdPort := rfl
@[simp] theorem writeCode_phase (y : Sym) (p : Bits) (s : State) : (writeCode y p s).phase = s.phase := rfl
@[simp] theorem writeCode_cmd (y : Sym) (p : Bits) (s : State) : (writeCode y p s).cmd = s.cmd := rfl
@[simp] theorem writeCode_tree (y : Sym) (p : Bits) (s : State) : (writeCode y p s).tree = s.tree := rfl
@[simp] theorem writeCode_treeValid (y : Sym) (p : Bits) (s : State) : (writeCode y p s).treeValid = s.treeValid := rfl
@[simp] theorem writeCode_treeOrigin (y : Sym) (p : Bits) (s : State) : (writeCode y p s).treeOrigin = s.treeOrigin := rfl
@[simp] theorem writeCode_count (y : Sym) (p : Bits) (s : State) : (writeCode y p s).count = s.count := rfl
@[simp] theorem writeCode_countValid (y : Sym) (p : Bits) (s : State) : (writeCode y p s).countValid = s.countValid := rfl
@[simp] theorem writeCode_pq (y : Sym) (p : Bits) (s : State) : (writeCode y p s).pq = s.pq := rfl
@[simp] theorem writeCode_seq (y : Sym) (p : Bits) (s : State) : (writeCode y p s).seq = s.seq := rfl
@[simp] theorem writeCode_hsStack (y : Sym) (p : Bits) (s : State) : (writeCode y p s).hsStack = s.hsStack := rfl
@[simp] theorem writeCode_hdStack (y : Sym) (p : Bits) (s : State) : (writeCode y p s).hdStack = s.hdStack := rfl
@[simp] theorem writeCode_leafCnt (y : Sym) (p : Bits) (s : State) : (writeCode y p s).leafCnt = s.leafCnt := rfl
@[simp] theorem writeCode_need (y : Sym) (p : Bits) (s : State) : (writeCode y p s).need = s.need := rfl
@[simp] theorem writeCode_code (y : Sym) (p : Bits) (s : State) : (writeCode y p s).code = s.code.put y.toNat p := rfl
@[simp] theorem writeCode_tableValid (y : Sym) (p : Bits) (s : State) : (writeCode y p s).tableValid = s.tableValid := rfl
@[simp] theorem writeCode_encStack (y : Sym) (p : Bits) (s : State) : (writeCode y p s).encStack = s.encStack := rfl
@[simp] theorem writeCode_cur (y : Sym) (p : Bits) (s : State) : (writeCode y p s).cur = s.cur := rfl
@[simp] theorem writeCode_faultCode (y : Sym) (p : Bits) (s : State) : (writeCode y p s).faultCode = s.faultCode := rfl
@[simp] theorem writeCode_faultSub (y : Sym) (p : Bits) (s : State) : (writeCode y p s).faultSub = s.faultSub := rfl
@[simp] theorem writeCode_faultValue (y : Sym) (p : Bits) (s : State) : (writeCode y p s).faultValue = s.faultValue := rfl
@[simp] theorem writeCode_faultPhase (y : Sym) (p : Bits) (s : State) : (writeCode y p s).faultPhase = s.faultPhase := rfl
@[simp] theorem writeCode_src (y : Sym) (p : Bits) (s : State) : (writeCode y p s).src = s.src := rfl
@[simp] theorem writeCode_snk (y : Sym) (p : Bits) (s : State) : (writeCode y p s).snk = s.snk := rfl
@[simp] theorem writeCode_trace (y : Sym) (p : Bits) (s : State) : (writeCode y p s).trace = s.trace := rfl

@[simp] theorem setCur_rst (t : Tree) (s : State) : (setCur t s).rst = s.rst := rfl
@[simp] theorem setCur_cmdPort (t : Tree) (s : State) : (setCur t s).cmdPort = s.cmdPort := rfl
@[simp] theorem setCur_phase (t : Tree) (s : State) : (setCur t s).phase = s.phase := rfl
@[simp] theorem setCur_cmd (t : Tree) (s : State) : (setCur t s).cmd = s.cmd := rfl
@[simp] theorem setCur_tree (t : Tree) (s : State) : (setCur t s).tree = s.tree := rfl
@[simp] theorem setCur_treeValid (t : Tree) (s : State) : (setCur t s).treeValid = s.treeValid := rfl
@[simp] theorem setCur_treeOrigin (t : Tree) (s : State) : (setCur t s).treeOrigin = s.treeOrigin := rfl
@[simp] theorem setCur_count (t : Tree) (s : State) : (setCur t s).count = s.count := rfl
@[simp] theorem setCur_countValid (t : Tree) (s : State) : (setCur t s).countValid = s.countValid := rfl
@[simp] theorem setCur_pq (t : Tree) (s : State) : (setCur t s).pq = s.pq := rfl
@[simp] theorem setCur_seq (t : Tree) (s : State) : (setCur t s).seq = s.seq := rfl
@[simp] theorem setCur_hsStack (t : Tree) (s : State) : (setCur t s).hsStack = s.hsStack := rfl
@[simp] theorem setCur_hdStack (t : Tree) (s : State) : (setCur t s).hdStack = s.hdStack := rfl
@[simp] theorem setCur_leafCnt (t : Tree) (s : State) : (setCur t s).leafCnt = s.leafCnt := rfl
@[simp] theorem setCur_need (t : Tree) (s : State) : (setCur t s).need = s.need := rfl
@[simp] theorem setCur_code (t : Tree) (s : State) : (setCur t s).code = s.code := rfl
@[simp] theorem setCur_tableValid (t : Tree) (s : State) : (setCur t s).tableValid = s.tableValid := rfl
@[simp] theorem setCur_encStack (t : Tree) (s : State) : (setCur t s).encStack = s.encStack := rfl
@[simp] theorem setCur_cur (t : Tree) (s : State) : (setCur t s).cur = some t := rfl
@[simp] theorem setCur_faultCode (t : Tree) (s : State) : (setCur t s).faultCode = s.faultCode := rfl
@[simp] theorem setCur_faultSub (t : Tree) (s : State) : (setCur t s).faultSub = s.faultSub := rfl
@[simp] theorem setCur_faultValue (t : Tree) (s : State) : (setCur t s).faultValue = s.faultValue := rfl
@[simp] theorem setCur_faultPhase (t : Tree) (s : State) : (setCur t s).faultPhase = s.faultPhase := rfl
@[simp] theorem setCur_src (t : Tree) (s : State) : (setCur t s).src = s.src := rfl
@[simp] theorem setCur_snk (t : Tree) (s : State) : (setCur t s).snk = s.snk := rfl
@[simp] theorem setCur_trace (t : Tree) (s : State) : (setCur t s).trace = s.trace := rfl

@[simp] theorem setHsStack_rst (ts : List Tree) (s : State) : (setHsStack ts s).rst = s.rst := rfl
@[simp] theorem setHsStack_cmdPort (ts : List Tree) (s : State) : (setHsStack ts s).cmdPort = s.cmdPort := rfl
@[simp] theorem setHsStack_phase (ts : List Tree) (s : State) : (setHsStack ts s).phase = s.phase := rfl
@[simp] theorem setHsStack_cmd (ts : List Tree) (s : State) : (setHsStack ts s).cmd = s.cmd := rfl
@[simp] theorem setHsStack_tree (ts : List Tree) (s : State) : (setHsStack ts s).tree = s.tree := rfl
@[simp] theorem setHsStack_treeValid (ts : List Tree) (s : State) : (setHsStack ts s).treeValid = s.treeValid := rfl
@[simp] theorem setHsStack_treeOrigin (ts : List Tree) (s : State) : (setHsStack ts s).treeOrigin = s.treeOrigin := rfl
@[simp] theorem setHsStack_count (ts : List Tree) (s : State) : (setHsStack ts s).count = s.count := rfl
@[simp] theorem setHsStack_countValid (ts : List Tree) (s : State) : (setHsStack ts s).countValid = s.countValid := rfl
@[simp] theorem setHsStack_pq (ts : List Tree) (s : State) : (setHsStack ts s).pq = s.pq := rfl
@[simp] theorem setHsStack_seq (ts : List Tree) (s : State) : (setHsStack ts s).seq = s.seq := rfl
@[simp] theorem setHsStack_hsStack (ts : List Tree) (s : State) : (setHsStack ts s).hsStack = ts := rfl
@[simp] theorem setHsStack_hdStack (ts : List Tree) (s : State) : (setHsStack ts s).hdStack = s.hdStack := rfl
@[simp] theorem setHsStack_leafCnt (ts : List Tree) (s : State) : (setHsStack ts s).leafCnt = s.leafCnt := rfl
@[simp] theorem setHsStack_need (ts : List Tree) (s : State) : (setHsStack ts s).need = s.need := rfl
@[simp] theorem setHsStack_code (ts : List Tree) (s : State) : (setHsStack ts s).code = s.code := rfl
@[simp] theorem setHsStack_tableValid (ts : List Tree) (s : State) : (setHsStack ts s).tableValid = s.tableValid := rfl
@[simp] theorem setHsStack_encStack (ts : List Tree) (s : State) : (setHsStack ts s).encStack = s.encStack := rfl
@[simp] theorem setHsStack_cur (ts : List Tree) (s : State) : (setHsStack ts s).cur = s.cur := rfl
@[simp] theorem setHsStack_faultCode (ts : List Tree) (s : State) : (setHsStack ts s).faultCode = s.faultCode := rfl
@[simp] theorem setHsStack_faultSub (ts : List Tree) (s : State) : (setHsStack ts s).faultSub = s.faultSub := rfl
@[simp] theorem setHsStack_faultValue (ts : List Tree) (s : State) : (setHsStack ts s).faultValue = s.faultValue := rfl
@[simp] theorem setHsStack_faultPhase (ts : List Tree) (s : State) : (setHsStack ts s).faultPhase = s.faultPhase := rfl
@[simp] theorem setHsStack_src (ts : List Tree) (s : State) : (setHsStack ts s).src = s.src := rfl
@[simp] theorem setHsStack_snk (ts : List Tree) (s : State) : (setHsStack ts s).snk = s.snk := rfl
@[simp] theorem setHsStack_trace (ts : List Tree) (s : State) : (setHsStack ts s).trace = s.trace := rfl

@[simp] theorem setHdStack_rst (fs : List HdFrame) (s : State) : (setHdStack fs s).rst = s.rst := rfl
@[simp] theorem setHdStack_cmdPort (fs : List HdFrame) (s : State) : (setHdStack fs s).cmdPort = s.cmdPort := rfl
@[simp] theorem setHdStack_phase (fs : List HdFrame) (s : State) : (setHdStack fs s).phase = s.phase := rfl
@[simp] theorem setHdStack_cmd (fs : List HdFrame) (s : State) : (setHdStack fs s).cmd = s.cmd := rfl
@[simp] theorem setHdStack_tree (fs : List HdFrame) (s : State) : (setHdStack fs s).tree = s.tree := rfl
@[simp] theorem setHdStack_treeValid (fs : List HdFrame) (s : State) : (setHdStack fs s).treeValid = s.treeValid := rfl
@[simp] theorem setHdStack_treeOrigin (fs : List HdFrame) (s : State) : (setHdStack fs s).treeOrigin = s.treeOrigin := rfl
@[simp] theorem setHdStack_count (fs : List HdFrame) (s : State) : (setHdStack fs s).count = s.count := rfl
@[simp] theorem setHdStack_countValid (fs : List HdFrame) (s : State) : (setHdStack fs s).countValid = s.countValid := rfl
@[simp] theorem setHdStack_pq (fs : List HdFrame) (s : State) : (setHdStack fs s).pq = s.pq := rfl
@[simp] theorem setHdStack_seq (fs : List HdFrame) (s : State) : (setHdStack fs s).seq = s.seq := rfl
@[simp] theorem setHdStack_hsStack (fs : List HdFrame) (s : State) : (setHdStack fs s).hsStack = s.hsStack := rfl
@[simp] theorem setHdStack_hdStack (fs : List HdFrame) (s : State) : (setHdStack fs s).hdStack = fs := rfl
@[simp] theorem setHdStack_leafCnt (fs : List HdFrame) (s : State) : (setHdStack fs s).leafCnt = s.leafCnt := rfl
@[simp] theorem setHdStack_need (fs : List HdFrame) (s : State) : (setHdStack fs s).need = s.need := rfl
@[simp] theorem setHdStack_code (fs : List HdFrame) (s : State) : (setHdStack fs s).code = s.code := rfl
@[simp] theorem setHdStack_tableValid (fs : List HdFrame) (s : State) : (setHdStack fs s).tableValid = s.tableValid := rfl
@[simp] theorem setHdStack_encStack (fs : List HdFrame) (s : State) : (setHdStack fs s).encStack = s.encStack := rfl
@[simp] theorem setHdStack_cur (fs : List HdFrame) (s : State) : (setHdStack fs s).cur = s.cur := rfl
@[simp] theorem setHdStack_faultCode (fs : List HdFrame) (s : State) : (setHdStack fs s).faultCode = s.faultCode := rfl
@[simp] theorem setHdStack_faultSub (fs : List HdFrame) (s : State) : (setHdStack fs s).faultSub = s.faultSub := rfl
@[simp] theorem setHdStack_faultValue (fs : List HdFrame) (s : State) : (setHdStack fs s).faultValue = s.faultValue := rfl
@[simp] theorem setHdStack_faultPhase (fs : List HdFrame) (s : State) : (setHdStack fs s).faultPhase = s.faultPhase := rfl
@[simp] theorem setHdStack_src (fs : List HdFrame) (s : State) : (setHdStack fs s).src = s.src := rfl
@[simp] theorem setHdStack_snk (fs : List HdFrame) (s : State) : (setHdStack fs s).snk = s.snk := rfl
@[simp] theorem setHdStack_trace (fs : List HdFrame) (s : State) : (setHdStack fs s).trace = s.trace := rfl

@[simp] theorem setHdCounts_rst (k n : Nat) (s : State) : (setHdCounts k n s).rst = s.rst := rfl
@[simp] theorem setHdCounts_cmdPort (k n : Nat) (s : State) : (setHdCounts k n s).cmdPort = s.cmdPort := rfl
@[simp] theorem setHdCounts_phase (k n : Nat) (s : State) : (setHdCounts k n s).phase = s.phase := rfl
@[simp] theorem setHdCounts_cmd (k n : Nat) (s : State) : (setHdCounts k n s).cmd = s.cmd := rfl
@[simp] theorem setHdCounts_tree (k n : Nat) (s : State) : (setHdCounts k n s).tree = s.tree := rfl
@[simp] theorem setHdCounts_treeValid (k n : Nat) (s : State) : (setHdCounts k n s).treeValid = s.treeValid := rfl
@[simp] theorem setHdCounts_treeOrigin (k n : Nat) (s : State) : (setHdCounts k n s).treeOrigin = s.treeOrigin := rfl
@[simp] theorem setHdCounts_count (k n : Nat) (s : State) : (setHdCounts k n s).count = s.count := rfl
@[simp] theorem setHdCounts_countValid (k n : Nat) (s : State) : (setHdCounts k n s).countValid = s.countValid := rfl
@[simp] theorem setHdCounts_pq (k n : Nat) (s : State) : (setHdCounts k n s).pq = s.pq := rfl
@[simp] theorem setHdCounts_seq (k n : Nat) (s : State) : (setHdCounts k n s).seq = s.seq := rfl
@[simp] theorem setHdCounts_hsStack (k n : Nat) (s : State) : (setHdCounts k n s).hsStack = s.hsStack := rfl
@[simp] theorem setHdCounts_hdStack (k n : Nat) (s : State) : (setHdCounts k n s).hdStack = s.hdStack := rfl
@[simp] theorem setHdCounts_leafCnt (k n : Nat) (s : State) : (setHdCounts k n s).leafCnt = k := rfl
@[simp] theorem setHdCounts_need (k n : Nat) (s : State) : (setHdCounts k n s).need = n := rfl
@[simp] theorem setHdCounts_code (k n : Nat) (s : State) : (setHdCounts k n s).code = s.code := rfl
@[simp] theorem setHdCounts_tableValid (k n : Nat) (s : State) : (setHdCounts k n s).tableValid = s.tableValid := rfl
@[simp] theorem setHdCounts_encStack (k n : Nat) (s : State) : (setHdCounts k n s).encStack = s.encStack := rfl
@[simp] theorem setHdCounts_cur (k n : Nat) (s : State) : (setHdCounts k n s).cur = s.cur := rfl
@[simp] theorem setHdCounts_faultCode (k n : Nat) (s : State) : (setHdCounts k n s).faultCode = s.faultCode := rfl
@[simp] theorem setHdCounts_faultSub (k n : Nat) (s : State) : (setHdCounts k n s).faultSub = s.faultSub := rfl
@[simp] theorem setHdCounts_faultValue (k n : Nat) (s : State) : (setHdCounts k n s).faultValue = s.faultValue := rfl
@[simp] theorem setHdCounts_faultPhase (k n : Nat) (s : State) : (setHdCounts k n s).faultPhase = s.faultPhase := rfl
@[simp] theorem setHdCounts_src (k n : Nat) (s : State) : (setHdCounts k n s).src = s.src := rfl
@[simp] theorem setHdCounts_snk (k n : Nat) (s : State) : (setHdCounts k n s).snk = s.snk := rfl
@[simp] theorem setHdCounts_trace (k n : Nat) (s : State) : (setHdCounts k n s).trace = s.trace := rfl

@[simp] theorem setQueue_rst (pq : List PqEntry) (q : Nat) (s : State) : (setQueue pq q s).rst = s.rst := rfl
@[simp] theorem setQueue_cmdPort (pq : List PqEntry) (q : Nat) (s : State) : (setQueue pq q s).cmdPort = s.cmdPort := rfl
@[simp] theorem setQueue_phase (pq : List PqEntry) (q : Nat) (s : State) : (setQueue pq q s).phase = s.phase := rfl
@[simp] theorem setQueue_cmd (pq : List PqEntry) (q : Nat) (s : State) : (setQueue pq q s).cmd = s.cmd := rfl
@[simp] theorem setQueue_tree (pq : List PqEntry) (q : Nat) (s : State) : (setQueue pq q s).tree = s.tree := rfl
@[simp] theorem setQueue_treeValid (pq : List PqEntry) (q : Nat) (s : State) : (setQueue pq q s).treeValid = s.treeValid := rfl
@[simp] theorem setQueue_treeOrigin (pq : List PqEntry) (q : Nat) (s : State) : (setQueue pq q s).treeOrigin = s.treeOrigin := rfl
@[simp] theorem setQueue_count (pq : List PqEntry) (q : Nat) (s : State) : (setQueue pq q s).count = s.count := rfl
@[simp] theorem setQueue_countValid (pq : List PqEntry) (q : Nat) (s : State) : (setQueue pq q s).countValid = s.countValid := rfl
@[simp] theorem setQueue_pq (pq : List PqEntry) (q : Nat) (s : State) : (setQueue pq q s).pq = pq := rfl
@[simp] theorem setQueue_seq (pq : List PqEntry) (q : Nat) (s : State) : (setQueue pq q s).seq = q := rfl
@[simp] theorem setQueue_hsStack (pq : List PqEntry) (q : Nat) (s : State) : (setQueue pq q s).hsStack = s.hsStack := rfl
@[simp] theorem setQueue_hdStack (pq : List PqEntry) (q : Nat) (s : State) : (setQueue pq q s).hdStack = s.hdStack := rfl
@[simp] theorem setQueue_leafCnt (pq : List PqEntry) (q : Nat) (s : State) : (setQueue pq q s).leafCnt = s.leafCnt := rfl
@[simp] theorem setQueue_need (pq : List PqEntry) (q : Nat) (s : State) : (setQueue pq q s).need = s.need := rfl
@[simp] theorem setQueue_code (pq : List PqEntry) (q : Nat) (s : State) : (setQueue pq q s).code = s.code := rfl
@[simp] theorem setQueue_tableValid (pq : List PqEntry) (q : Nat) (s : State) : (setQueue pq q s).tableValid = s.tableValid := rfl
@[simp] theorem setQueue_encStack (pq : List PqEntry) (q : Nat) (s : State) : (setQueue pq q s).encStack = s.encStack := rfl
@[simp] theorem setQueue_cur (pq : List PqEntry) (q : Nat) (s : State) : (setQueue pq q s).cur = s.cur := rfl
@[simp] theorem setQueue_faultCode (pq : List PqEntry) (q : Nat) (s : State) : (setQueue pq q s).faultCode = s.faultCode := rfl
@[simp] theorem setQueue_faultSub (pq : List PqEntry) (q : Nat) (s : State) : (setQueue pq q s).faultSub = s.faultSub := rfl
@[simp] theorem setQueue_faultValue (pq : List PqEntry) (q : Nat) (s : State) : (setQueue pq q s).faultValue = s.faultValue := rfl
@[simp] theorem setQueue_faultPhase (pq : List PqEntry) (q : Nat) (s : State) : (setQueue pq q s).faultPhase = s.faultPhase := rfl
@[simp] theorem setQueue_src (pq : List PqEntry) (q : Nat) (s : State) : (setQueue pq q s).src = s.src := rfl
@[simp] theorem setQueue_snk (pq : List PqEntry) (q : Nat) (s : State) : (setQueue pq q s).snk = s.snk := rfl
@[simp] theorem setQueue_trace (pq : List PqEntry) (q : Nat) (s : State) : (setQueue pq q s).trace = s.trace := rfl

@[simp] theorem markCounted_rst (s : State) : (markCounted s).rst = s.rst := rfl
@[simp] theorem markCounted_cmdPort (s : State) : (markCounted s).cmdPort = s.cmdPort := rfl
@[simp] theorem markCounted_phase (s : State) : (markCounted s).phase = s.phase := rfl
@[simp] theorem markCounted_cmd (s : State) : (markCounted s).cmd = s.cmd := rfl
@[simp] theorem markCounted_tree (s : State) : (markCounted s).tree = s.tree := rfl
@[simp] theorem markCounted_treeValid (s : State) : (markCounted s).treeValid = s.treeValid := rfl
@[simp] theorem markCounted_treeOrigin (s : State) : (markCounted s).treeOrigin = s.treeOrigin := rfl
@[simp] theorem markCounted_count (s : State) : (markCounted s).count = s.count := rfl
@[simp] theorem markCounted_countValid (s : State) : (markCounted s).countValid = true := rfl
@[simp] theorem markCounted_pq (s : State) : (markCounted s).pq = s.pq := rfl
@[simp] theorem markCounted_seq (s : State) : (markCounted s).seq = s.seq := rfl
@[simp] theorem markCounted_hsStack (s : State) : (markCounted s).hsStack = s.hsStack := rfl
@[simp] theorem markCounted_hdStack (s : State) : (markCounted s).hdStack = s.hdStack := rfl
@[simp] theorem markCounted_leafCnt (s : State) : (markCounted s).leafCnt = s.leafCnt := rfl
@[simp] theorem markCounted_need (s : State) : (markCounted s).need = s.need := rfl
@[simp] theorem markCounted_code (s : State) : (markCounted s).code = s.code := rfl
@[simp] theorem markCounted_tableValid (s : State) : (markCounted s).tableValid = s.tableValid := rfl
@[simp] theorem markCounted_encStack (s : State) : (markCounted s).encStack = s.encStack := rfl
@[simp] theorem markCounted_cur (s : State) : (markCounted s).cur = s.cur := rfl
@[simp] theorem markCounted_faultCode (s : State) : (markCounted s).faultCode = s.faultCode := rfl
@[simp] theorem markCounted_faultSub (s : State) : (markCounted s).faultSub = s.faultSub := rfl
@[simp] theorem markCounted_faultValue (s : State) : (markCounted s).faultValue = s.faultValue := rfl
@[simp] theorem markCounted_faultPhase (s : State) : (markCounted s).faultPhase = s.faultPhase := rfl
@[simp] theorem markCounted_src (s : State) : (markCounted s).src = s.src := rfl
@[simp] theorem markCounted_snk (s : State) : (markCounted s).snk = s.snk := rfl
@[simp] theorem markCounted_trace (s : State) : (markCounted s).trace = s.trace := rfl

@[simp] theorem markTable_rst (s : State) : (markTable s).rst = s.rst := rfl
@[simp] theorem markTable_cmdPort (s : State) : (markTable s).cmdPort = s.cmdPort := rfl
@[simp] theorem markTable_phase (s : State) : (markTable s).phase = s.phase := rfl
@[simp] theorem markTable_cmd (s : State) : (markTable s).cmd = s.cmd := rfl
@[simp] theorem markTable_tree (s : State) : (markTable s).tree = s.tree := rfl
@[simp] theorem markTable_treeValid (s : State) : (markTable s).treeValid = s.treeValid := rfl
@[simp] theorem markTable_treeOrigin (s : State) : (markTable s).treeOrigin = s.treeOrigin := rfl
@[simp] theorem markTable_count (s : State) : (markTable s).count = s.count := rfl
@[simp] theorem markTable_countValid (s : State) : (markTable s).countValid = s.countValid := rfl
@[simp] theorem markTable_pq (s : State) : (markTable s).pq = s.pq := rfl
@[simp] theorem markTable_seq (s : State) : (markTable s).seq = s.seq := rfl
@[simp] theorem markTable_hsStack (s : State) : (markTable s).hsStack = s.hsStack := rfl
@[simp] theorem markTable_hdStack (s : State) : (markTable s).hdStack = s.hdStack := rfl
@[simp] theorem markTable_leafCnt (s : State) : (markTable s).leafCnt = s.leafCnt := rfl
@[simp] theorem markTable_need (s : State) : (markTable s).need = s.need := rfl
@[simp] theorem markTable_code (s : State) : (markTable s).code = s.code := rfl
@[simp] theorem markTable_tableValid (s : State) : (markTable s).tableValid = true := rfl
@[simp] theorem markTable_encStack (s : State) : (markTable s).encStack = s.encStack := rfl
@[simp] theorem markTable_cur (s : State) : (markTable s).cur = s.cur := rfl
@[simp] theorem markTable_faultCode (s : State) : (markTable s).faultCode = s.faultCode := rfl
@[simp] theorem markTable_faultSub (s : State) : (markTable s).faultSub = s.faultSub := rfl
@[simp] theorem markTable_faultValue (s : State) : (markTable s).faultValue = s.faultValue := rfl
@[simp] theorem markTable_faultPhase (s : State) : (markTable s).faultPhase = s.faultPhase := rfl
@[simp] theorem markTable_src (s : State) : (markTable s).src = s.src := rfl
@[simp] theorem markTable_snk (s : State) : (markTable s).snk = s.snk := rfl
@[simp] theorem markTable_trace (s : State) : (markTable s).trace = s.trace := rfl

@[simp] theorem startTableWalk_rst (t : Tree) (s : State) : (startTableWalk t s).rst = s.rst := rfl
@[simp] theorem startTableWalk_cmdPort (t : Tree) (s : State) : (startTableWalk t s).cmdPort = s.cmdPort := rfl
@[simp] theorem startTableWalk_phase (t : Tree) (s : State) : (startTableWalk t s).phase = s.phase := rfl
@[simp] theorem startTableWalk_cmd (t : Tree) (s : State) : (startTableWalk t s).cmd = s.cmd := rfl
@[simp] theorem startTableWalk_tree (t : Tree) (s : State) : (startTableWalk t s).tree = s.tree := rfl
@[simp] theorem startTableWalk_treeValid (t : Tree) (s : State) : (startTableWalk t s).treeValid = s.treeValid := rfl
@[simp] theorem startTableWalk_treeOrigin (t : Tree) (s : State) : (startTableWalk t s).treeOrigin = s.treeOrigin := rfl
@[simp] theorem startTableWalk_count (t : Tree) (s : State) : (startTableWalk t s).count = s.count := rfl
@[simp] theorem startTableWalk_countValid (t : Tree) (s : State) : (startTableWalk t s).countValid = s.countValid := rfl
@[simp] theorem startTableWalk_pq (t : Tree) (s : State) : (startTableWalk t s).pq = s.pq := rfl
@[simp] theorem startTableWalk_seq (t : Tree) (s : State) : (startTableWalk t s).seq = s.seq := rfl
@[simp] theorem startTableWalk_hsStack (t : Tree) (s : State) : (startTableWalk t s).hsStack = s.hsStack := rfl
@[simp] theorem startTableWalk_hdStack (t : Tree) (s : State) : (startTableWalk t s).hdStack = s.hdStack := rfl
@[simp] theorem startTableWalk_leafCnt (t : Tree) (s : State) : (startTableWalk t s).leafCnt = s.leafCnt := rfl
@[simp] theorem startTableWalk_need (t : Tree) (s : State) : (startTableWalk t s).need = s.need := rfl
@[simp] theorem startTableWalk_code (t : Tree) (s : State) : (startTableWalk t s).code = Vector.replicate 257 none := rfl
@[simp] theorem startTableWalk_tableValid (t : Tree) (s : State) : (startTableWalk t s).tableValid = s.tableValid := rfl
@[simp] theorem startTableWalk_encStack (t : Tree) (s : State) : (startTableWalk t s).encStack = [(t, [])] := rfl
@[simp] theorem startTableWalk_cur (t : Tree) (s : State) : (startTableWalk t s).cur = s.cur := rfl
@[simp] theorem startTableWalk_faultCode (t : Tree) (s : State) : (startTableWalk t s).faultCode = s.faultCode := rfl
@[simp] theorem startTableWalk_faultSub (t : Tree) (s : State) : (startTableWalk t s).faultSub = s.faultSub := rfl
@[simp] theorem startTableWalk_faultValue (t : Tree) (s : State) : (startTableWalk t s).faultValue = s.faultValue := rfl
@[simp] theorem startTableWalk_faultPhase (t : Tree) (s : State) : (startTableWalk t s).faultPhase = s.faultPhase := rfl
@[simp] theorem startTableWalk_src (t : Tree) (s : State) : (startTableWalk t s).src = s.src := rfl
@[simp] theorem startTableWalk_snk (t : Tree) (s : State) : (startTableWalk t s).snk = s.snk := rfl
@[simp] theorem startTableWalk_trace (t : Tree) (s : State) : (startTableWalk t s).trace = s.trace := rfl

@[simp] theorem setEncStack_rst (st : List (Tree × Bits)) (s : State) : (setEncStack st s).rst = s.rst := rfl
@[simp] theorem setEncStack_cmdPort (st : List (Tree × Bits)) (s : State) : (setEncStack st s).cmdPort = s.cmdPort := rfl
@[simp] theorem setEncStack_phase (st : List (Tree × Bits)) (s : State) : (setEncStack st s).phase = s.phase := rfl
@[simp] theorem setEncStack_cmd (st : List (Tree × Bits)) (s : State) : (setEncStack st s).cmd = s.cmd := rfl
@[simp] theorem setEncStack_tree (st : List (Tree × Bits)) (s : State) : (setEncStack st s).tree = s.tree := rfl
@[simp] theorem setEncStack_treeValid (st : List (Tree × Bits)) (s : State) : (setEncStack st s).treeValid = s.treeValid := rfl
@[simp] theorem setEncStack_treeOrigin (st : List (Tree × Bits)) (s : State) : (setEncStack st s).treeOrigin = s.treeOrigin := rfl
@[simp] theorem setEncStack_count (st : List (Tree × Bits)) (s : State) : (setEncStack st s).count = s.count := rfl
@[simp] theorem setEncStack_countValid (st : List (Tree × Bits)) (s : State) : (setEncStack st s).countValid = s.countValid := rfl
@[simp] theorem setEncStack_pq (st : List (Tree × Bits)) (s : State) : (setEncStack st s).pq = s.pq := rfl
@[simp] theorem setEncStack_seq (st : List (Tree × Bits)) (s : State) : (setEncStack st s).seq = s.seq := rfl
@[simp] theorem setEncStack_hsStack (st : List (Tree × Bits)) (s : State) : (setEncStack st s).hsStack = s.hsStack := rfl
@[simp] theorem setEncStack_hdStack (st : List (Tree × Bits)) (s : State) : (setEncStack st s).hdStack = s.hdStack := rfl
@[simp] theorem setEncStack_leafCnt (st : List (Tree × Bits)) (s : State) : (setEncStack st s).leafCnt = s.leafCnt := rfl
@[simp] theorem setEncStack_need (st : List (Tree × Bits)) (s : State) : (setEncStack st s).need = s.need := rfl
@[simp] theorem setEncStack_code (st : List (Tree × Bits)) (s : State) : (setEncStack st s).code = s.code := rfl
@[simp] theorem setEncStack_tableValid (st : List (Tree × Bits)) (s : State) : (setEncStack st s).tableValid = s.tableValid := rfl
@[simp] theorem setEncStack_encStack (st : List (Tree × Bits)) (s : State) : (setEncStack st s).encStack = st := rfl
@[simp] theorem setEncStack_cur (st : List (Tree × Bits)) (s : State) : (setEncStack st s).cur = s.cur := rfl
@[simp] theorem setEncStack_faultCode (st : List (Tree × Bits)) (s : State) : (setEncStack st s).faultCode = s.faultCode := rfl
@[simp] theorem setEncStack_faultSub (st : List (Tree × Bits)) (s : State) : (setEncStack st s).faultSub = s.faultSub := rfl
@[simp] theorem setEncStack_faultValue (st : List (Tree × Bits)) (s : State) : (setEncStack st s).faultValue = s.faultValue := rfl
@[simp] theorem setEncStack_faultPhase (st : List (Tree × Bits)) (s : State) : (setEncStack st s).faultPhase = s.faultPhase := rfl
@[simp] theorem setEncStack_src (st : List (Tree × Bits)) (s : State) : (setEncStack st s).src = s.src := rfl
@[simp] theorem setEncStack_snk (st : List (Tree × Bits)) (s : State) : (setEncStack st s).snk = s.snk := rfl
@[simp] theorem setEncStack_trace (st : List (Tree × Bits)) (s : State) : (setEncStack st s).trace = s.trace := rfl

@[simp] theorem setPhase_rst (p : Phase) (s : State) : (setPhase p s).rst = s.rst := rfl
@[simp] theorem setPhase_cmdPort (p : Phase) (s : State) : (setPhase p s).cmdPort = s.cmdPort := rfl
@[simp] theorem setPhase_phase (p : Phase) (s : State) : (setPhase p s).phase = p := rfl
@[simp] theorem setPhase_cmd (p : Phase) (s : State) : (setPhase p s).cmd = s.cmd := rfl
@[simp] theorem setPhase_tree (p : Phase) (s : State) : (setPhase p s).tree = s.tree := rfl
@[simp] theorem setPhase_treeValid (p : Phase) (s : State) : (setPhase p s).treeValid = s.treeValid := rfl
@[simp] theorem setPhase_treeOrigin (p : Phase) (s : State) : (setPhase p s).treeOrigin = s.treeOrigin := rfl
@[simp] theorem setPhase_count (p : Phase) (s : State) : (setPhase p s).count = s.count := rfl
@[simp] theorem setPhase_countValid (p : Phase) (s : State) : (setPhase p s).countValid = s.countValid := rfl
@[simp] theorem setPhase_pq (p : Phase) (s : State) : (setPhase p s).pq = s.pq := rfl
@[simp] theorem setPhase_seq (p : Phase) (s : State) : (setPhase p s).seq = s.seq := rfl
@[simp] theorem setPhase_hsStack (p : Phase) (s : State) : (setPhase p s).hsStack = s.hsStack := rfl
@[simp] theorem setPhase_hdStack (p : Phase) (s : State) : (setPhase p s).hdStack = s.hdStack := rfl
@[simp] theorem setPhase_leafCnt (p : Phase) (s : State) : (setPhase p s).leafCnt = s.leafCnt := rfl
@[simp] theorem setPhase_need (p : Phase) (s : State) : (setPhase p s).need = s.need := rfl
@[simp] theorem setPhase_code (p : Phase) (s : State) : (setPhase p s).code = s.code := rfl
@[simp] theorem setPhase_tableValid (p : Phase) (s : State) : (setPhase p s).tableValid = s.tableValid := rfl
@[simp] theorem setPhase_encStack (p : Phase) (s : State) : (setPhase p s).encStack = s.encStack := rfl
@[simp] theorem setPhase_cur (p : Phase) (s : State) : (setPhase p s).cur = s.cur := rfl
@[simp] theorem setPhase_faultCode (p : Phase) (s : State) : (setPhase p s).faultCode = s.faultCode := rfl
@[simp] theorem setPhase_faultSub (p : Phase) (s : State) : (setPhase p s).faultSub = s.faultSub := rfl
@[simp] theorem setPhase_faultValue (p : Phase) (s : State) : (setPhase p s).faultValue = s.faultValue := rfl
@[simp] theorem setPhase_faultPhase (p : Phase) (s : State) : (setPhase p s).faultPhase = s.faultPhase := rfl
@[simp] theorem setPhase_src (p : Phase) (s : State) : (setPhase p s).src = s.src := rfl
@[simp] theorem setPhase_snk (p : Phase) (s : State) : (setPhase p s).snk = s.snk := rfl
@[simp] theorem setPhase_trace (p : Phase) (s : State) : (setPhase p s).trace = s.trace := rfl

@[simp] theorem clearTable_rst (s : State) : (clearTable s).rst = s.rst := rfl
@[simp] theorem clearTable_cmdPort (s : State) : (clearTable s).cmdPort = s.cmdPort := rfl
@[simp] theorem clearTable_phase (s : State) : (clearTable s).phase = s.phase := rfl
@[simp] theorem clearTable_cmd (s : State) : (clearTable s).cmd = s.cmd := rfl
@[simp] theorem clearTable_tree (s : State) : (clearTable s).tree = s.tree := rfl
@[simp] theorem clearTable_treeValid (s : State) : (clearTable s).treeValid = s.treeValid := rfl
@[simp] theorem clearTable_treeOrigin (s : State) : (clearTable s).treeOrigin = s.treeOrigin := rfl
@[simp] theorem clearTable_count (s : State) : (clearTable s).count = s.count := rfl
@[simp] theorem clearTable_countValid (s : State) : (clearTable s).countValid = s.countValid := rfl
@[simp] theorem clearTable_pq (s : State) : (clearTable s).pq = s.pq := rfl
@[simp] theorem clearTable_seq (s : State) : (clearTable s).seq = s.seq := rfl
@[simp] theorem clearTable_hsStack (s : State) : (clearTable s).hsStack = s.hsStack := rfl
@[simp] theorem clearTable_hdStack (s : State) : (clearTable s).hdStack = s.hdStack := rfl
@[simp] theorem clearTable_leafCnt (s : State) : (clearTable s).leafCnt = s.leafCnt := rfl
@[simp] theorem clearTable_need (s : State) : (clearTable s).need = s.need := rfl
@[simp] theorem clearTable_code (s : State) : (clearTable s).code = Vector.replicate 257 none := rfl
@[simp] theorem clearTable_tableValid (s : State) : (clearTable s).tableValid = false := rfl
@[simp] theorem clearTable_encStack (s : State) : (clearTable s).encStack = s.encStack := rfl
@[simp] theorem clearTable_cur (s : State) : (clearTable s).cur = s.cur := rfl
@[simp] theorem clearTable_faultCode (s : State) : (clearTable s).faultCode = s.faultCode := rfl
@[simp] theorem clearTable_faultSub (s : State) : (clearTable s).faultSub = s.faultSub := rfl
@[simp] theorem clearTable_faultValue (s : State) : (clearTable s).faultValue = s.faultValue := rfl
@[simp] theorem clearTable_faultPhase (s : State) : (clearTable s).faultPhase = s.faultPhase := rfl
@[simp] theorem clearTable_src (s : State) : (clearTable s).src = s.src := rfl
@[simp] theorem clearTable_snk (s : State) : (clearTable s).snk = s.snk := rfl
@[simp] theorem clearTable_trace (s : State) : (clearTable s).trace = s.trace := rfl

@[simp] theorem clearForBuild_rst (s : State) : (clearForBuild s).rst = s.rst := rfl
@[simp] theorem clearForBuild_cmdPort (s : State) : (clearForBuild s).cmdPort = s.cmdPort := rfl
@[simp] theorem clearForBuild_phase (s : State) : (clearForBuild s).phase = s.phase := rfl
@[simp] theorem clearForBuild_cmd (s : State) : (clearForBuild s).cmd = s.cmd := rfl
@[simp] theorem clearForBuild_tree (s : State) : (clearForBuild s).tree = s.tree := rfl
@[simp] theorem clearForBuild_treeValid (s : State) : (clearForBuild s).treeValid = false := rfl
@[simp] theorem clearForBuild_treeOrigin (s : State) : (clearForBuild s).treeOrigin = s.treeOrigin := rfl
@[simp] theorem clearForBuild_count (s : State) : (clearForBuild s).count = Vector.replicate 257 0 := rfl
@[simp] theorem clearForBuild_countValid (s : State) : (clearForBuild s).countValid = false := rfl
@[simp] theorem clearForBuild_pq (s : State) : (clearForBuild s).pq = [] := rfl
@[simp] theorem clearForBuild_seq (s : State) : (clearForBuild s).seq = 0 := rfl
@[simp] theorem clearForBuild_hsStack (s : State) : (clearForBuild s).hsStack = s.hsStack := rfl
@[simp] theorem clearForBuild_hdStack (s : State) : (clearForBuild s).hdStack = s.hdStack := rfl
@[simp] theorem clearForBuild_leafCnt (s : State) : (clearForBuild s).leafCnt = s.leafCnt := rfl
@[simp] theorem clearForBuild_need (s : State) : (clearForBuild s).need = s.need := rfl
@[simp] theorem clearForBuild_code (s : State) : (clearForBuild s).code = Vector.replicate 257 none := rfl
@[simp] theorem clearForBuild_tableValid (s : State) : (clearForBuild s).tableValid = false := rfl
@[simp] theorem clearForBuild_encStack (s : State) : (clearForBuild s).encStack = s.encStack := rfl
@[simp] theorem clearForBuild_cur (s : State) : (clearForBuild s).cur = s.cur := rfl
@[simp] theorem clearForBuild_faultCode (s : State) : (clearForBuild s).faultCode = s.faultCode := rfl
@[simp] theorem clearForBuild_faultSub (s : State) : (clearForBuild s).faultSub = s.faultSub := rfl
@[simp] theorem clearForBuild_faultValue (s : State) : (clearForBuild s).faultValue = s.faultValue := rfl
@[simp] theorem clearForBuild_faultPhase (s : State) : (clearForBuild s).faultPhase = s.faultPhase := rfl
@[simp] theorem clearForBuild_src (s : State) : (clearForBuild s).src = s.src := rfl
@[simp] theorem clearForBuild_snk (s : State) : (clearForBuild s).snk = s.snk := rfl
@[simp] theorem clearForBuild_trace (s : State) : (clearForBuild s).trace = s.trace := rfl

@[simp] theorem clearForRead_rst (s : State) : (clearForRead s).rst = s.rst := rfl
@[simp] theorem clearForRead_cmdPort (s : State) : (clearForRead s).cmdPort = s.cmdPort := rfl
@[simp] theorem clearForRead_phase (s : State) : (clearForRead s).phase = s.phase := rfl
@[simp] theorem clearForRead_cmd (s : State) : (clearForRead s).cmd = s.cmd := rfl
@[simp] theorem clearForRead_tree (s : State) : (clearForRead s).tree = s.tree := rfl
@[simp] theorem clearForRead_treeValid (s : State) : (clearForRead s).treeValid = false := rfl
@[simp] theorem clearForRead_treeOrigin (s : State) : (clearForRead s).treeOrigin = s.treeOrigin := rfl
@[simp] theorem clearForRead_count (s : State) : (clearForRead s).count = s.count := rfl
@[simp] theorem clearForRead_countValid (s : State) : (clearForRead s).countValid = s.countValid := rfl
@[simp] theorem clearForRead_pq (s : State) : (clearForRead s).pq = s.pq := rfl
@[simp] theorem clearForRead_seq (s : State) : (clearForRead s).seq = s.seq := rfl
@[simp] theorem clearForRead_hsStack (s : State) : (clearForRead s).hsStack = s.hsStack := rfl
@[simp] theorem clearForRead_hdStack (s : State) : (clearForRead s).hdStack = [] := rfl
@[simp] theorem clearForRead_leafCnt (s : State) : (clearForRead s).leafCnt = 0 := rfl
@[simp] theorem clearForRead_need (s : State) : (clearForRead s).need = 1 := rfl
@[simp] theorem clearForRead_code (s : State) : (clearForRead s).code = Vector.replicate 257 none := rfl
@[simp] theorem clearForRead_tableValid (s : State) : (clearForRead s).tableValid = false := rfl
@[simp] theorem clearForRead_encStack (s : State) : (clearForRead s).encStack = s.encStack := rfl
@[simp] theorem clearForRead_cur (s : State) : (clearForRead s).cur = s.cur := rfl
@[simp] theorem clearForRead_faultCode (s : State) : (clearForRead s).faultCode = s.faultCode := rfl
@[simp] theorem clearForRead_faultSub (s : State) : (clearForRead s).faultSub = s.faultSub := rfl
@[simp] theorem clearForRead_faultValue (s : State) : (clearForRead s).faultValue = s.faultValue := rfl
@[simp] theorem clearForRead_faultPhase (s : State) : (clearForRead s).faultPhase = s.faultPhase := rfl
@[simp] theorem clearForRead_src (s : State) : (clearForRead s).src = s.src := rfl
@[simp] theorem clearForRead_snk (s : State) : (clearForRead s).snk = s.snk := rfl
@[simp] theorem clearForRead_trace (s : State) : (clearForRead s).trace = s.trace := rfl

@[simp] theorem startCommand_rst (c : Command) (s : State) : (startCommand c s).rst = s.rst := rfl
@[simp] theorem startCommand_cmdPort (c : Command) (s : State) : (startCommand c s).cmdPort = s.cmdPort := rfl
@[simp] theorem startCommand_phase (c : Command) (s : State) : (startCommand c s).phase = (firstPhase c).getD s.phase := rfl
@[simp] theorem startCommand_cmd (c : Command) (s : State) : (startCommand c s).cmd = c := rfl
@[simp] theorem startCommand_tree (c : Command) (s : State) : (startCommand c s).tree = s.tree := rfl
@[simp] theorem startCommand_treeValid (c : Command) (s : State) : (startCommand c s).treeValid = s.treeValid := rfl
@[simp] theorem startCommand_treeOrigin (c : Command) (s : State) : (startCommand c s).treeOrigin = s.treeOrigin := rfl
@[simp] theorem startCommand_count (c : Command) (s : State) : (startCommand c s).count = s.count := rfl
@[simp] theorem startCommand_countValid (c : Command) (s : State) : (startCommand c s).countValid = s.countValid := rfl
@[simp] theorem startCommand_pq (c : Command) (s : State) : (startCommand c s).pq = s.pq := rfl
@[simp] theorem startCommand_seq (c : Command) (s : State) : (startCommand c s).seq = s.seq := rfl
@[simp] theorem startCommand_hsStack (c : Command) (s : State) : (startCommand c s).hsStack = s.hsStack := rfl
@[simp] theorem startCommand_hdStack (c : Command) (s : State) : (startCommand c s).hdStack = s.hdStack := rfl
@[simp] theorem startCommand_leafCnt (c : Command) (s : State) : (startCommand c s).leafCnt = s.leafCnt := rfl
@[simp] theorem startCommand_need (c : Command) (s : State) : (startCommand c s).need = s.need := rfl
@[simp] theorem startCommand_code (c : Command) (s : State) : (startCommand c s).code = s.code := rfl
@[simp] theorem startCommand_tableValid (c : Command) (s : State) : (startCommand c s).tableValid = s.tableValid := rfl
@[simp] theorem startCommand_encStack (c : Command) (s : State) : (startCommand c s).encStack = s.encStack := rfl
@[simp] theorem startCommand_cur (c : Command) (s : State) : (startCommand c s).cur = s.cur := rfl
@[simp] theorem startCommand_faultCode (c : Command) (s : State) : (startCommand c s).faultCode = s.faultCode := rfl
@[simp] theorem startCommand_faultSub (c : Command) (s : State) : (startCommand c s).faultSub = s.faultSub := rfl
@[simp] theorem startCommand_faultValue (c : Command) (s : State) : (startCommand c s).faultValue = s.faultValue := rfl
@[simp] theorem startCommand_faultPhase (c : Command) (s : State) : (startCommand c s).faultPhase = s.faultPhase := rfl
@[simp] theorem startCommand_src (c : Command) (s : State) : (startCommand c s).src = s.src := rfl
@[simp] theorem startCommand_snk (c : Command) (s : State) : (startCommand c s).snk = s.snk := rfl
@[simp] theorem startCommand_trace (c : Command) (s : State) : (startCommand c s).trace = s.trace := rfl

@[simp] theorem clearPort_rst (s : State) : (clearPort s).rst = s.rst := rfl
@[simp] theorem clearPort_cmdPort (s : State) : (clearPort s).cmdPort = none := rfl
@[simp] theorem clearPort_phase (s : State) : (clearPort s).phase = s.phase := rfl
@[simp] theorem clearPort_cmd (s : State) : (clearPort s).cmd = s.cmd := rfl
@[simp] theorem clearPort_tree (s : State) : (clearPort s).tree = s.tree := rfl
@[simp] theorem clearPort_treeValid (s : State) : (clearPort s).treeValid = s.treeValid := rfl
@[simp] theorem clearPort_treeOrigin (s : State) : (clearPort s).treeOrigin = s.treeOrigin := rfl
@[simp] theorem clearPort_count (s : State) : (clearPort s).count = s.count := rfl
@[simp] theorem clearPort_countValid (s : State) : (clearPort s).countValid = s.countValid := rfl
@[simp] theorem clearPort_pq (s : State) : (clearPort s).pq = s.pq := rfl
@[simp] theorem clearPort_seq (s : State) : (clearPort s).seq = s.seq := rfl
@[simp] theorem clearPort_hsStack (s : State) : (clearPort s).hsStack = s.hsStack := rfl
@[simp] theorem clearPort_hdStack (s : State) : (clearPort s).hdStack = s.hdStack := rfl
@[simp] theorem clearPort_leafCnt (s : State) : (clearPort s).leafCnt = s.leafCnt := rfl
@[simp] theorem clearPort_need (s : State) : (clearPort s).need = s.need := rfl
@[simp] theorem clearPort_code (s : State) : (clearPort s).code = s.code := rfl
@[simp] theorem clearPort_tableValid (s : State) : (clearPort s).tableValid = s.tableValid := rfl
@[simp] theorem clearPort_encStack (s : State) : (clearPort s).encStack = s.encStack := rfl
@[simp] theorem clearPort_cur (s : State) : (clearPort s).cur = s.cur := rfl
@[simp] theorem clearPort_faultCode (s : State) : (clearPort s).faultCode = s.faultCode := rfl
@[simp] theorem clearPort_faultSub (s : State) : (clearPort s).faultSub = s.faultSub := rfl
@[simp] theorem clearPort_faultValue (s : State) : (clearPort s).faultValue = s.faultValue := rfl
@[simp] theorem clearPort_faultPhase (s : State) : (clearPort s).faultPhase = s.faultPhase := rfl
@[simp] theorem clearPort_src (s : State) : (clearPort s).src = s.src := rfl
@[simp] theorem clearPort_snk (s : State) : (clearPort s).snk = s.snk := rfl
@[simp] theorem clearPort_trace (s : State) : (clearPort s).trace = s.trace := rfl

end Sys2Proof.Machine
end

