-- ==== Sys2Proof/Laws/Ops.lean ====
section
/-! SUPPORT. One specification per shared operation (Machine/Ops.lean): what it answers and when. Later proofs cite these and do not unfold the operation. -/

namespace Sys2Proof.Machine

/-! ## andThen -/

@[simp] theorem andThen_next (s : State) (f : State → Out) : andThen (.next s) f = f s := rfl

@[simp] theorem andThen_fault (r : Fault) (f : State → Out) : andThen (.fault r) f = .fault r := rfl

@[simp] theorem andThen_refused (r : Refusal) (f : State → Out) :
    andThen (.refused r) f = .refused r := rfl

/-- A sequence that answers a next state went through one. -/
theorem andThen_eq_next {o : Out} {f : State → Out} {s' : State} :
    andThen o f = .next s' ↔ ∃ s1, o = .next s1 ∧ f s1 = .next s' := by
  cases o with
  | next s1 => simp
  | fault r => simp
  | refused r => simp

/-! ## The source -/

theorem unread_length (s : State) : s.unread.length = s.src.bits.length - s.src.pos := by
  simp [State.unread]

theorem srcRead_eq (n : Nat) (s : State) : srcRead n s = (srcPeek n s, srcAfter n s) := rfl

/-- Where `n` bits stand first in the unread source, `SrcRead(n)` answers their value (20_memory R51). -/
theorem srcPeek_of_unread {s : State} {x y : Bits} (h : s.unread = x ++ y) (hx : 0 < x.length) :
    srcPeek x.length s = some (valOf x) := by
  have hl := unread_length s
  rw [h, List.length_append] at hl
  have hle : s.src.pos + x.length ≤ s.src.bits.length := by omega
  rw [srcPeek, if_pos hle, h, List.take_left]

/-- ... and leaves what stands after them unread. -/
theorem srcAfter_of_unread {s : State} {x y : Bits} (h : s.unread = x ++ y) (hx : 0 < x.length) :
    (srcAfter x.length s).src.pos = s.src.pos + x.length ∧ (srcAfter x.length s).unread = y := by
  have hl := unread_length s
  rw [h, List.length_append] at hl
  have hle : s.src.pos + x.length ≤ s.src.bits.length := by omega
  have hpos : (srcAfter x.length s).src.pos = s.src.pos + x.length := by
    rw [srcAfter_src]; exact if_pos hle
  refine ⟨hpos, ?_⟩
  have hd : (srcAfter x.length s).unread = s.unread.drop x.length := by
    rw [State.unread, hpos, State.unread, List.drop_drop]
    rfl
  rw [hd, h, List.drop_left]

/-- With fewer than `n` bits unread, `SrcRead(n)` answers `EOD` (20_memory R51). -/
theorem srcPeek_short {n : Nat} {s : State} (hn : s.unread.length < n) : srcPeek n s = none := by
  have hl := unread_length s
  rw [srcPeek, if_neg (by omega)]

/-- On `EOD` the source stands still (20_memory R59). -/
theorem srcAfter_short {n : Nat} {s : State} (hn : s.unread.length < n) :
    (srcAfter n s).src = s.src := by
  have hl := unread_length s
  rw [srcAfter_src, if_neg (by omega)]

theorem srcAfter_short_unread {n : Nat} {s : State} (hn : s.unread.length < n) :
    (srcAfter n s).unread = s.unread := by
  rw [State.unread, srcAfter_short hn, State.unread]

/-- `SrcRead(n)` answers a value exactly when `n` bits remain; the value is below `2^n` (20_memory R51). -/
theorem srcPeek_eq_some {n v : Nat} {s : State} (hn : 0 < n) :
    srcPeek n s = some v ↔ ∃ x y, s.unread = x ++ y ∧ x.length = n ∧ valOf x = v := by
  constructor
  · intro h
    by_cases hle : s.src.pos + n ≤ s.src.bits.length
    · rw [srcPeek, if_pos hle, Option.some.injEq] at h
      refine ⟨s.unread.take n, s.unread.drop n, (List.take_append_drop n _).symm, ?_, h⟩
      rw [List.length_take, unread_length]
      omega
    · rw [srcPeek, if_neg hle] at h
      exact absurd h (by simp)
  · rintro ⟨x, y, h, rfl, rfl⟩
    exact srcPeek_of_unread h hn

theorem srcPeek_eq_none {n : Nat} {s : State} (hn : 0 < n) :
    srcPeek n s = none ↔ s.unread.length < n := by
  constructor
  · intro h
    by_contra hc
    rw [Nat.not_lt] at hc
    have hs : s.unread = s.unread.take n ++ s.unread.drop n := (List.take_append_drop n _).symm
    have ht : (s.unread.take n).length = n := by rw [List.length_take]; omega
    have := srcPeek_of_unread hs (by omega)
    rw [ht, h] at this
    exact absurd this (by simp)
  · exact srcPeek_short

theorem srcPeek_lt {n v : Nat} {s : State} (hn : 0 < n) (h : srcPeek n s = some v) : v < 2 ^ n := by
  obtain ⟨x, y, -, rfl, rfl⟩ := (srcPeek_eq_some hn).mp h
  exact valOf_lt x

/-- A read that answers a value, as one update. -/
theorem srcAfter_eq {n : Nat} {s : State} {x y : Bits} (h : s.unread = x ++ y) (hx : x.length = n)
    (hn : 0 < n) :
    srcAfter n s =
      { s with
        src := ⟨s.src.bits, s.src.pos + n⟩
        trace := s.trace ++ [.srcRead n (some (valOf x))] } := by
  subst hx
  have hpos := (srcAfter_of_unread h hn).1
  have hpeek := srcPeek_of_unread h hn
  unfold srcAfter at hpos ⊢
  simp only at hpos
  rw [hpeek, hpos]

/-- A read that answers `EOD`, as one update. -/
theorem srcAfter_eod {n : Nat} {s : State} (h : s.unread.length < n) :
    srcAfter n s = { s with trace := s.trace ++ [.srcRead n none] } := by
  have hsrc := srcAfter_short h
  have hpeek := srcPeek_short h
  unfold srcAfter at hsrc ⊢
  simp only at hsrc
  rw [hpeek, hsrc]

/-- `SRC.pos` never passes the end (20_memory R50). -/
theorem srcAfter_pos_le {n : Nat} {s : State} (h : s.src.pos ≤ s.src.bits.length) :
    (srcAfter n s).src.pos ≤ (srcAfter n s).src.bits.length := by
  rw [srcAfter_src]
  show (if s.src.pos + n ≤ s.src.bits.length then s.src.pos + n else s.src.pos) ≤ s.src.bits.length
  split <;> assumption

@[simp] theorem srcAfter_src_bits (n : Nat) (s : State) : (srcAfter n s).src.bits = s.src.bits := rfl

/-! ## The sink -/

/-- `SnkWrite(n, v)` on an open sink appends `bits_n(v)` and does nothing else (20_memory R52). -/
theorem snkWrite_open {s : State} (n v : Nat) (h : s.snk.closed = false) :
    snkWrite n v s = .next (snkAppend (bitsOf n v) (.snkWrite n v) s) := by
  simp [snkWrite, h]

theorem snkWrite_eq_next {n v : Nat} {s s' : State} :
    snkWrite n v s = .next s' ↔
      s.snk.closed = false ∧ s' = snkAppend (bitsOf n v) (.snkWrite n v) s := by
  cases h : s.snk.closed <;> simp [snkWrite, h, eq_comm]

theorem snkWritePath_open {s : State} (p : Bits) (h : s.snk.closed = false) :
    snkWritePath p s = .next (snkAppend p (.snkWritePath p) s) := by
  simp [snkWritePath, h]

theorem snkWritePath_eq_next {p : Bits} {s s' : State} :
    snkWritePath p s = .next s' ↔ s.snk.closed = false ∧ s' = snkAppend p (.snkWritePath p) s := by
  cases h : s.snk.closed <;> simp [snkWritePath, h, eq_comm]

theorem snkClose_open {s : State} (h : s.snk.closed = false) : snkClose s = .next (snkPadded s) := by
  simp [snkClose, h]

theorem snkClose_eq_next {s s' : State} :
    snkClose s = .next s' ↔ s.snk.closed = false ∧ s' = snkPadded s := by
  cases h : s.snk.closed <;> simp [snkClose, h, eq_comm]

@[simp] theorem snkAppend_closed (x : Bits) (t : Transaction) (s : State) :
    (snkAppend x t s).snk.closed = s.snk.closed := rfl

@[simp] theorem snkAppend_unread (x : Bits) (t : Transaction) (s : State) :
    (snkAppend x t s).unread = s.unread := rfl

theorem sinkFresh_iff (s : State) : s.sinkFresh = true ↔ s.snk.bits = [] ∧ s.snk.closed = false := by
  simp [State.sinkFresh]

/-! ## The sequencer -/

theorem phaseComplete_eq_next {s s' : State} :
    phaseComplete s = .next s' ↔ ∃ p, nextPhase s.cmd s.phase = some p ∧ s' = setPhase p s := by
  cases h : nextPhase s.cmd s.phase <;> simp [phaseComplete, h, eq_comm]

theorem phaseComplete_of {s : State} {p : Phase} (h : nextPhase s.cmd s.phase = some p) :
    phaseComplete s = .next (setPhase p s) := by
  simp [phaseComplete, h]

/-- The sequencer moves within the chain of the command (10_state R41). -/
theorem nextPhase_mem {c : Command} {p q : Phase} (h : nextPhase c p = some q) :
    q ∈ chain c ∧ p ∈ chain c := by
  cases c <;> cases p <;> simp [nextPhase, chain, entryAfter] at h ⊢ <;> subst h <;> decide

theorem nextPhase_tbMerge {c : Command} {p : Phase} (h : nextPhase c .tbMerge = some p) :
    (c = .tbRun ∧ p = .done) ∨ (c = .compress ∧ p = .encMagic) := by
  cases c <;> simp [nextPhase, chain, entryAfter] at h ⊢ <;> exact h.symm

theorem nextPhase_hsWalk {c : Command} {p : Phase} (h : nextPhase c .hsWalk = some p) :
    (c = .hsRun ∧ p = .done) ∨ ((c = .encRun ∨ c = .compress) ∧ p = .encTable) := by
  cases c <;> simp [nextPhase, chain, entryAfter] at h ⊢ <;> exact h.symm

theorem nextPhase_hdWalk {c : Command} {p : Phase} (h : nextPhase c .hdWalk = some p) :
    (c = .hdRun ∧ p = .done) ∨ (c = .decompress ∧ p = .decStart) := by
  cases c <;> simp [nextPhase, chain, entryAfter] at h ⊢ <;> exact h.symm

theorem busyFlag_iff (s : State) :
    s.busyFlag = true ↔ s.phase ≠ .idle ∧ s.phase ≠ .done ∧ s.phase ≠ .fault := by
  simp [State.busyFlag]

theorem accepting_iff (s : State) : s.accepting = true ↔ s.phase = .idle ∨ s.phase = .done := by
  simp [State.accepting]

/-! ## The tree and the tables -/

theorem readTree_eq_some {s : State} {t : Tree} :
    readTree s = some t ↔ s.treeValid = true ∧ s.tree = some t := by
  cases h : s.treeValid <;> simp [readTree, h]

theorem CountTable.get_put (tbl : CountTable) (v w u : Nat) :
    (tbl.put v w).get u = if u = v ∧ v < NSYM then w else tbl.get u := by
  unfold CountTable.put CountTable.get
  rw [Vector.getElem?_setIfInBounds]
  by_cases h : v = u
  · subst h
    by_cases hv : v < 257
    · simp [hv]
    · simp [hv]
  · have h' : ¬ u = v := fun e => h e.symm
    simp [h, h']

theorem CodeTable.get_put (tbl : CodeTable) (v : Nat) (p : Bits) (u : Nat) :
    (tbl.put v p).get u = if u = v ∧ v < NSYM then some p else tbl.get u := by
  unfold CodeTable.put CodeTable.get
  rw [Vector.getElem?_setIfInBounds]
  by_cases h : v = u
  · subst h
    by_cases hv : v < 257
    · simp [hv]
    · simp [hv]
  · have h' : ¬ u = v := fun e => h e.symm
    simp [h, h']

@[simp] theorem CountTable.get_replicate (u : Nat) :
    CountTable.get (Vector.replicate 257 0) u = 0 := by
  unfold CountTable.get
  rw [Vector.getElem?_replicate]
  split <;> rfl

@[simp] theorem CodeTable.get_replicate (u : Nat) :
    CodeTable.get (Vector.replicate 257 none) u = none := by
  unfold CodeTable.get
  rw [Vector.getElem?_replicate]
  split <;> rfl

end Sys2Proof.Machine
end

