-- ==== Sys2Proof/Laws/Tree.lean ====
section
/-! SUPPORT. Trees: leaves, subtrees, paths and codes (00_scope R14, R15). -/

namespace Sys2Proof

@[simp] theorem Tree.leaves_length (t : Tree) : t.leaves.length = t.nleaves := by
  induction t with
  | leaf y => rfl
  | node l r ihl ihr => simp [Tree.leaves, Tree.nleaves, ihl, ihr]

theorem Tree.nleaves_pos (t : Tree) : 0 < t.nleaves := by
  induction t with
  | leaf y => exact Nat.one_pos
  | node l r ihl _ => simp only [Tree.nleaves]; omega

/-- A full tree has one internal node less than leaves (30_encoding R88). -/
theorem Tree.nodes_add_one (t : Tree) : t.nodes + 1 = 2 * t.nleaves := by
  induction t with
  | leaf y => rfl
  | node l r ihl ihr => simp only [Tree.nodes, Tree.nleaves]; omega

@[simp] theorem Tree.sub_nil (t : Tree) : t.sub [] = some t := by cases t <;> rfl

@[simp] theorem Tree.sub_node_false (l r : Tree) (p : Bits) :
    (Tree.node l r).sub (false :: p) = l.sub p := rfl

@[simp] theorem Tree.sub_node_true (l r : Tree) (p : Bits) :
    (Tree.node l r).sub (true :: p) = r.sub p := rfl

@[simp] theorem Tree.sub_leaf_cons (y : Sym) (b : Bool) (p : Bits) :
    (Tree.leaf y).sub (b :: p) = none := rfl

theorem Tree.sub_node_cons (l r : Tree) (b : Bool) (p : Bits) :
    (Tree.node l r).sub (b :: p) = (if b then r else l).sub p := by cases b <;> rfl

theorem Tree.sub_append (t : Tree) (p q : Bits) :
    t.sub (p ++ q) = (t.sub p).bind fun u => u.sub q := by
  induction p generalizing t with
  | nil => simp
  | cons b p ih =>
    cases t with
    | leaf y => simp
    | node l r => simp [Tree.sub_node_cons, ih]

/-- The leaves below a subtree are leaves of the tree. -/
theorem Tree.leaves_sub {t u : Tree} {p : Bits} (h : t.sub p = some u) :
    ∀ y ∈ u.leaves, y ∈ t.leaves := by
  induction p generalizing t with
  | nil => simp only [Tree.sub_nil, Option.some.injEq] at h; subst h; exact fun y hy => hy
  | cons b p ih =>
    cases t with
    | leaf y => simp at h
    | node l r =>
      intro y hy
      rw [Tree.sub_node_cons] at h
      have hm := ih h y hy
      cases b <;> simp_all [Tree.leaves]

/-- A path is shorter than the leaves it leaves behind (00_scope R9). -/
theorem Tree.length_add_nleaves_le {t u : Tree} {p : Bits} (h : t.sub p = some u) :
    p.length + u.nleaves ≤ t.nleaves := by
  induction p generalizing t with
  | nil => simp only [Tree.sub_nil, Option.some.injEq] at h; subst h; simp
  | cons b p ih =>
    cases t with
    | leaf y => simp at h
    | node l r =>
      rw [Tree.sub_node_cons] at h
      have hm := ih h
      have hl := l.nleaves_pos
      have hr := r.nleaves_pos
      rw [Tree.nleaves, List.length_cons]
      cases b <;> simp only [Bool.false_eq_true, if_false, if_true] at hm <;> omega

/-- A path that reaches an internal node or a leaf, seen from the first edge. -/
theorem Tree.paths_eq_map (t : Tree) (p : Bits) :
    t.paths p = t.codes.map fun q => (q.1, p ++ q.2) := by
  induction t generalizing p with
  | leaf y => simp [Tree.codes, Tree.paths]
  | node l r ihl ihr =>
    simp only [Tree.codes, Tree.paths, List.nil_append, List.map_append]
    rw [ihl (p ++ [false]), ihr (p ++ [true]), ihl [false], ihr [true]]
    simp [Function.comp_def]

theorem Tree.codes_leaf (y : Sym) : (Tree.leaf y).codes = [(y, [])] := rfl

theorem Tree.codes_node (l r : Tree) :
    (Tree.node l r).codes =
      (l.codes.map fun q => (q.1, false :: q.2)) ++ r.codes.map fun q => (q.1, true :: q.2) := by
  simp [Tree.codes, Tree.paths, Tree.paths_eq_map l [false], Tree.paths_eq_map r [true]]

/-- The codes are the paths that end at leaves (43_encoder R151). -/
theorem Tree.mem_codes {t : Tree} {y : Sym} {p : Bits} :
    (y, p) ∈ t.codes ↔ t.sub p = some (.leaf y) := by
  induction t generalizing p with
  | leaf z =>
    cases p with
    | nil => simp [Tree.codes_leaf, eq_comm]
    | cons b p => simp [Tree.codes_leaf]
  | node l r ihl ihr =>
    rw [Tree.codes_node]
    cases p with
    | nil => simp
    | cons b p => cases b <;> simp [ihl, ihr]

theorem Tree.codes_fst (t : Tree) : t.codes.map Prod.fst = t.leaves := by
  induction t with
  | leaf y => rfl
  | node l r ihl ihr =>
    rw [Tree.codes_node, Tree.leaves, ← ihl, ← ihr]
    simp [Function.comp_def]

theorem Tree.mem_leaves {t : Tree} {y : Sym} : y ∈ t.leaves ↔ ∃ p, t.sub p = some (.leaf y) := by
  rw [← Tree.codes_fst]
  simp [Tree.mem_codes]

/-- No leaf stands below another: a path to a leaf goes no further. -/
theorem Tree.sub_leaf_append {t u : Tree} {p q : Bits} {y : Sym}
    (hp : t.sub p = some (.leaf y)) (hq : t.sub (p ++ q) = some u) : q = [] := by
  rw [Tree.sub_append, hp] at hq
  cases q with
  | nil => rfl
  | cons b q => simp at hq

@[simp] theorem Tree.ser_leaf (y : Sym) : (Tree.leaf y).ser = true :: bitsOf 9 y.toNat := rfl

@[simp] theorem Tree.ser_node (l r : Tree) :
    (Tree.node l r).ser = false :: (l.ser ++ r.ser) := rfl

end Sys2Proof
end

