-- ==== Sys2Proof/Laws/Builder.lean ====
section
/-! SUPPORT. huffman_tree_builder: the order of the leaves, the choice of a lightest entry and one merge (40_tree_builder R106, R107). -/

namespace Sys2Proof.Machine

/-! ## Leaves of lists of trees -/

@[simp] theorem leavesIn_nil : leavesIn [] = [] := rfl

@[simp] theorem leavesIn_cons (t : Tree) (ts : List Tree) :
    leavesIn (t :: ts) = t.leaves ++ leavesIn ts := rfl

@[simp] theorem leavesIn_append (ts us : List Tree) :
    leavesIn (ts ++ us) = leavesIn ts ++ leavesIn us := by simp [leavesIn]

theorem leavesIn_perm {ts us : List Tree} (h : ts.Perm us) : (leavesIn ts).Perm (leavesIn us) :=
  List.Perm.flatMap_right _ h

/-! ## `LEAF_ORDER` -/

theorem insertByKey_perm (key : Nat → Nat) (v : Nat) (l : List Nat) :
    (insertByKey key v l).Perm (v :: l) := by
  induction l with
  | nil => exact List.Perm.refl _
  | cons u us ih =>
    unfold insertByKey
    split
    · exact List.Perm.refl _
    · exact (List.Perm.cons u ih).trans (List.Perm.swap v u us)

/-- Ordering by a key rearranges the symbols and loses none. -/
theorem orderByKey_perm (key : Nat → Nat) (l : List Nat) : (orderByKey key l).Perm l := by
  induction l with
  | nil => exact List.Perm.refl _
  | cons v vs ih => exact (insertByKey_perm key v _).trans (List.Perm.cons v ih)

theorem insertByKey_pairwise (key : Nat → Nat) (v : Nat) {l : List Nat}
    (h : l.Pairwise fun u w => key u ≤ key w) :
    (insertByKey key v l).Pairwise fun u w => key u ≤ key w := by
  induction l with
  | nil => simp [insertByKey]
  | cons u us ih =>
    rw [List.pairwise_cons] at h
    rw [insertByKey]
    split
    · rw [List.pairwise_cons, List.pairwise_cons]
      refine ⟨fun a ha => ?_, h⟩
      rcases List.mem_cons.mp ha with rfl | ha
      · omega
      · have := h.1 a ha
        omega
    · rw [List.pairwise_cons]
      refine ⟨fun a ha => ?_, ih h.2⟩
      rcases List.mem_cons.mp ((insertByKey_perm key v us).mem_iff.mp ha) with rfl | ha
      · omega
      · exact h.1 a ha

/-- The leaves enter in ascending order of their key (40 R106). -/
theorem orderByKey_pairwise (key : Nat → Nat) (l : List Nat) :
    (orderByKey key l).Pairwise fun u v => key u ≤ key v := by
  induction l with
  | nil => exact List.Pairwise.nil
  | cons v vs ih => exact insertByKey_pairwise key v ih

theorem mem_qualifying {tbl : CountTable} {v : Nat} :
    v ∈ qualifying tbl ↔ v ≤ 256 ∧ 0 < tbl.get v := by
  simp [qualifying, Nat.lt_succ_iff]

theorem qualifying_nodup (tbl : CountTable) : (qualifying tbl).Nodup :=
  List.Nodup.filter _ List.nodup_range

theorem qualifying_length_le (tbl : CountTable) : (qualifying tbl).length ≤ NSYM := by
  unfold qualifying
  refine (List.length_filter_le _ _).trans ?_
  simp

/-! ## The initial entries -/

@[simp] theorem enqueueLeaves_length (tbl : CountTable) (l : List Nat) (q : Nat) :
    (enqueueLeaves tbl l q).length = l.length := by
  induction l generalizing q with
  | nil => rfl
  | cons v vs ih => simp [enqueueLeaves, ih]

/-- The entries are numbered from `q` on, in order (40 R106). -/
theorem enqueueLeaves_seq (tbl : CountTable) (l : List Nat) (q : Nat) :
    (enqueueLeaves tbl l q).map PqEntry.seq = List.range' q l.length := by
  induction l generalizing q with
  | nil => rfl
  | cons v vs ih => simp [enqueueLeaves, ih, List.range'_succ]

theorem enqueueLeaves_leaves (tbl : CountTable) (l : List Nat) (q : Nat) :
    leavesIn ((enqueueLeaves tbl l q).map PqEntry.tree) = l.map symOf := by
  induction l generalizing q with
  | nil => rfl
  | cons v vs ih => simp [enqueueLeaves, ih, Tree.leaves]

/-- An entry is the leaf of a symbol, with its count (40 R106). -/
theorem mem_enqueueLeaves {tbl : CountTable} {l : List Nat} {q : Nat} {e : PqEntry}
    (h : e ∈ enqueueLeaves tbl l q) :
    ∃ v ∈ l, e.weight = tbl.get v ∧ e.tree = .leaf (symOf v) := by
  induction l generalizing q with
  | nil => simp [enqueueLeaves] at h
  | cons v vs ih =>
    simp only [enqueueLeaves, List.mem_cons] at h
    rcases h with rfl | h
    · exact ⟨v, by simp, rfl, rfl⟩
    · obtain ⟨u, hu, hw⟩ := ih h
      exact ⟨u, by simp [hu], hw⟩

theorem enqueueLeaves_eq_zipIdx (tbl : CountTable) (l : List Nat) (q : Nat) :
    enqueueLeaves tbl l q =
      (l.zipIdx q).map fun e => ⟨tbl.get e.1, e.2, .leaf (BitVec.ofNat 9 e.1)⟩ := by
  induction l generalizing q with
  | nil => rfl
  | cons v vs ih => simp [enqueueLeaves, ih, symOf]

theorem enqueueLeaves_weights (tbl : CountTable) (l : List Nat) (q : Nat) :
    (enqueueLeaves tbl l q).map PqEntry.weight = l.map tbl.get := by
  induction l generalizing q with
  | nil => rfl
  | cons v vs ih => simp [enqueueLeaves, ih]

theorem symOf_toNat {v : Nat} (h : v < 512) : (symOf v).toNat = v := by
  simp [symOf, Nat.mod_eq_of_lt h]

@[simp] theorem symOf_256 : symOf 256 = EOF_SYM := rfl

theorem symOf_inj {u v : Nat} (hu : u < 512) (hv : v < 512) (h : symOf u = symOf v) : u = v := by
  have := congrArg BitVec.toNat h
  rwa [symOf_toNat hu, symOf_toNat hv] at this

@[simp] theorem symOf_sym (y : Sym) : symOf y.toNat = y := by simp [symOf]

/-! ## The choice of a lightest entry -/

theorem mem_lightest {pq : List PqEntry} {e : PqEntry} :
    e ∈ lightest pq ↔ e ∈ pq ∧ ∀ e' ∈ pq, e.weight ≤ e'.weight := by
  simp [lightest]

theorem lightest_ne_nil {pq : List PqEntry} (h : pq ≠ []) : lightest pq ≠ [] := by
  obtain ⟨e, he, hmin⟩ : ∃ e ∈ pq, ∀ e' ∈ pq, e.weight ≤ e'.weight := by
    induction pq with
    | nil => exact absurd rfl h
    | cons a l ih =>
      by_cases hl : l = []
      · subst hl
        exact ⟨a, by simp, by simp⟩
      · obtain ⟨e, he, hmin⟩ := ih hl
        by_cases ha : a.weight ≤ e.weight
        · refine ⟨a, by simp, fun e' he' => ?_⟩
          rcases List.mem_cons.mp he' with rfl | he'
          · exact Nat.le_refl _
          · exact ha.trans (hmin e' he')
        · refine ⟨e, by simp [he], fun e' he' => ?_⟩
          rcases List.mem_cons.mp he' with rfl | he'
          · omega
          · exact hmin e' he'
  exact List.ne_nil_of_mem (mem_lightest.mpr ⟨he, hmin⟩)

/-- The chosen entry is one of least weight (40 R107). -/
theorem chooseLightest_mem {P : Policy} {pq : List PqEntry} {e : PqEntry}
    (h : chooseLightest P pq = some e) : e ∈ pq ∧ ∀ e' ∈ pq, e.weight ≤ e'.weight := by
  apply mem_lightest.mp
  unfold chooseLightest at h
  split at h
  · rename_i e' hl
    rw [Option.some.injEq] at h
    subst h
    simp [hl]
  · exact List.mem_of_getElem? h

/-- A policy that points at an entry of least weight removes it. -/
theorem chooseLightest_of_pick {P : Policy} {pq : List PqEntry} {e : PqEntry} (he : e ∈ pq)
    (hmin : ∀ e' ∈ pq, e.weight ≤ e'.weight) (hp : P.pick pq = (lightest pq).idxOf e) :
    chooseLightest P pq = some e := by
  have hm : e ∈ lightest pq := mem_lightest.mpr ⟨he, hmin⟩
  unfold chooseLightest
  split
  · rename_i e' h'
    rw [h', List.mem_singleton] at hm
    rw [hm]
  · have hlt := List.idxOf_lt_length_iff.mpr hm
    rw [hp, Nat.mod_eq_of_lt hlt]
    simp [List.getElem?_eq_getElem hlt]

/-- There is one to choose while an entry is left. -/
theorem chooseLightest_some (P : Policy) {pq : List PqEntry} (h : pq ≠ []) :
    ∃ e, chooseLightest P pq = some e := by
  unfold chooseLightest
  split
  · exact ⟨_, rfl⟩
  · have hlen : 0 < (lightest pq).length := List.length_pos_iff.mpr (lightest_ne_nil h)
    exact ⟨_, List.getElem?_eq_getElem (Nat.mod_lt _ hlen)⟩

/-! ## One merge -/

theorem joinPair_leaves (P : Policy) (a b : PqEntry) (q : Nat) :
    (joinPair P a b q).tree.leaves.Perm (a.tree.leaves ++ b.tree.leaves) := by
  unfold joinPair
  dsimp only
  split
  · exact List.perm_append_comm
  · exact List.Perm.refl _

/-- What a merge makes of the entries (40 R107). -/
theorem mergeStep_eq_some {P : Policy} {pq pq' : List PqEntry} {q : Nat}
    (h : mergeStep P pq q = some pq') :
    ∃ a b, chooseLightest P pq = some a ∧ chooseLightest P (pq.erase a) = some b ∧
      pq' = (pq.erase a).erase b ++ [joinPair P a b q] := by
  unfold mergeStep at h
  split at h
  · exact absurd h (by simp)
  · rename_i a ha
    split at h
    · exact absurd h (by simp)
    · rename_i b hb
      rw [Option.some.injEq] at h
      exact ⟨a, b, ha, hb, h.symm⟩

/-- With two entries or more a merge is made. -/
theorem mergeStep_some (P : Policy) {pq : List PqEntry} (q : Nat) (h : 2 ≤ pq.length) :
    ∃ pq', mergeStep P pq q = some pq' := by
  obtain ⟨a, ha⟩ := chooseLightest_some P (pq := pq) (by rintro rfl; simp at h)
  have hlen := List.length_erase_of_mem (chooseLightest_mem ha).1
  obtain ⟨b, hb⟩ := chooseLightest_some P (pq := pq.erase a) (by
    intro he
    rw [he] at hlen
    simp at hlen
    omega)
  exact ⟨_, by simp only [mergeStep, ha, hb]; rfl⟩

theorem erase_erase_perm {pq : List PqEntry} {a b : PqEntry} (ha : a ∈ pq)
    (hb : b ∈ pq.erase a) : pq.Perm (a :: b :: (pq.erase a).erase b) :=
  (List.perm_cons_erase ha).trans (List.Perm.cons a (List.perm_cons_erase hb))

/-- A merge lowers the number of entries by one (40 R108). -/
theorem mergeStep_length {P : Policy} {pq pq' : List PqEntry} {q : Nat}
    (h : mergeStep P pq q = some pq') : pq'.length + 1 = pq.length := by
  obtain ⟨a, b, ha, hb, rfl⟩ := mergeStep_eq_some h
  have hp := (erase_erase_perm (chooseLightest_mem ha).1 (chooseLightest_mem hb).1).length_eq
  simp only [List.length_cons] at hp
  simp only [List.length_append, List.length_cons, List.length_nil]
  omega

/-- A merge keeps the leaves (40 R111 (a)). -/
theorem mergeStep_leaves {P : Policy} {pq pq' : List PqEntry} {q : Nat}
    (h : mergeStep P pq q = some pq') :
    (leavesIn (pq'.map PqEntry.tree)).Perm (leavesIn (pq.map PqEntry.tree)) := by
  obtain ⟨a, b, ha, hb, rfl⟩ := mergeStep_eq_some h
  have hp := (erase_erase_perm (chooseLightest_mem ha).1 (chooseLightest_mem hb).1).map
    PqEntry.tree
  refine List.Perm.trans ?_ (leavesIn_perm hp).symm
  simp only [List.map_append, List.map_cons, List.map_nil, leavesIn_append, leavesIn_cons,
    leavesIn_nil, List.append_nil]
  refine List.perm_append_comm.trans ?_
  rw [← List.append_assoc]
  exact (joinPair_leaves P a b q).append_right _

/-- A merge keeps the numbering in order (10_state R26). -/
theorem mergeStep_seq {P : Policy} {pq pq' : List PqEntry} {q : Nat}
    (h : mergeStep P pq q = some pq') (hs : (pq.map PqEntry.seq).Pairwise (· < ·))
    (hq : ∀ e ∈ pq, e.seq < q) :
    (pq'.map PqEntry.seq).Pairwise (· < ·) ∧ ∀ e ∈ pq', e.seq < q + 1 := by
  obtain ⟨a, b, -, -, rfl⟩ := mergeStep_eq_some h
  have hsub : ((pq.erase a).erase b).Sublist pq := List.erase_sublist.trans List.erase_sublist
  have hlt : ∀ e ∈ (pq.erase a).erase b, e.seq < q := fun e he => hq e (hsub.subset he)
  constructor
  · rw [List.map_append, List.pairwise_append]
    refine ⟨(hs.sublist (hsub.map _)), by simp, ?_⟩
    intro x hx y hy
    obtain ⟨e, he, rfl⟩ := List.mem_map.mp hx
    simp only [List.map_cons, List.map_nil, List.mem_singleton] at hy
    subst hy
    exact hlt e he
  · intro e he
    rcases List.mem_append.mp he with he | he
    · exact Nat.lt_succ_of_lt (hlt e he)
    · rw [List.mem_singleton] at he
      subst he
      exact Nat.lt_succ_self q

end Sys2Proof.Machine
end

