-- ==== Sys2Proof/Laws/Decode.lean ====
section
/-! SUPPORT. The decoder on what the encoder writes, one lemma per kind of item (30_encoding). -/

namespace Sys2Proof

theorem ofNat_valOf_bitsOf {n : Nat} (w : BitVec n) : BitVec.ofNat n (valOf (bitsOf n w.toNat)) = w := by
  rw [valOf_bitsOf_of_lt w.isLt]
  simp

theorem take_bitsOf_append (n v : Nat) (x : Bits) : (bitsOf n v ++ x).take n = bitsOf n v := by
  rw [List.take_append_of_le_length (by simp), List.take_of_length_le (by simp)]

theorem drop_bitsOf_append (n v : Nat) (x : Bits) : (bitsOf n v ++ x).drop n = x := by
  rw [List.drop_append_of_le_length (by simp), List.drop_of_length_le (by simp), List.nil_append]

@[simp] theorem decodeCommand_code_nop : decodeCommand Command.nop.code = .nop := rfl
@[simp] theorem decodeCommand_code_compress : decodeCommand Command.compress.code = .compress := rfl
@[simp] theorem decodeCommand_code_decompress : decodeCommand Command.decompress.code = .decompress := rfl
@[simp] theorem decodeCommand_code_tbRun : decodeCommand Command.tbRun.code = .tbRun := rfl
@[simp] theorem decodeCommand_code_hsRun : decodeCommand Command.hsRun.code = .hsRun := rfl
@[simp] theorem decodeCommand_code_hdRun : decodeCommand Command.hdRun.code = .hdRun := rfl
@[simp] theorem decodeCommand_code_encRun : decodeCommand Command.encRun.code = .encRun := rfl
@[simp] theorem decodeCommand_code_decRun : decodeCommand Command.decRun.code = .decRun := rfl

/-- Any three bits on the port are the command with that code. -/
theorem decode_command_append (magic : Word32) (w : BitVec 3) (x : Bits) :
    decodeFor magic .command (bitsOf 3 w.toNat ++ x) = .ok (decodeCommand w, x) := by
  have hlen : ¬ (bitsOf 3 w.toNat ++ x).length < 3 := by simp
  simp only [decodeFor, if_neg hlen, take_bitsOf_append, drop_bitsOf_append, ofNat_valOf_bitsOf]

theorem decodeMagic_append (magic w : Word32) (x : Bits) :
    decodeMagic magic (bitsOf 32 w.toNat ++ x) = (if w = magic then .magic else .magicBad w, x) := by
  have hlen : ¬ (bitsOf 32 w.toNat ++ x).length < 32 := by simp
  simp only [decodeMagic, if_neg hlen, take_bitsOf_append, drop_bitsOf_append, ofNat_valOf_bitsOf]

theorem decodeMagic_short (magic : Word32) {x : Bits} (h : x.length < 32) :
    decodeMagic magic x = (.eodAtMagic, x) := by
  simp [decodeMagic, h]

@[simp] theorem decodeHeader_nil : decodeHeader [] = (.eodAtHdrTag, []) := rfl

@[simp] theorem decodeHeader_false (x : Bits) : decodeHeader (false :: x) = (.n, x) := rfl

theorem decodeHeader_leaf (y : Sym) (x : Bits) :
    decodeHeader (true :: (bitsOf 9 y.toNat ++ x)) =
      (if y.toNat ≤ 256 then .l y else .lReserved y, x) := by
  have hlen : ¬ (bitsOf 9 y.toNat ++ x).length < 9 := by simp
  simp only [decodeHeader, if_neg hlen, take_bitsOf_append, drop_bitsOf_append, ofNat_valOf_bitsOf]

theorem decodeHeader_short {x : Bits} (h : x.length < 9) :
    decodeHeader (true :: x) = (.eodAtHdrSym, x) := by
  simp [decodeHeader, h]

/-- Walking the path of a leaf ends at that leaf and nowhere before. -/
theorem walkCode_append {t : Tree} {p : Bits} {y : Sym} (h : t.sub p = some (.leaf y)) (x : Bits) :
    walkCode t (p ++ x) = some (p, x) := by
  induction p generalizing t with
  | nil => simp only [Tree.sub_nil, Option.some.injEq] at h; subst h; rfl
  | cons b p ih =>
    cases t with
    | leaf z => simp at h
    | node l r =>
      cases b with
      | false => simp [walkCode, ih (t := l) h]
      | true => simp [walkCode, ih (t := r) h]

/-- What `walkCode` answers is a path to a leaf, and it takes nothing else from the bits. -/
theorem walkCode_some {t : Tree} {x p rest : Bits} (h : walkCode t x = some (p, rest)) :
    x = p ++ rest ∧ ∃ y, t.sub p = some (.leaf y) := by
  induction t generalizing x p with
  | leaf y =>
    simp only [walkCode, Option.some.injEq, Prod.mk.injEq] at h
    obtain ⟨rfl, rfl⟩ := h
    exact ⟨rfl, y, rfl⟩
  | node l r ihl ihr =>
    cases x with
    | nil => simp [walkCode] at h
    | cons b x =>
      cases b with
      | false =>
        simp only [walkCode, Option.map_eq_some_iff, Prod.mk.injEq, Prod.exists] at h
        obtain ⟨q, rest', hq, rfl, rfl⟩ := h
        obtain ⟨rfl, hy⟩ := ihl hq
        exact ⟨rfl, hy⟩
      | true =>
        simp only [walkCode, Option.map_eq_some_iff, Prod.mk.injEq, Prod.exists] at h
        obtain ⟨q, rest', hq, rfl, rfl⟩ := h
        obtain ⟨rfl, hy⟩ := ihr hq
        exact ⟨rfl, hy⟩

end Sys2Proof
end

