-- ==== Sys2Proof/Laws/Items.lean ====
section
/-! SUPPORT. What stands next in the source and what the fetch makes of it: the reads of the four widths as facts about the unread bits, and the item each reading phase fetches. -/

namespace Sys2Proof.Machine

/-! ## Reads of one bit, of nine and of thirty-two -/

theorem srcPeek_one {s : State} {b : Bool} :
    srcPeek 1 s = some b.toNat ↔ ∃ y, s.unread = b :: y := by
  rw [srcPeek_eq_some Nat.one_pos]
  constructor
  · rintro ⟨x, y, h, hx, hv⟩
    obtain ⟨c, rfl⟩ := List.length_eq_one_iff.mp hx
    rw [valOf_singleton] at hv
    obtain rfl : c = b := by cases c <;> cases b <;> simp_all
    exact ⟨y, h⟩
  · rintro ⟨y, h⟩
    exact ⟨[b], y, h, rfl, valOf_singleton b⟩

theorem srcPeek_one_none {s : State} : srcPeek 1 s = none ↔ s.unread = [] := by
  rw [srcPeek_eq_none Nat.one_pos, Nat.lt_one_iff, List.length_eq_zero_iff]

theorem srcAfter_one_unread {s : State} {b : Bool} {y : Bits} (h : s.unread = b :: y) :
    (srcAfter 1 s).unread = y := (srcAfter_of_unread (x := [b]) h Nat.one_pos).2

theorem srcPeek_word {n : Nat} (hn : 0 < n) {s : State} {w : BitVec n} :
    srcPeek n s = some w.toNat ↔ ∃ y, s.unread = bitsOf n w.toNat ++ y := by
  rw [srcPeek_eq_some hn]
  constructor
  · rintro ⟨x, y, h, hx, hv⟩
    refine ⟨y, ?_⟩
    rw [h, ← hv, ← hx, bitsOf_valOf]
  · rintro ⟨y, h⟩
    exact ⟨_, y, h, bitsOf_length n _, valOf_bitsOf_of_lt w.isLt⟩

/-- A read of `n` bits that answers a value answers that of a word of `n` bits. -/
theorem srcPeek_some_word {n v : Nat} (hn : 0 < n) {s : State} (h : srcPeek n s = some v) :
    ∃ w : BitVec n, v = w.toNat := by
  have hlt := srcPeek_lt hn h
  exact ⟨BitVec.ofNat n v, by simp [Nat.mod_eq_of_lt hlt]⟩

theorem srcAfter_word_unread {n : Nat} (hn : 0 < n) {s : State} {w : BitVec n} {y : Bits}
    (h : s.unread = bitsOf n w.toNat ++ y) : (srcAfter n s).unread = y := by
  have := (srcAfter_of_unread h (by rw [bitsOf_length]; exact hn)).2
  rwa [bitsOf_length] at this

theorem srcAfter_bit {s : State} {b : Bool} {y : Bits} (h : s.unread = b :: y) :
    srcAfter 1 s =
      { s with
        src := ⟨s.src.bits, s.src.pos + 1⟩
        trace := s.trace ++ [.srcRead 1 (some b.toNat)] } := by
  rw [srcAfter_eq (n := 1) (x := [b]) h rfl Nat.one_pos, valOf_singleton]

theorem srcAfter_word {n : Nat} (hn : 0 < n) {s : State} {w : BitVec n} {y : Bits}
    (h : s.unread = bitsOf n w.toNat ++ y) :
    srcAfter n s =
      { s with
        src := ⟨s.src.bits, s.src.pos + n⟩
        trace := s.trace ++ [.srcRead n (some w.toNat)] } := by
  rw [srcAfter_eq h (bitsOf_length n _) hn, valOf_bitsOf_of_lt w.isLt]

/-- A tag bit and the nine bits of a symbol (42 R132, R135). -/
theorem srcAfter_leaf {s : State} {w : Sym} {y : Bits}
    (h : s.unread = true :: (bitsOf 9 w.toNat ++ y)) :
    srcPeek 1 s = some 1 ∧ srcPeek 9 (srcAfter 1 s) = some w.toNat ∧
      srcAfter 9 (srcAfter 1 s) =
        { s with
          src := ⟨s.src.bits, s.src.pos + 10⟩
          trace := s.trace ++ [.srcRead 1 (some 1), .srcRead 9 (some w.toNat)] } := by
  have h1 := srcAfter_one_unread h
  refine ⟨srcPeek_one.mpr ⟨_, h⟩, (srcPeek_word (by decide)).mpr ⟨_, h1⟩, ?_⟩
  rw [srcAfter_word (by decide) h1, srcAfter_bit h]
  simp

/-! ## The item a reading phase fetches -/

theorem readItem_magic_word {s : State} {w : Word32} (h : srcPeek 32 s = some w.toNat) :
    readItem .magic s = some (if w = Config.magic then .magic else .magicBad w) := by
  obtain ⟨y, hy⟩ := (srcPeek_word (by decide)).mp h
  simp only [readItem, hy, decode, decodeFor, decodeMagic_append]

theorem readItem_magic_eod {s : State} (h : srcPeek 32 s = none) :
    readItem .magic s = some .eodAtMagic := by
  have hl := (srcPeek_eq_none (by decide)).mp h
  simp only [readItem, decode, decodeFor, decodeMagic_short _ hl]

theorem readItem_header_eod {s : State} (h : srcPeek 1 s = none) :
    readItem .header s = some .eodAtHdrTag := by
  simp only [readItem, srcPeek_one_none.mp h, decode, decodeFor, decodeHeader_nil]

theorem readItem_header_node {s : State} (h : srcPeek 1 s = some 0) :
    readItem .header s = some .n := by
  obtain ⟨y, hy⟩ := (srcPeek_one (b := false)).mp h
  simp only [readItem, hy, decode, decodeFor, decodeHeader_false]

theorem readItem_header_short {s : State} (h : srcPeek 1 s = some 1)
    (h9 : srcPeek 9 (srcAfter 1 s) = none) : readItem .header s = some .eodAtHdrSym := by
  obtain ⟨y, hy⟩ := (srcPeek_one (b := true)).mp h
  have hl := (srcPeek_eq_none (by decide)).mp h9
  rw [srcAfter_one_unread hy] at hl
  simp only [readItem, hy, decode, decodeFor, decodeHeader_short hl]

theorem readItem_header_leaf {s : State} {y : Sym} (h : srcPeek 1 s = some 1)
    (h9 : srcPeek 9 (srcAfter 1 s) = some y.toNat) :
    readItem .header s = some (if y.toNat ≤ 256 then .l y else .lReserved y) := by
  obtain ⟨x, hx⟩ := (srcPeek_one (b := true)).mp h
  obtain ⟨z, hz⟩ := (srcPeek_word (by decide)).mp h9
  rw [srcAfter_one_unread hx] at hz
  simp only [readItem, hx, hz, decode, decodeFor, decodeHeader_leaf]

theorem readItem_body_bit {s : State} {b : Bool} (h : srcPeek 1 s = some b.toNat) :
    readItem .bodyBit s = some (.c [b]) := by
  obtain ⟨y, hy⟩ := srcPeek_one.mp h
  simp only [readItem, hy, decode, decodeFor, decodeBodyBit]

theorem readItem_body_eod {s : State} (h : srcPeek 1 s = none) :
    readItem .bodyBit s = some .eodAtBody := by
  simp only [readItem, srcPeek_one_none.mp h, decode, decodeFor, decodeBodyBit]

/-- A one-bit read answers 0, 1 or `EOD`. -/
theorem srcPeek_one_cases (s : State) :
    srcPeek 1 s = none ∨ srcPeek 1 s = some 0 ∨ srcPeek 1 s = some 1 := by
  cases h : srcPeek 1 s with
  | none => exact .inl rfl
  | some v =>
    have hlt := srcPeek_lt Nat.one_pos h
    have : v = 0 ∨ v = 1 := by omega
    rcases this with rfl | rfl <;> simp

/-- What stands after the next `n` bits, as a suffix of the source. -/
theorem drop_of_unread {n : Nat} {s : State} {x y : Bits} (h : s.unread = x ++ y)
    (hx : x.length = n) : s.src.bits.drop (s.src.pos + n) = y := by
  rw [← List.drop_drop]
  rw [State.unread] at h
  rw [h, ← hx, List.drop_left]

end Sys2Proof.Machine
end

