-- ==== Sys2Proof/Laws/Step.lean ====
section
/-! SUPPORT. What one step can do, said once: `StepCase` has one constructor per rule of the spec that can fire, with the conditions under which it fires and the state it leaves; `step_eq_next_iff` says that a quiet step answers a next state exactly in these cases. -/

namespace Sys2Proof.Machine

/-- The state after a code has gone to the sink; a code of length 0 makes no transaction (43 R156). -/
def emitted (p : Bits) (s : State) : State :=
  match p with
  | [] => s
  | b :: q => snkAppend (b :: q) (.snkWritePath (b :: q)) s

/-- The same as one update. -/
theorem emitted_eq (p : Bits) (s : State) :
    emitted p s =
      { s with
        snk := ⟨s.snk.bits ++ p, s.snk.closed⟩
        trace := s.trace ++ (if p = [] then [] else [.snkWritePath p]) } := by
  cases p <;> simp [emitted, snkAppend]

/-- The transactions are those of `codeWrites` (43 R156, R157). -/
theorem emitted_eq_codeWrites (p : Bits) (s : State) :
    emitted p s =
      { s with
        snk := ⟨s.snk.bits ++ p, s.snk.closed⟩
        trace := s.trace ++ codeWrites p } := by
  cases p <;> simp [emitted, snkAppend, codeWrites]

theorem emitCode_eq_next {p : Bits} {s s' : State} :
    emitCode p s = .next s' ↔ (p ≠ [] → s.snk.closed = false) ∧ s' = emitted p s := by
  cases p with
  | nil =>
    simp only [emitCode, emitted, ne_eq, not_true_eq_false, false_implies, true_and,
      Host.Outcome.next.injEq]
    exact eq_comm
  | cons b q => simp [emitCode, emitted, snkWritePath_eq_next]

/-- The child of `node l r` on the side of the bit `b` (44 R175). -/
def childOf (b : Bool) (l r : Tree) : Tree := if b then r else l

/-- One constructor per rule that can fire while no input of the host is pending. -/
inductive StepCase (s : State) : State → Prop where
  /-- 10_state R31, 60_exceptions R207 -/
  | wait (hp : s.phase = .idle ∨ s.phase = .done ∨ s.phase = .fault) : StepCase s s
  /-- 40 R102 -/
  | countByte (v : Nat) (hp : s.phase = .tbCount) (hv : srcPeek 8 s = some v) :
      StepCase s (writeCount v (s.count.get v + 1) (srcAfter 8 s))
  /-- 40 R103 -/
  | countEnd (hp : s.phase = .tbCount) (hv : srcPeek 8 s = none) :
      StepCase s (setPhase .tbInit (markCounted (writeCount 256 1 (srcAfter 8 s))))
  /-- 40 R106 -/
  | init (hp : s.phase = .tbInit) :
      StepCase s (setPhase .tbMerge
        (setQueue
          (enqueueLeaves s.count (orderByKey Config.policy.leafKey (qualifying s.count)) 0)
          (orderByKey Config.policy.leafKey (qualifying s.count)).length s))
  /-- 40 R107 -/
  | merge (pq : List PqEntry) (hp : s.phase = .tbMerge) (h2 : 2 ≤ s.pq.length)
      (hm : mergeStep Config.policy s.pq s.seq = some pq) :
      StepCase s (setQueue pq (s.seq + 1) s)
  /-- 40 R108 -/
  | built (e : PqEntry) (p : Phase) (hp : s.phase = .tbMerge) (hq : s.pq = [e])
      (hn : nextPhase s.cmd .tbMerge = some p) :
      StepCase s (setPhase p (setQueue [] s.seq (writeTree e.tree .built s)))
  /-- 43 R154 -/
  | magicWrite (hp : s.phase = .encMagic) (ho : s.snk.closed = false) :
      StepCase s (setPhase .hsWalk
        (snkAppend (bitsOf 32 Config.magic.toNat) (.snkWrite 32 Config.magic.toNat) s))
  /-- 41 R122 -/
  | hsNode (l r : Tree) (rest : List Tree) (hp : s.phase = .hsWalk)
      (ht : hsPending s = some (.node l r :: rest)) (ho : s.snk.closed = false) :
      StepCase s (setHsStack (l :: r :: rest) (snkAppend (bitsOf 1 0) (.snkWrite 1 0) s))
  /-- 41 R123 -/
  | hsLeaf (y : Sym) (t : Tree) (rest : List Tree) (hp : s.phase = .hsWalk)
      (ht : hsPending s = some (.leaf y :: t :: rest)) (ho : s.snk.closed = false) :
      StepCase s
        (setHsStack (t :: rest)
          (snkAppend (bitsOf 9 y.toNat) (.snkWrite 9 y.toNat)
            (snkAppend (bitsOf 1 1) (.snkWrite 1 1) s)))
  /-- 41 R123, R124 -/
  | hsLast (y : Sym) (p : Phase) (hp : s.phase = .hsWalk)
      (ht : hsPending s = some [.leaf y]) (ho : s.snk.closed = false)
      (hn : nextPhase s.cmd .hsWalk = some p) :
      StepCase s (setPhase p
        (setHsStack []
          (snkAppend (bitsOf 9 y.toNat) (.snkWrite 9 y.toNat)
            (snkAppend (bitsOf 1 1) (.snkWrite 1 1) s))))
  /-- 43 R152 -/
  | encTable (t : Tree) (hp : s.phase = .encTable) (ht : readTree s = some t) :
      StepCase s (setPhase .encRewind (markTable (encVisits t.nodes (startTableWalk t s))))
  /-- 43 R155 -/
  | rewind (hp : s.phase = .encRewind) : StepCase s (setPhase .encBody (srcRewind s))
  /-- 43 R156 -/
  | bodyCode (v : Nat) (p : Bits) (hp : s.phase = .encBody) (hv : srcPeek 8 s = some v)
      (hc : s.code.get v = some p) (ho : p ≠ [] → s.snk.closed = false) :
      StepCase s (emitted p (srcAfter 8 s))
  /-- 43 R156, on `EOD` -/
  | bodyEnd (hp : s.phase = .encBody) (hv : srcPeek 8 s = none) :
      StepCase s (setPhase .encEof (srcAfter 8 s))
  /-- 43 R157 -/
  | eofCode (p : Bits) (hp : s.phase = .encEof) (hc : s.code.get 256 = some p)
      (ho : p ≠ [] → s.snk.closed = false) :
      StepCase s (setPhase .encClose (emitted p s))
  /-- 43 R158, 44 R176 -/
  | close (hp : s.phase = .encClose ∨ s.phase = .decClose) (ho : s.snk.closed = false) :
      StepCase s (setPhase .done (snkPadded s))
  /-- 44 R172 -/
  | magicRead (hp : s.phase = .decMagic) (hv : srcPeek 32 s = some Config.magic.toNat) :
      StepCase s (setPhase .hdWalk (srcAfter 32 s))
  /-- 44 R172, mismatch -/
  | magicBad (w : Word32) (hp : s.phase = .decMagic) (hv : srcPeek 32 s = some w.toNat)
      (hw : w ≠ Config.magic) :
      StepCase s (raise .malformedHeader .magicMismatch w (srcAfter 32 s))
  /-- 44 R172, `EOD` -/
  | magicEod (hp : s.phase = .decMagic) (hv : srcPeek 32 s = none) :
      StepCase s (raise .truncatedStream .eodMagic 0 (srcAfter 32 s))
  /-- 42 R132, `EOD` -/
  | hdEodTag (hp : s.phase = .hdWalk) (h0 : s.need ≠ 0) (hv : srcPeek 1 s = none) :
      StepCase s (raise .truncatedStream .eodHdrTag 0 (srcAfter 1 s))
  /-- 42 R134 -/
  | hdCapacity (hp : s.phase = .hdWalk) (h0 : s.need ≠ 0) (hv : srcPeek 1 s = some 0)
      (hc : s.leafCnt + s.need = NSYM) :
      StepCase s (raise .malformedHeader .capacity 0 (srcAfter 1 s))
  /-- 42 R133 -/
  | hdNode (hp : s.phase = .hdWalk) (h0 : s.need ≠ 0) (hv : srcPeek 1 s = some 0)
      (hc : s.leafCnt + s.need ≠ NSYM) :
      StepCase s
        (setHdStack (.awaitLeft :: s.hdStack) (setHdCounts s.leafCnt (s.need + 1) (srcAfter 1 s)))
  /-- 42 R135, `EOD` -/
  | hdEodSym (hp : s.phase = .hdWalk) (h0 : s.need ≠ 0) (hv : srcPeek 1 s = some 1)
      (h9 : srcPeek 9 (srcAfter 1 s) = none) :
      StepCase s (raise .truncatedStream .eodHdrSym 0 (srcAfter 9 (srcAfter 1 s)))
  /-- 42 R135, range -/
  | hdRange (y : Sym) (hp : s.phase = .hdWalk) (h0 : s.need ≠ 0) (hv : srcPeek 1 s = some 1)
      (h9 : srcPeek 9 (srcAfter 1 s) = some y.toNat) (hy : 256 < y.toNat) :
      StepCase s
        (raise .malformedHeader .symbolRange (zext32 y) (srcAfter 9 (srcAfter 1 s)))
  /-- 42 R135, R136: more of the header to read -/
  | hdLeaf (y : Sym) (stack : List HdFrame) (hp : s.phase = .hdWalk) (h0 : s.need ≠ 0)
      (hv : srcPeek 1 s = some 1) (h9 : srcPeek 9 (srcAfter 1 s) = some y.toNat)
      (hy : y.toNat ≤ 256) (hr : hdReduce s.hdStack (.leaf y) = .pending stack) :
      StepCase s
        (setHdStack stack
          (setHdCounts (s.leafCnt + 1) (s.need - 1) (srcAfter 9 (srcAfter 1 s))))
  /-- 42 R135, R136: the header is complete -/
  | hdLast (y : Sym) (t : Tree) (p : Phase) (hp : s.phase = .hdWalk) (h0 : s.need ≠ 0)
      (hv : srcPeek 1 s = some 1) (h9 : srcPeek 9 (srcAfter 1 s) = some y.toNat)
      (hy : y.toNat ≤ 256) (hr : hdReduce s.hdStack (.leaf y) = .closed t)
      (hn : nextPhase s.cmd .hdWalk = some p) :
      StepCase s (setPhase p
        (setHdStack []
          (writeTree t .read
            (setHdCounts (s.leafCnt + 1) (s.need - 1) (srcAfter 9 (srcAfter 1 s))))))
  /-- 44 R174, internal root -/
  | startNode (l r : Tree) (hp : s.phase = .decStart) (ht : readTree s = some (.node l r)) :
      StepCase s (setPhase .decWalk (setCur (.node l r) s))
  /-- 44 R174, the sentinel alone -/
  | startEof (hp : s.phase = .decStart) (ht : readTree s = some (.leaf EOF_SYM)) :
      StepCase s (setPhase .decClose (setCur (.leaf EOF_SYM) s))
  /-- 44 R174, a byte leaf -/
  | startByte (y : Sym) (hp : s.phase = .decStart) (ht : readTree s = some (.leaf y))
      (hy : y.toNat ≤ 255) :
      StepCase s
        (raise .malformedHeader .leafRoot (zext32 y) (setCur (.leaf y) s))
  /-- 44 R175, to an internal node -/
  | bitNode (b : Bool) (l r l' r' : Tree) (hp : s.phase = .decWalk)
      (hc : s.cur = some (.node l r)) (hv : srcPeek 1 s = some b.toNat)
      (hx : childOf b l r = .node l' r') :
      StepCase s (setCur (.node l' r') (srcAfter 1 s))
  /-- 44 R175, to the sentinel -/
  | bitEof (b : Bool) (l r : Tree) (hp : s.phase = .decWalk)
      (hc : s.cur = some (.node l r)) (hv : srcPeek 1 s = some b.toNat)
      (hx : childOf b l r = .leaf EOF_SYM) :
      StepCase s (setPhase .decClose (srcAfter 1 s))
  /-- 44 R175, to a byte leaf -/
  | bitByte (b : Bool) (l r : Tree) (y : Sym) (t : Tree) (hp : s.phase = .decWalk)
      (hc : s.cur = some (.node l r)) (hv : srcPeek 1 s = some b.toNat)
      (hx : childOf b l r = .leaf y) (hy : y.toNat ≤ 255) (ht : readTree s = some t)
      (ho : s.snk.closed = false) :
      StepCase s
        (setCur t (snkAppend (bitsOf 8 y.toNat) (.snkWrite 8 y.toNat) (srcAfter 1 s)))
  /-- 44 R175, `EOD` -/
  | bitEod (l r : Tree) (hp : s.phase = .decWalk) (hc : s.cur = some (.node l r))
      (hv : srcPeek 1 s = none) :
      StepCase s (raise .truncatedStream .eodBody 0 (srcAfter 1 s))

/-! ## The step, input by input -/

theorem step_reset {s : State} (h : s.rst = true) : step s = .next (resetCore s) := by
  simp [step, h]

theorem step_command {s : State} {w : BitVec 3} (h : s.rst = false) (hw : s.cmdPort = some w) :
    step s = exec (decodeCommand w) (clearPort s) := by
  simp [step, h, hw]

theorem step_item {s : State} {i : Instr} (hq : Quiet s) (hi : nextItem s = some i) :
    step s = exec i s := by
  simp [step, hq.1, hq.2, hi]

theorem step_rule {s : State} (hq : Quiet s) (hi : nextItem s = none) : step s = fireRule s := by
  simp [step, hq.1, hq.2, hi]

/-! ## Each case fires -/

theorem ne_eof_of_le {y : Sym} (h : y.toNat ≤ 255) : y ≠ EOF_SYM := by
  rintro rfl
  simp [EOF_SYM] at h

@[simp] theorem eof_toNat : EOF_SYM.toNat = 256 := rfl

theorem decArrive_node {l r : Tree} (s : State) :
    decArrive (.node l r) s = .next (setCur (.node l r) s) := rfl

theorem decArrive_eof (s : State) :
    decArrive (.leaf EOF_SYM) s = .next (setPhase .decClose s) := by
  simp [decArrive]

theorem decArrive_byte {y : Sym} {t : Tree} {s : State} (hy : y.toNat ≤ 255)
    (ht : readTree s = some t) (ho : s.snk.closed = false) :
    decArrive (.leaf y) s =
      .next (setCur t (snkAppend (bitsOf 8 y.toNat) (.snkWrite 8 y.toNat) s)) := by
  simp [decArrive, ne_eof_of_le hy, hy, ht, snkWrite_open _ _ ho]

/-- The body bit `b` at the internal node `l`, `r` (44 R175). -/
theorem decWalkBit_eq {s : State} {b : Bool} {l r : Tree} (hc : s.cur = some (.node l r))
    (hv : srcPeek 1 s = some b.toNat) :
    decWalkBit b s = decArrive (childOf b l r) (srcAfter 1 s) := by
  simp [decWalkBit, hc, srcRead_eq, hv, childOf]

theorem readTree_srcAfter (n : Nat) (s : State) : readTree (srcAfter n s) = readTree s := rfl

theorem exec_bit {s : State} {b : Bool} (hp : s.phase = .decWalk) :
    exec (.c [b]) s = decWalkBit b s := by
  cases h : decWalkBit b s <;> simp [exec, execC, hp, decWalkBits, h, andThen]

theorem step_of_case {s s' : State} (hq : Quiet s) (h : StepCase s s') : step s = .next s' := by
  cases h with
  | wait hp =>
    rcases hp with hp | hp | hp <;>
      rw [step_rule hq (by simp [nextItem, hp])] <;> simp [fireRule, hp]
  | countByte v hp hv =>
    rw [step_rule hq (by simp [nextItem, hp])]
    simp [fireRule, hp, fireTbCount, srcRead_eq, hv]
  | countEnd hp hv =>
    rw [step_rule hq (by simp [nextItem, hp])]
    simp [fireRule, hp, fireTbCount, srcRead_eq, hv]
  | init hp =>
    rw [step_rule hq (by simp [nextItem, hp])]
    simp [fireRule, hp, fireTbInit]
  | merge pq hp h2 hm =>
    rw [step_rule hq (by simp [nextItem, hp])]
    obtain ⟨a, b, rest, hab⟩ : ∃ a b rest, s.pq = a :: b :: rest := by
      match hpq : s.pq, h2 with
      | a :: b :: rest, _ => exact ⟨a, b, rest, rfl⟩
    rw [hab] at hm
    simp [fireRule, hp, fireTbMerge, hab, hm]
  | built e p hp hpq hn =>
    rw [step_rule hq (by simp [nextItem, hp])]
    simp [fireRule, hp, fireTbMerge, hpq, phaseComplete, hn]
  | magicWrite hp ho =>
    rw [step_item hq (i := .magic) (by simp [nextItem, hp])]
    simp [exec, execMagic, hp, encWriteMagic, snkWrite_open _ _ ho]
  | hsNode l r rest hp ht ho =>
    rw [step_item hq (i := .n) (by simp [nextItem, hp, nextHeaderItem, ht])]
    simp [exec, execN, hp, hsWriteNode, ht, snkWrite_open _ _ ho]
  | hsLeaf y t rest hp ht ho =>
    rw [step_item hq (i := .l y) (by simp [nextItem, hp, nextHeaderItem, ht])]
    simp [exec, execL, hp, hsWriteLeaf, ht, snkWrite_open _ _ ho, snkWrite_open, ho]
  | hsLast y p hp ht ho hn =>
    rw [step_item hq (i := .l y) (by simp [nextItem, hp, nextHeaderItem, ht])]
    simp [exec, execL, hp, hsWriteLeaf, ht, snkWrite_open _ _ ho, snkWrite_open, ho,
      phaseComplete, hn]
  | encTable t hp ht =>
    rw [step_rule hq (by simp [nextItem, hp])]
    simp [fireRule, hp, fireEncTable, ht]
  | rewind hp =>
    rw [step_rule hq (by simp [nextItem, hp])]
    simp [fireRule, hp, fireEncRewind]
  | bodyCode v p hp hv hc ho =>
    rw [step_item hq (i := .c p) (by simp [nextItem, hp, nextBodyCode, hv, hc])]
    have he : emitCode p (srcAfter 8 s) = .next (emitted p (srcAfter 8 s)) :=
      emitCode_eq_next.mpr ⟨fun hne => ho hne, rfl⟩
    simp [exec, execC, hp, encWriteByte, srcRead_eq, hv, hc, he]
  | bodyEnd hp hv =>
    rw [step_rule hq (by simp [nextItem, hp, nextBodyCode, hv])]
    simp [fireRule, hp, fireEncBody, srcRead_eq, hv]
  | eofCode p hp hc ho =>
    rw [step_item hq (i := .c p) (by simp [nextItem, hp, hc])]
    have he : emitCode p s = .next (emitted p s) := emitCode_eq_next.mpr ⟨ho, rfl⟩
    simp [exec, execC, hp, encWriteEof, hc, he]
  | close hp ho =>
    rcases hp with hp | hp <;>
      rw [step_item hq (i := .pad (padLen s.snk.bits.length)) (by simp [nextItem, hp])] <;>
      simp [exec, execPad, hp, closeSink, snkClose_open ho]
  | magicRead hp hv =>
    rw [step_item hq (i := .magic) (by simp [nextItem, hp, readItem_magic_word hv])]
    simp [exec, execMagic, hp, decReadMagic, srcRead_eq, hv]
  | magicBad w hp hv hw =>
    rw [step_item hq (i := .magicBad w) (by simp [nextItem, hp, readItem_magic_word hv, hw])]
    simp [exec, execMagicBad, hp, decReadMagic, srcRead_eq, hv, hw]
  | magicEod hp hv =>
    rw [step_item hq (i := .eodAtMagic) (by simp [nextItem, hp, readItem_magic_eod hv])]
    simp [exec, execEodAtMagic, hp, decEodMagic, srcRead_eq, hv]
  | hdEodTag hp h0 hv =>
    rw [step_item hq (i := .eodAtHdrTag) (by simp [nextItem, hp, readItem_header_eod hv])]
    simp [exec, execEodAtHdrTag, hp, hdEodTag, h0, srcRead_eq, hv]
  | hdCapacity hp h0 hv hc =>
    rw [step_item hq (i := .n) (by simp [nextItem, hp, readItem_header_node hv])]
    simp [exec, execN, hp, hdReadNode, h0, srcRead_eq, hv, hc]
  | hdNode hp h0 hv hc =>
    rw [step_item hq (i := .n) (by simp [nextItem, hp, readItem_header_node hv])]
    simp [exec, execN, hp, hdReadNode, h0, srcRead_eq, hv, hc]
  | hdEodSym hp h0 hv h9 =>
    rw [step_item hq (i := .eodAtHdrSym) (by simp [nextItem, hp, readItem_header_short hv h9])]
    simp [exec, execEodAtHdrSym, hp, hdEodSym, h0, srcRead_eq, hv, h9]
  | hdRange y hp h0 hv h9 hy =>
    rw [step_item hq (i := .lReserved y)
      (by simp [nextItem, hp, readItem_header_leaf hv h9, Nat.not_le.mpr hy])]
    simp [exec, execLReserved, hp, hdReadLeaf, h0, srcRead_eq, hv, h9, hy]
  | hdLeaf y stack hp h0 hv h9 hy hr =>
    rw [step_item hq (i := .l y) (by simp [nextItem, hp, readItem_header_leaf hv h9, hy])]
    simp [exec, execL, hp, hdReadLeaf, h0, srcRead_eq, hv, h9, Nat.not_lt.mpr hy, hdFinish, hr]
  | hdLast y t p hp h0 hv h9 hy hr hn =>
    rw [step_item hq (i := .l y) (by simp [nextItem, hp, readItem_header_leaf hv h9, hy])]
    simp [exec, execL, hp, hdReadLeaf, h0, srcRead_eq, hv, h9, Nat.not_lt.mpr hy, hdFinish, hr,
      phaseComplete, hn]
  | startNode l r hp ht =>
    rw [step_rule hq (by simp [nextItem, hp, emptyCode, ht])]
    simp [fireRule, hp, fireDecStart, ht]
  | startEof hp ht =>
    rw [step_item hq (i := .c []) (by simp [nextItem, hp, emptyCode, ht])]
    simp [exec, execC, hp, fireDecStart, ht]
  | startByte y hp ht hy =>
    rw [step_rule hq (by simp [nextItem, hp, emptyCode, ht, ne_eof_of_le hy])]
    simp [fireRule, hp, fireDecStart, ht, ne_eof_of_le hy, hy]
  | bitNode b l r l' r' hp hc hv hx =>
    rw [step_item hq (i := .c [b]) (by simp [nextItem, hp, readItem_body_bit hv]), exec_bit hp,
      decWalkBit_eq hc hv, hx, decArrive_node]
  | bitEof b l r hp hc hv hx =>
    rw [step_item hq (i := .c [b]) (by simp [nextItem, hp, readItem_body_bit hv]), exec_bit hp,
      decWalkBit_eq hc hv, hx, decArrive_eof]
  | bitByte b l r y t hp hc hv hx hy ht ho =>
    rw [step_item hq (i := .c [b]) (by simp [nextItem, hp, readItem_body_bit hv]), exec_bit hp,
      decWalkBit_eq hc hv, hx,
      decArrive_byte (s := srcAfter 1 s) (t := t) hy ht ho]
  | bitEod l r hp hc hv =>
    rw [step_item hq (i := .eodAtBody) (by simp [nextItem, hp, readItem_body_eod hv])]
    simp [exec, execEodAtBody, hp, decEodBody, hc, srcRead_eq, hv]

/-! ## Nothing else happens -/

theorem hsPending_eq_some {s : State} {ts : List Tree} (h : hsPending s = some ts) :
    ts ≠ [] ∧ ((s.hsStack = [] ∧ ∃ t, readTree s = some t ∧ ts = [t]) ∨ ts = s.hsStack) := by
  unfold hsPending at h
  split at h
  · rename_i hst
    rw [Option.map_eq_some_iff] at h
    obtain ⟨t, ht, rfl⟩ := h
    exact ⟨by simp, .inl ⟨hst, t, ht, rfl⟩⟩
  · rename_i t ts' hst
    rw [Option.some.injEq] at h
    subst h
    exact ⟨by simp, .inr hst.symm⟩

theorem case_of_hdLeaf {s s' : State} {y : Sym} (hp : s.phase = .hdWalk)
    (hv : srcPeek 1 s = some 1) (h9 : srcPeek 9 (srcAfter 1 s) = some y.toNat)
    (h : hdReadLeaf y s = .next s') : StepCase s s' := by
  by_cases h0 : s.need = 0
  · simp [hdReadLeaf, h0] at h
  · by_cases hy : 256 < y.toNat
    · simp only [hdReadLeaf, if_neg h0, srcRead_eq, hv, h9, ne_eq, not_true_eq_false, if_false,
        if_pos hy, Host.Outcome.next.injEq] at h
      subst h
      exact .hdRange y hp h0 hv h9 hy
    · simp only [hdReadLeaf, if_neg h0, srcRead_eq, hv, h9, ne_eq, not_true_eq_false, if_false,
        if_neg hy, hdFinish, setHdCounts_hdStack, srcAfter_hdStack, srcAfter_leafCnt,
        srcAfter_need] at h
      cases hr : hdReduce s.hdStack (.leaf y) with
      | closed t =>
        simp only [hr, phaseComplete_eq_next, setHdStack_cmd, setHdStack_phase, writeTree_cmd,
          writeTree_phase, setHdCounts_cmd, setHdCounts_phase, srcAfter_cmd, srcAfter_phase, hp] at h
        obtain ⟨p, hn, rfl⟩ := h
        exact .hdLast y t p hp h0 hv h9 (Nat.not_lt.mp hy) hr hn
      | pending stack =>
        simp only [hr, Host.Outcome.next.injEq] at h
        subst h
        exact .hdLeaf y stack hp h0 hv h9 (Nat.not_lt.mp hy) hr

theorem case_of_bit {s s' : State} {b : Bool} (hp : s.phase = .decWalk)
    (hv : srcPeek 1 s = some b.toNat) (h : decWalkBit b s = .next s') : StepCase s s' := by
  match hc : s.cur with
  | none => simp [decWalkBit, hc] at h
  | some (.leaf y) => simp [decWalkBit, hc] at h
  | some (.node l r) =>
    rw [decWalkBit_eq hc hv] at h
    cases hx : childOf b l r with
    | node l' r' =>
      rw [hx, decArrive_node, Host.Outcome.next.injEq] at h
      subst h
      exact .bitNode b l r l' r' hp hc hv hx
    | leaf y =>
      rw [hx] at h
      by_cases he : y = EOF_SYM
      · subst he
        rw [decArrive_eof, Host.Outcome.next.injEq] at h
        subst h
        exact .bitEof b l r hp hc hv hx
      · by_cases hy : y.toNat ≤ 255
        · simp only [decArrive, if_neg he, if_pos hy, readTree_srcAfter] at h
          cases ht : readTree s with
          | none => simp [ht] at h
          | some t =>
            simp only [ht, andThen_eq_next, snkWrite_eq_next, srcAfter_snk,
              Host.Outcome.next.injEq] at h
            obtain ⟨s1, ⟨ho, rfl⟩, rfl⟩ := h
            exact .bitByte b l r y t hp hc hv hx hy ht ho
        · simp [decArrive, he, hy] at h

theorem case_of_step {s s' : State} (hq : Quiet s) (h : step s = .next s') : StepCase s s' := by
  cases hp : s.phase with
  | idle =>
    rw [step_rule hq (by simp [nextItem, hp])] at h
    simp only [fireRule, hp, Host.Outcome.next.injEq] at h
    subst h; exact .wait (.inl hp)
  | done =>
    rw [step_rule hq (by simp [nextItem, hp])] at h
    simp only [fireRule, hp, Host.Outcome.next.injEq] at h
    subst h; exact .wait (.inr (.inl hp))
  | fault =>
    rw [step_rule hq (by simp [nextItem, hp])] at h
    simp only [fireRule, hp, Host.Outcome.next.injEq] at h
    subst h; exact .wait (.inr (.inr hp))
  | tbCount =>
    rw [step_rule hq (by simp [nextItem, hp])] at h
    simp only [fireRule, hp, fireTbCount, srcRead_eq] at h
    cases hv : srcPeek 8 s with
    | none =>
      simp only [hv, Host.Outcome.next.injEq] at h
      subst h; exact .countEnd hp hv
    | some v =>
      simp only [hv, Host.Outcome.next.injEq] at h
      subst h; exact .countByte v hp hv
  | tbInit =>
    rw [step_rule hq (by simp [nextItem, hp])] at h
    simp only [fireRule, hp, fireTbInit, Host.Outcome.next.injEq] at h
    subst h; exact .init hp
  | tbMerge =>
    rw [step_rule hq (by simp [nextItem, hp])] at h
    simp only [fireRule, hp, fireTbMerge] at h
    match hpq : s.pq with
    | [] => simp [hpq] at h
    | [e] =>
      simp only [hpq, phaseComplete_eq_next, setQueue_cmd, setQueue_phase, writeTree_cmd,
        writeTree_phase, hp] at h
      obtain ⟨p, hn, rfl⟩ := h
      exact .built e p hp hpq hn
    | a :: b :: rest =>
      simp only [hpq] at h
      cases hm : mergeStep Config.policy (a :: b :: rest) s.seq with
      | none => simp [hm] at h
      | some pq =>
        simp only [hm, Host.Outcome.next.injEq] at h
        subst h
        exact .merge pq hp (by simp [hpq]) (by rw [hpq]; exact hm)
  | hsWalk =>
    cases ht : hsPending s with
    | none =>
      rw [step_rule hq (by simp [nextItem, hp, nextHeaderItem, ht])] at h
      simp [fireRule, hp] at h
    | some ts =>
      match ts, ht with
      | [], ht => exact absurd rfl (hsPending_eq_some ht).1
      | .node l r :: rest, ht =>
        rw [step_item hq (i := .n) (by simp [nextItem, hp, nextHeaderItem, ht])] at h
        simp only [exec, execN, hp, hsWriteNode, ht, andThen_eq_next, snkWrite_eq_next,
          Host.Outcome.next.injEq] at h
        obtain ⟨s1, ⟨ho, rfl⟩, rfl⟩ := h
        exact .hsNode l r rest hp ht ho
      | [.leaf y], ht =>
        rw [step_item hq (i := .l y) (by simp [nextItem, hp, nextHeaderItem, ht])] at h
        simp only [exec, execL, hp, hsWriteLeaf, ht, if_true, andThen_eq_next, snkWrite_eq_next,
          phaseComplete_eq_next] at h
        obtain ⟨s1, ⟨ho, rfl⟩, s2, ⟨-, rfl⟩, p, hn, rfl⟩ := h
        exact .hsLast y p hp ht ho (by simpa [hp] using hn)
      | .leaf y :: t :: rest, ht =>
        rw [step_item hq (i := .l y) (by simp [nextItem, hp, nextHeaderItem, ht])] at h
        simp only [exec, execL, hp, hsWriteLeaf, ht, if_true, andThen_eq_next, snkWrite_eq_next,
          Host.Outcome.next.injEq] at h
        obtain ⟨s1, ⟨ho, rfl⟩, s2, ⟨-, rfl⟩, rfl⟩ := h
        exact .hsLeaf y t rest hp ht ho
  | hdWalk =>
    rcases srcPeek_one_cases s with hv | hv | hv
    · rw [step_item hq (i := .eodAtHdrTag) (by simp [nextItem, hp, readItem_header_eod hv])] at h
      by_cases h0 : s.need = 0
      · simp [exec, execEodAtHdrTag, hp, hdEodTag, h0] at h
      · simp only [exec, execEodAtHdrTag, hp, hdEodTag, if_neg h0, srcRead_eq, hv,
          Host.Outcome.next.injEq] at h
        subst h; exact .hdEodTag hp h0 hv
    · rw [step_item hq (i := .n) (by simp [nextItem, hp, readItem_header_node hv])] at h
      by_cases h0 : s.need = 0
      · simp [exec, execN, hp, hdReadNode, h0] at h
      · by_cases hc : s.leafCnt + s.need = NSYM
        · simp only [exec, execN, hp, hdReadNode, if_neg h0, srcRead_eq, hv, srcAfter_leafCnt,
            srcAfter_need, hc, if_true, Host.Outcome.next.injEq] at h
          subst h; exact .hdCapacity hp h0 hv hc
        · simp only [exec, execN, hp, hdReadNode, if_neg h0, srcRead_eq, hv, srcAfter_leafCnt,
            srcAfter_need, srcAfter_hdStack, hc, if_false, Host.Outcome.next.injEq] at h
          subst h; exact .hdNode hp h0 hv hc
    · cases h9 : srcPeek 9 (srcAfter 1 s) with
      | none =>
        rw [step_item hq (i := .eodAtHdrSym)
          (by simp [nextItem, hp, readItem_header_short hv h9])] at h
        by_cases h0 : s.need = 0
        · simp [exec, execEodAtHdrSym, hp, hdEodSym, h0] at h
        · simp only [exec, execEodAtHdrSym, hp, hdEodSym, if_neg h0, srcRead_eq, hv, h9,
            Host.Outcome.next.injEq] at h
          subst h; exact .hdEodSym hp h0 hv h9
      | some v =>
        obtain ⟨y, rfl⟩ := srcPeek_some_word (by decide) h9
        have hi := readItem_header_leaf hv h9
        by_cases hy : y.toNat ≤ 256
        · rw [if_pos hy] at hi
          rw [step_item hq (i := .l y) (by simp [nextItem, hp, hi])] at h
          simp only [exec, execL, hp] at h
          exact case_of_hdLeaf hp hv h9 h
        · rw [if_neg hy] at hi
          rw [step_item hq (i := .lReserved y) (by simp [nextItem, hp, hi])] at h
          simp only [exec, execLReserved, hp] at h
          exact case_of_hdLeaf hp hv h9 h
  | encMagic =>
    rw [step_item hq (i := .magic) (by simp [nextItem, hp])] at h
    simp only [exec, execMagic, hp, encWriteMagic, andThen_eq_next, snkWrite_eq_next,
      Host.Outcome.next.injEq] at h
    obtain ⟨s1, ⟨ho, rfl⟩, rfl⟩ := h
    exact .magicWrite hp ho
  | encTable =>
    rw [step_rule hq (by simp [nextItem, hp])] at h
    simp only [fireRule, hp, fireEncTable] at h
    cases ht : readTree s with
    | none => simp [ht] at h
    | some t =>
      simp only [ht, Host.Outcome.next.injEq] at h
      subst h; exact .encTable t hp ht
  | encRewind =>
    rw [step_rule hq (by simp [nextItem, hp])] at h
    simp only [fireRule, hp, fireEncRewind, Host.Outcome.next.injEq] at h
    subst h; exact .rewind hp
  | encBody =>
    cases hv : srcPeek 8 s with
    | none =>
      rw [step_rule hq (by simp [nextItem, hp, nextBodyCode, hv])] at h
      simp only [fireRule, hp, fireEncBody, srcRead_eq, hv, Host.Outcome.next.injEq] at h
      subst h; exact .bodyEnd hp hv
    | some v =>
      cases hc : s.code.get v with
      | none =>
        rw [step_rule hq (by simp [nextItem, hp, nextBodyCode, hv, hc])] at h
        simp [fireRule, hp, fireEncBody, srcRead_eq, hv] at h
      | some p =>
        rw [step_item hq (i := .c p) (by simp [nextItem, hp, nextBodyCode, hv, hc])] at h
        simp only [exec, execC, hp, encWriteByte, srcRead_eq, hv, srcAfter_code, hc, if_true,
          emitCode_eq_next, srcAfter_snk] at h
        obtain ⟨ho, rfl⟩ := h
        exact .bodyCode v p hp hv hc ho
  | encEof =>
    cases hc : s.code.get 256 with
    | none =>
      rw [step_rule hq (by simp [nextItem, hp, hc])] at h
      simp [fireRule, hp] at h
    | some p =>
      rw [step_item hq (i := .c p) (by simp [nextItem, hp, hc])] at h
      simp only [exec, execC, hp, encWriteEof, hc, if_true, andThen_eq_next, emitCode_eq_next,
        Host.Outcome.next.injEq] at h
      obtain ⟨s1, ⟨ho, rfl⟩, rfl⟩ := h
      exact .eofCode p hp hc ho
  | encClose =>
    rw [step_item hq (i := .pad (padLen s.snk.bits.length)) (by simp [nextItem, hp])] at h
    simp only [exec, execPad, hp, closeSink, if_true, andThen_eq_next, snkClose_eq_next,
      Host.Outcome.next.injEq] at h
    obtain ⟨s1, ⟨ho, rfl⟩, rfl⟩ := h
    exact .close (.inl hp) ho
  | decClose =>
    rw [step_item hq (i := .pad (padLen s.snk.bits.length)) (by simp [nextItem, hp])] at h
    simp only [exec, execPad, hp, closeSink, if_true, andThen_eq_next, snkClose_eq_next,
      Host.Outcome.next.injEq] at h
    obtain ⟨s1, ⟨ho, rfl⟩, rfl⟩ := h
    exact .close (.inr hp) ho
  | decMagic =>
    cases hv : srcPeek 32 s with
    | none =>
      rw [step_item hq (i := .eodAtMagic) (by simp [nextItem, hp, readItem_magic_eod hv])] at h
      simp only [exec, execEodAtMagic, hp, decEodMagic, srcRead_eq, hv,
        Host.Outcome.next.injEq] at h
      subst h; exact .magicEod hp hv
    | some v =>
      obtain ⟨w, rfl⟩ := srcPeek_some_word (by decide) hv
      have hi := readItem_magic_word hv
      by_cases hw : w = Config.magic
      · subst hw
        rw [if_pos rfl] at hi
        rw [step_item hq (i := .magic) (by simp [nextItem, hp, hi])] at h
        simp only [exec, execMagic, hp, decReadMagic, srcRead_eq, hv, ne_eq, not_true_eq_false,
          if_false, Host.Outcome.next.injEq] at h
        subst h; exact .magicRead hp hv
      · rw [if_neg hw] at hi
        rw [step_item hq (i := .magicBad w) (by simp [nextItem, hp, hi])] at h
        simp only [exec, execMagicBad, hp, decReadMagic, srcRead_eq, hv, ne_eq, hw,
          not_true_eq_false, not_false_eq_true, if_false, if_true, Host.Outcome.next.injEq] at h
        subst h; exact .magicBad w hp hv hw
  | decStart =>
    match ht : readTree s with
    | none =>
      rw [step_rule hq (by simp [nextItem, hp, emptyCode, ht])] at h
      simp [fireRule, hp, fireDecStart, ht] at h
    | some (.node l r) =>
      rw [step_rule hq (by simp [nextItem, hp, emptyCode, ht])] at h
      simp only [fireRule, hp, fireDecStart, ht, Host.Outcome.next.injEq] at h
      subst h; exact .startNode l r hp ht
    | some (.leaf y) =>
      by_cases he : y = EOF_SYM
      · subst he
        rw [step_item hq (i := .c []) (by simp [nextItem, hp, emptyCode, ht])] at h
        simp only [exec, execC, hp, ht, if_true, fireDecStart, Host.Outcome.next.injEq] at h
        subst h; exact .startEof hp ht
      · rw [step_rule hq (by simp [nextItem, hp, emptyCode, ht, he])] at h
        by_cases hy : y.toNat ≤ 255
        · simp only [fireRule, hp, fireDecStart, ht, if_neg he, if_pos hy,
            Host.Outcome.next.injEq] at h
          subst h; exact .startByte y hp ht hy
        · simp [fireRule, hp, fireDecStart, ht, he, hy] at h
  | decWalk =>
    cases hv : srcPeek 1 s with
    | none =>
      rw [step_item hq (i := .eodAtBody) (by simp [nextItem, hp, readItem_body_eod hv])] at h
      match hc : s.cur with
      | none => simp [exec, execEodAtBody, hp, decEodBody, hc] at h
      | some (.leaf y) => simp [exec, execEodAtBody, hp, decEodBody, hc] at h
      | some (.node l r) =>
        simp only [exec, execEodAtBody, hp, decEodBody, hc, srcRead_eq, hv,
          Host.Outcome.next.injEq] at h
        subst h; exact .bitEod l r hp hc hv
    | some v =>
      obtain ⟨b, rfl⟩ : ∃ b : Bool, v = b.toNat := by
        have hlt := srcPeek_lt Nat.one_pos hv
        have : v = 0 ∨ v = 1 := by omega
        rcases this with rfl | rfl
        · exact ⟨false, rfl⟩
        · exact ⟨true, rfl⟩
      rw [step_item hq (i := .c [b]) (by simp [nextItem, hp, readItem_body_bit hv]),
        exec_bit hp] at h
      exact case_of_bit hp hv h

/-- A quiet step answers a next state exactly when a rule of the spec fires, and that rule's state. -/
theorem step_eq_next_iff {s s' : State} (hq : Quiet s) : step s = .next s' ↔ StepCase s s' :=
  ⟨case_of_step hq, step_of_case hq⟩

end Sys2Proof.Machine
end

