-- ==== Sys2Proof/Laws/Commands.lean ====
section
/-! SUPPORT. What a command can do, said once (10_state R40), and with it what any step can do. -/

namespace Sys2Proof.Machine

/-- Every 3-bit code is the code of a command (30_encoding R91). -/
theorem exists_command (w : BitVec 3) : ∃ c : Command, w = c.code := by
  have h : ∀ w : BitVec 3, w ∈ [Command.nop, .compress, .decompress, .tbRun, .hsRun, .hdRun,
      .encRun, .decRun].map Command.code := by decide
  obtain ⟨c, -, hc⟩ := List.mem_map.mp (h w)
  exact ⟨c, hc.symm⟩

/-- One constructor per command that can be accepted, and the one that is ignored. -/
inductive CommandCase (s : State) : Command → State → Prop where
  | ignored (c : Command) (ha : s.accepting = false) : CommandCase s c s
  | nop : CommandCase s .nop s
  | compress (ha : s.accepting = true) (hk : s.sinkFresh = true) :
      CommandCase s .compress (startCommand .compress (clearForBuild s))
  | decompress (ha : s.accepting = true) (hk : s.sinkFresh = true) :
      CommandCase s .decompress (startCommand .decompress (clearForRead s))
  | tbRun (ha : s.accepting = true) :
      CommandCase s .tbRun (startCommand .tbRun (clearForBuild s))
  | hsRun (ha : s.accepting = true) (ht : s.treeValid = true) (hk : s.snk.closed = false) :
      CommandCase s .hsRun (startCommand .hsRun s)
  | hdRun (ha : s.accepting = true) :
      CommandCase s .hdRun (startCommand .hdRun (clearForRead s))
  | encRun (ha : s.accepting = true) (ht : s.treeValid = true) (hk : s.sinkFresh = true) :
      CommandCase s .encRun (startCommand .encRun (clearTable s))
  | decRun (ha : s.accepting = true) (ht : s.treeValid = true) (hk : s.sinkFresh = true) :
      CommandCase s .decRun (startCommand .decRun s)

theorem exec_of_commandCase {s s' : State} {c : Command} (h : CommandCase s c s') :
    exec (decodeCommand c.code) s = .next s' := by
  cases h with
  | ignored c ha =>
    cases c <;> simp [exec, execNop, execCompress, execDecompress, execTbRun, execHsRun, execHdRun,
      execEncRun, execDecRun, ha]
  | nop => simp [exec, execNop]
  | compress ha hk => simp [exec, execCompress, ha, hk]
  | decompress ha hk => simp [exec, execDecompress, ha, hk]
  | tbRun ha => simp [exec, execTbRun, ha]
  | hsRun ha ht hk => simp [exec, execHsRun, ha, ht, hk]
  | hdRun ha => simp [exec, execHdRun, ha]
  | encRun ha ht hk => simp [exec, execEncRun, ha, ht, hk]
  | decRun ha ht hk => simp [exec, execDecRun, ha, ht, hk]

theorem commandCase_of_exec {s s' : State} {c : Command}
    (h : exec (decodeCommand c.code) s = .next s') : CommandCase s c s' := by
  cases ha : s.accepting with
  | false =>
    have h' := exec_of_commandCase (.ignored (s := s) c ha)
    rw [h] at h'
    rw [Host.Outcome.next.injEq] at h'
    subst h'
    exact .ignored c ha
  | true =>
    cases c with
    | nop =>
      simp only [decodeCommand_code_nop, exec, execNop, Host.Outcome.next.injEq] at h
      subst h; exact .nop
    | compress =>
      cases hk : s.sinkFresh <;>
        simp only [decodeCommand_code_compress, exec, execCompress, ha, hk, if_true, if_false,
          Bool.false_eq_true, reduceCtorEq, Host.Outcome.next.injEq] at h
      subst h; exact .compress ha hk
    | decompress =>
      cases hk : s.sinkFresh <;>
        simp only [decodeCommand_code_decompress, exec, execDecompress, ha, hk, if_true, if_false,
          Bool.false_eq_true, reduceCtorEq, Host.Outcome.next.injEq] at h
      subst h; exact .decompress ha hk
    | tbRun =>
      simp only [decodeCommand_code_tbRun, exec, execTbRun, ha, if_true,
        Host.Outcome.next.injEq] at h
      subst h; exact .tbRun ha
    | hsRun =>
      cases ht : s.treeValid <;> cases hk : s.snk.closed <;>
        simp only [decodeCommand_code_hsRun, exec, execHsRun, ha, ht, hk, if_true, if_false,
          Bool.not_true, Bool.not_false, Bool.false_eq_true, reduceCtorEq,
          Host.Outcome.next.injEq] at h
      subst h; exact .hsRun ha ht hk
    | hdRun =>
      simp only [decodeCommand_code_hdRun, exec, execHdRun, ha, if_true,
        Host.Outcome.next.injEq] at h
      subst h; exact .hdRun ha
    | encRun =>
      cases ht : s.treeValid <;> cases hk : s.sinkFresh <;>
        simp only [decodeCommand_code_encRun, exec, execEncRun, ha, ht, hk, if_true, if_false,
          Bool.not_true, Bool.not_false, Bool.false_eq_true, reduceCtorEq,
          Host.Outcome.next.injEq] at h
      subst h; exact .encRun ha ht hk
    | decRun =>
      cases ht : s.treeValid <;> cases hk : s.sinkFresh <;>
        simp only [decodeCommand_code_decRun, exec, execDecRun, ha, ht, hk, if_true, if_false,
          Bool.not_true, Bool.not_false, Bool.false_eq_true, reduceCtorEq,
          Host.Outcome.next.injEq] at h
      subst h; exact .decRun ha ht hk

/-- Every step that answers a next state is a reset, a command seen on the port, or a rule. -/
theorem step_next_cases {s s' : State} (h : step s = .next s') :
    (s.rst = true ∧ s' = resetCore s) ∨
    (s.rst = false ∧ ∃ c : Command, s.cmdPort = some c.code ∧ CommandCase (clearPort s) c s') ∨
    (Quiet s ∧ StepCase s s') := by
  cases hr : s.rst with
  | true =>
    rw [step_reset hr, Host.Outcome.next.injEq] at h
    exact .inl ⟨rfl, h.symm⟩
  | false =>
    cases hw : s.cmdPort with
    | none => exact .inr (.inr ⟨⟨hr, hw⟩, case_of_step ⟨hr, hw⟩ h⟩)
    | some w =>
      obtain ⟨c, rfl⟩ := exists_command w
      rw [step_command hr hw] at h
      exact .inr (.inl ⟨rfl, c, rfl, commandCase_of_exec h⟩)

end Sys2Proof.Machine
end

