-- ==== Sys2Proof/Laws/Header.lean ====
section
/-! SUPPORT. huffman_header_deserializer: what the loop of 42_header_deserializer R136 does to the frames, their leaves and the tree they stand for. -/

namespace Sys2Proof.Machine

@[simp] theorem awaiting_nil : awaiting [] = 0 := rfl
@[simp] theorem awaiting_awaitLeft (fs : List HdFrame) :
    awaiting (.awaitLeft :: fs) = awaiting fs + 1 := rfl
@[simp] theorem awaiting_haveLeft (l : Tree) (fs : List HdFrame) :
    awaiting (.haveLeft l :: fs) = awaiting fs := rfl
@[simp] theorem leftsIn_nil : leftsIn [] = [] := rfl
@[simp] theorem leftsIn_awaitLeft (fs : List HdFrame) : leftsIn (.awaitLeft :: fs) = leftsIn fs := rfl
@[simp] theorem leftsIn_haveLeft (l : Tree) (fs : List HdFrame) :
    leftsIn (.haveLeft l :: fs) = l :: leftsIn fs := rfl

@[simp] theorem hdReduce_nil (t : Tree) : hdReduce [] t = .closed t := rfl
@[simp] theorem hdReduce_awaitLeft (fs : List HdFrame) (t : Tree) :
    hdReduce (.awaitLeft :: fs) t = .pending (.haveLeft t :: fs) := rfl
@[simp] theorem hdReduce_haveLeft (l : Tree) (fs : List HdFrame) (t : Tree) :
    hdReduce (.haveLeft l :: fs) t = hdReduce fs (.node l t) := rfl

theorem frames_length (fs : List HdFrame) :
    fs.length = awaiting fs + (leftsIn fs).length := by
  induction fs with
  | nil => rfl
  | cons f fs ih => cases f <;> simp [ih] <;> omega

theorem length_le_leavesIn (ts : List Tree) : ts.length ≤ (leavesIn ts).length := by
  induction ts with
  | nil => simp
  | cons t ts ih =>
    have := t.nleaves_pos
    simp only [List.length_cons, leavesIn_cons, List.length_append, Tree.leaves_length]
    omega

/-- While the header is not complete, one awaited subtree less, and the finished one's leaves are kept (42 R136). -/
theorem hdReduce_pending {fs stack : List HdFrame} {t : Tree}
    (h : hdReduce fs t = .pending stack) :
    awaiting fs = awaiting stack + 1 ∧
      (leavesIn (leftsIn stack)).Perm (t.leaves ++ leavesIn (leftsIn fs)) := by
  induction fs generalizing t with
  | nil => simp at h
  | cons f fs ih =>
    cases f with
    | awaitLeft =>
      simp only [hdReduce_awaitLeft, Reduced.pending.injEq] at h
      subst h
      simp
    | haveLeft l =>
      obtain ⟨h1, h2⟩ := ih h
      refine ⟨by simpa using h1, h2.trans ?_⟩
      simp only [Tree.leaves, leftsIn_haveLeft, leavesIn_cons]
      rw [← List.append_assoc]
      exact List.perm_append_comm.append_right _

/-- The header is complete when no subtree is awaited; the tree has the finished leaves (42 R136). -/
theorem hdReduce_closed {fs : List HdFrame} {t t' : Tree} (h : hdReduce fs t = .closed t') :
    awaiting fs = 0 ∧ t'.leaves.Perm (t.leaves ++ leavesIn (leftsIn fs)) := by
  induction fs generalizing t with
  | nil =>
    simp only [hdReduce_nil, Reduced.closed.injEq] at h
    subst h
    simp
  | cons f fs ih =>
    cases f with
    | awaitLeft => simp at h
    | haveLeft l =>
      obtain ⟨h1, h2⟩ := ih h
      refine ⟨by simpa using h1, h2.trans ?_⟩
      simp only [Tree.leaves, leftsIn_haveLeft, leavesIn_cons]
      rw [← List.append_assoc]
      exact List.perm_append_comm.append_right _

/-- Finished left subtrees are joined from the innermost outwards, up to the next open node (42 R136). -/
theorem hdReduce_lefts_awaitLeft (ls : List Tree) (fs : List HdFrame) (t : Tree) :
    hdReduce (ls.map HdFrame.haveLeft ++ .awaitLeft :: fs) t =
      .pending (.haveLeft (ls.foldl (fun t l => .node l t) t) :: fs) := by
  induction ls generalizing t with
  | nil => rfl
  | cons l ls ih => exact ih _

/-- ... or to the root of the header (42 R136). -/
theorem hdReduce_lefts (ls : List Tree) (t : Tree) :
    hdReduce (ls.map HdFrame.haveLeft) t =
      .closed (ls.foldl (fun t l => .node l t) t) := by
  induction ls generalizing t with
  | nil => rfl
  | cons l ls ih => exact ih _

/-- At most 257 symbols exist, so a tree of distinct symbols is within bounds (00_scope R9). -/
theorem nodup_symbols_length {l : List Sym} (hn : l.Nodup) (hl : ∀ y ∈ l, y.toNat ≤ 256) :
    l.length ≤ NSYM := by
  have h1 : (l.map BitVec.toNat).Nodup :=
    hn.map fun a b hab => BitVec.eq_of_toNat_eq hab
  have h2 : (l.map BitVec.toNat) ⊆ List.range NSYM := by
    intro v hv
    obtain ⟨y, hy, rfl⟩ := List.mem_map.mp hv
    exact List.mem_range.mpr (Nat.lt_succ_of_le (hl y hy))
  have h3 := (List.subperm_of_subset h1 h2).length_le
  simpa using h3

end Sys2Proof.Machine
end

