-- ==== Sys2Proof/Laws/PerInstr.lean ====
section
/-! SUPPORT. Statements about every instruction as syntax, one lemma per constructor. Family `RoundTrip`: the decoder gives back what the encoder wrote, wherever the item can stand. -/

namespace Sys2Proof.Laws.RoundTrip

/-- Decoding the bits of a well-formed instruction, where it can stand, gives the instruction and leaves the bits after it. -/
def Statement (i : Instr) : Prop :=
  ∀ ctx x, i.wf = true → i.standsIn ctx x → decode ctx (encode i ++ x) = .ok (i, x)

theorem nop : Statement .nop := by
  rintro ctx x - rfl
  exact decode_command_append _ Command.nop.code x

theorem compress : Statement .compress := by
  rintro ctx x - rfl
  exact decode_command_append _ Command.compress.code x

theorem decompress : Statement .decompress := by
  rintro ctx x - rfl
  exact decode_command_append _ Command.decompress.code x

theorem tbRun : Statement .tbRun := by
  rintro ctx x - rfl
  exact decode_command_append _ Command.tbRun.code x

theorem hsRun : Statement .hsRun := by
  rintro ctx x - rfl
  exact decode_command_append _ Command.hsRun.code x

theorem hdRun : Statement .hdRun := by
  rintro ctx x - rfl
  exact decode_command_append _ Command.hdRun.code x

theorem encRun : Statement .encRun := by
  rintro ctx x - rfl
  exact decode_command_append _ Command.encRun.code x

theorem decRun : Statement .decRun := by
  rintro ctx x - rfl
  exact decode_command_append _ Command.decRun.code x

theorem magic : Statement .magic := by
  rintro ctx x - rfl
  simp only [decode, decodeFor, encode, encodeFor, decodeMagic_append, if_true]

theorem magicBad (m : Word32) : Statement (.magicBad m) := by
  rintro ctx x hwf rfl
  have hne : m ≠ Config.magic := by simpa [Instr.wf, Instr.wfFor] using hwf
  simp only [decode, decodeFor, encode, encodeFor, decodeMagic_append, if_neg hne]

theorem n : Statement .n := by
  rintro ctx x - rfl
  rfl

theorem l (y : Sym) : Statement (.l y) := by
  rintro ctx x hwf rfl
  have hy : y.toNat ≤ 256 := by simpa [Instr.wf, Instr.wfFor] using hwf
  simp only [decode, decodeFor, encode, encodeFor, List.cons_append, decodeHeader_leaf, if_pos hy]

theorem lReserved (y : Sym) : Statement (.lReserved y) := by
  rintro ctx x hwf rfl
  have hy : 256 < y.toNat := by simpa [Instr.wf, Instr.wfFor] using hwf
  simp only [decode, decodeFor, encode, encodeFor, List.cons_append, decodeHeader_leaf,
    if_neg (Nat.not_le.mpr hy)]

theorem c (p : Bits) : Statement (.c p) := by
  rintro ctx x - (⟨rfl, hp⟩ | ⟨t, y, rfl, hsub⟩)
  · obtain ⟨b, rfl⟩ := List.length_eq_one_iff.mp hp
    rfl
  · simp only [decode, decodeFor, encode, encodeFor, walkCode_append hsub]

theorem pad (k : Nat) : Statement (.pad k) := by
  rintro ctx x - rfl
  simp [decode, decodeFor, encode, encodeFor]

theorem eodAtMagic : Statement .eodAtMagic := by
  rintro ctx x - ⟨rfl, hx⟩
  simp only [decode, decodeFor, encode, encodeFor, List.nil_append, decodeMagic_short _ hx]

theorem eodAtHdrTag : Statement .eodAtHdrTag := by
  rintro ctx x - ⟨rfl, rfl⟩
  rfl

theorem eodAtHdrSym : Statement .eodAtHdrSym := by
  rintro ctx x - ⟨rfl, hx⟩
  simp only [decode, decodeFor, encode, encodeFor, List.cons_append, List.nil_append,
    decodeHeader_short hx]

theorem eodAtBody : Statement .eodAtBody := by
  rintro ctx x - ⟨rfl | ⟨l, r, rfl⟩, rfl⟩ <;> rfl

end Sys2Proof.Laws.RoundTrip
end

