-- ==== Sys2Proof/Laws/Port.lean ====
section
/-! SUPPORT. What the host's supply of a stream can do, said once (70_reset R235, R236, R241). -/

namespace Sys2Proof.Machine

theorem unlessBusy_next {s t u : State} :
    unlessBusy t s = .next u ↔ s.busyFlag = false ∧ t = u := by
  cases h : s.busyFlag <;> simp [unlessBusy, h]

theorem unlessBusy_refused {s t : State} {r : Refusal} :
    unlessBusy t s = .refused r ↔ s.busyFlag = true ∧ r = .streamInUse := by
  cases h : s.busyFlag <;> simp [unlessBusy, h, eq_comm]

theorem unlessBusy_not_fault (s t : State) (r : Fault) : unlessBusy t s ≠ .fault r := by
  cases h : s.busyFlag <;> simp [unlessBusy, h]

theorem supplySource_next {s u : State} {x : Bits} :
    s.supplySource x = .next u ↔ s.busyFlag = false ∧ { s with src := ⟨x, 0⟩ } = u :=
  unlessBusy_next

theorem supplySink_next {s u : State} :
    s.supplySink = .next u ↔ s.busyFlag = false ∧ { s with snk := ⟨[], false⟩ } = u :=
  unlessBusy_next

end Sys2Proof.Machine
end

