-- ==== Sys2Proof/Laws/Table.lean ====
section
/-! SUPPORT. huffman_encoder: what the walk with `ENC_STACK` records (43_encoder R152). -/

namespace Sys2Proof.Machine

/-- Every entry of a list of symbols and paths recorded in turn. -/
def recordAll : List (Sym × Bits) → State → State
  | [], s => s
  | (y, p) :: rest, s => recordAll rest (writeCode y p s)

@[simp] theorem recordAll_nil (s : State) : recordAll [] s = s := rfl

theorem recordAll_append (l k : List (Sym × Bits)) (s : State) :
    recordAll (l ++ k) s = recordAll k (recordAll l s) := by
  induction l generalizing s with
  | nil => rfl
  | cons e l ih => simp [recordAll, ih]

theorem recordAll_setEncStack (l : List (Sym × Bits)) (st : List (Tree × Bits)) (s : State) :
    recordAll l (setEncStack st s) = setEncStack st (recordAll l s) := by
  induction l generalizing s with
  | nil => rfl
  | cons e l ih => exact ih (writeCode e.1 e.2 s)

/-- Recording touches `CODE` alone. -/
theorem recordAll_eq (l : List (Sym × Bits)) (s : State) :
    recordAll l s = { s with code := (recordAll l s).code } := by
  induction l generalizing s with
  | nil => rfl
  | cons e l ih =>
    have := ih (writeCode e.1 e.2 s)
    exact this

theorem encVisits_add (a b : Nat) (s : State) :
    encVisits (a + b) s = encVisits b (encVisits a s) := by
  induction a generalizing s with
  | zero => rw [Nat.zero_add]; rfl
  | succ a ih =>
    rw [Nat.add_right_comm]
    exact ih (encVisit s)

/-- The walk of a subtree on top of the stack records its paths in pre-order and leaves the rest of the stack (43 R152). -/
theorem encVisits_tree (t : Tree) (p : Bits) (rest : List (Tree × Bits)) (s : State) :
    encVisits t.nodes (setEncStack ((t, p) :: rest) s) =
      setEncStack rest (recordAll (t.paths p) s) := by
  induction t generalizing p rest s with
  | leaf y => rfl
  | node l r ihl ihr =>
    have h : (Tree.node l r).nodes = 1 + (l.nodes + r.nodes) := by
      simp only [Tree.nodes]; omega
    have hv : encVisits 1 (setEncStack ((.node l r, p) :: rest) s) =
        setEncStack ((l, p ++ [false]) :: (r, p ++ [true]) :: rest) s := rfl
    rw [h, encVisits_add, hv, encVisits_add, ihl, ihr]
    simp [Tree.paths, recordAll_append]

/-- The last entry for `y` in a list of symbols and paths. -/
def lastFor (y : Sym) (l : List (Sym × Bits)) : Option Bits :=
  ((l.filter fun q => q.1 = y).getLast?).map fun q => q.2

theorem lastFor_mem {y : Sym} {l : List (Sym × Bits)} {p : Bits} (h : lastFor y l = some p) :
    (y, p) ∈ l := by
  unfold lastFor at h
  rw [Option.map_eq_some_iff] at h
  obtain ⟨⟨z, q⟩, hq, rfl⟩ := h
  have hm := List.mem_of_getLast? hq
  simp only [List.mem_filter, decide_eq_true_eq] at hm
  obtain ⟨hm, rfl⟩ := hm
  exact hm

theorem lastFor_eq_none {y : Sym} {l : List (Sym × Bits)} :
    lastFor y l = none ↔ y ∉ l.map Prod.fst := by
  unfold lastFor
  simp only [Option.map_eq_none_iff, List.getLast?_eq_none_iff, List.filter_eq_nil_iff,
    decide_eq_true_eq, List.mem_map, not_exists, not_and]

theorem codeOf_eq_lastFor (t : Tree) (y : Sym) : codeOf t y = lastFor y t.codes := rfl

/-- A code is the path of a leaf with that symbol (43 R151). -/
theorem sub_of_codeOf {t : Tree} {y : Sym} {p : Bits} (h : codeOf t y = some p) :
    t.sub p = some (.leaf y) := Tree.mem_codes.mp (lastFor_mem h)

/-- After recording, a symbol of 0..256 has its last path, or what it had before (43 R153 (a)). -/
theorem recordAll_get (l : List (Sym × Bits)) (s : State) (y : Sym) (hy : y.toNat ≤ 256) :
    (recordAll l s).code.get y.toNat =
      match lastFor y l with
      | some p => some p
      | none => s.code.get y.toNat := by
  induction l generalizing s with
  | nil => rfl
  | cons e l ih =>
    obtain ⟨z, p⟩ := e
    rw [recordAll, ih]
    by_cases hz : z = y
    · subst hz
      have hf : ((z, p) :: l).filter (fun q => q.1 = z) = (z, p) :: l.filter fun q => q.1 = z := by
        simp
      unfold lastFor
      rw [hf]
      cases hl : l.filter fun q => q.1 = z with
      | nil => simp [CodeTable.get_put, Nat.lt_succ_of_le hy]
      | cons a k =>
        rw [List.getLast?_cons_cons]
        simp [List.getLast?_cons]
    · have hf : ((z, p) :: l).filter (fun q => q.1 = y) = l.filter fun q => q.1 = y := by
        simp [hz]
      have hne : ¬ (y.toNat = z.toNat ∧ z.toNat < NSYM) := fun h =>
        hz (BitVec.eq_of_toNat_eq h.1.symm)
      unfold lastFor
      rw [hf, writeCode_code, CodeTable.get_put, if_neg hne]

/-- An index that is no recorded symbol keeps what it had. -/
theorem recordAll_get_other (l : List (Sym × Bits)) (s : State) (v : Nat)
    (hv : ∀ q ∈ l, q.1.toNat ≠ v) : (recordAll l s).code.get v = s.code.get v := by
  induction l generalizing s with
  | nil => rfl
  | cons e l ih =>
    obtain ⟨z, p⟩ := e
    have hne : ¬ (v = z.toNat ∧ z.toNat < NSYM) := fun h => hv (z, p) (by simp) h.1.symm
    rw [recordAll, ih _ (fun q hq => hv q (by simp [hq])), writeCode_code, CodeTable.get_put,
      if_neg hne]

/-- The state after `ENC_TABLE` on the tree `t` (43 R152). -/
theorem encTable_state (t : Tree) (s : State) :
    encVisits t.nodes (startTableWalk t s) =
      setEncStack [] (recordAll t.codes { s with code := Vector.replicate 257 none }) :=
  encVisits_tree t [] [] { s with code := Vector.replicate 257 none }

/-- The whole walk writes the code table and nothing else. -/
theorem encTable_eq (t : Tree) (s : State) :
    encVisits t.nodes (startTableWalk t s) =
      { s with
        code := (recordAll t.codes { s with code := Vector.replicate 257 none }).code
        encStack := [] } := by
  rw [encTable_state, recordAll_eq]
  rfl

end Sys2Proof.Machine
end

