-- ==== Sys2Proof/Laws/Reference.lean ====
section
/-! SUPPORT. Small facts about the reference functions: one leaf read by `des`, one code walked by `walk`, the counts of a source, and one admissible merge. -/

namespace Sys2Proof.Machine

/-- `des` on one leaf item (42 R137). -/
theorem desWithin_leaf (f c n : Nat) {y : Sym} (x : Bits) (hy : y.toNat ≤ 256) :
    desWithin (f + 1) (true :: (bitsOf 9 y.toNat ++ x)) c n = .ok (.leaf y, x, c + 1) := by
  simp only [desWithin]
  rw [if_neg (by simp), take_bitsOf_append, drop_bitsOf_append, valOf_bitsOf_of_lt y.isLt]
  simp only [symOf_sym]
  rw [if_neg (by omega)]

/-- Where `des` succeeds, the bits it leaves unread are the rest it answers. -/
theorem desLeftWithin_ok {f c n k : Nat} {x rest : Bits} {t : Tree}
    (h : desWithin f x c n = .ok (t, rest, k)) : desLeftWithin f x c n = rest := by
  induction f generalizing x c n k rest t with
  | zero => cases h
  | succ f ih =>
    match x with
    | [] => cases h
    | false :: x =>
      simp only [desWithin] at h
      simp only [desLeftWithin]
      by_cases hc : c + n = NSYM
      · rw [if_pos hc] at h; cases h
      rw [if_neg hc] at h ⊢
      cases hl : desWithin f x c (n + 1) with
      | error e => rw [hl] at h; cases h
      | ok q =>
        rw [hl] at h
        obtain ⟨l, x1, c1⟩ := q
        simp only at h ⊢
        cases hr : desWithin f x1 c1 n with
        | error e => rw [hr] at h; cases h
        | ok q => rw [hr] at h; cases h; exact ih hr
    | true :: x =>
      simp only [desWithin] at h
      simp only [desLeftWithin]
      by_cases hl : x.length < 9
      · rw [if_pos hl] at h; cases h
      rw [if_neg hl] at h ⊢
      split at h
      · cases h
      · cases h; rfl

/-- `des` leaves no more bits than it is given. -/
theorem desLeftWithin_length (f : Nat) (x : Bits) (c n : Nat) :
    (desLeftWithin f x c n).length ≤ x.length := by
  induction f generalizing x c n with
  | zero => exact Nat.le_refl _
  | succ f ih =>
    match x with
    | [] => exact Nat.le_refl _
    | false :: x =>
      simp only [desLeftWithin, List.length_cons]
      split
      · omega
      · have h1 := ih x c (n + 1)
        cases hl : desWithin f x c (n + 1) with
        | error e => simp only; omega
        | ok q =>
          obtain ⟨l, x1, c1⟩ := q
          rw [desLeftWithin_ok hl] at h1
          have h2 := ih x1 c1 n
          simp only
          omega
    | true :: x =>
      simp only [desLeftWithin, List.length_cons]
      split
      · omega
      · simp only [List.length_drop]; omega

/-- On `EOD_HDR_TAG` no bit is left unread (60_exceptions R201). -/
theorem desLeftWithin_eodHdrTag {f c n : Nat} {x : Bits} {e : Raised} (hf : x.length < f)
    (h : desWithin f x c n = .error e) (he : e.sub = .eodHdrTag) : desLeftWithin f x c n = [] := by
  induction f generalizing x c n with
  | zero => omega
  | succ f ih =>
    match x, hf with
    | [], _ => rfl
    | false :: x, hf =>
      simp only [desWithin] at h
      simp only [desLeftWithin]
      by_cases hc : c + n = NSYM
      · rw [if_pos hc] at h; cases h; cases he
      rw [if_neg hc] at h ⊢
      simp only [List.length_cons] at hf
      cases hl : desWithin f x c (n + 1) with
      | error e' => rw [hl] at h; cases h; exact ih (by omega) hl
      | ok q =>
        have hlen := desLeftWithin_length f x c (n + 1)
        rw [desLeftWithin_ok hl] at hlen
        rw [hl] at h
        obtain ⟨l, x1, c1⟩ := q
        simp only at h hlen ⊢
        cases hr : desWithin f x1 c1 n with
        | ok q => rw [hr] at h; cases h
        | error e' => rw [hr] at h; cases h; exact ih (by omega) hr
    | true :: x, hf =>
      simp only [desWithin] at h
      by_cases hl : x.length < 9
      · rw [if_pos hl] at h; cases h; cases he
      rw [if_neg hl] at h
      split at h
      · cases h; cases he
      · cases h

/-- Where `walk` succeeds, the bytes it has emitted are those it answers. -/
theorem walkOut_ok {tl tr l r : Tree} {x rest : Bits} {out o : List (BitVec 8)}
    (h : walk tl tr x l r out = .ok (o, rest)) : walkOut tl tr x l r out = o := by
  induction x generalizing l r out with
  | nil => cases h
  | cons b x ih =>
    simp only [walk] at h
    simp only [walkOut]
    cases hc : (if b then r else l) with
    | node l' r' => rw [hc] at h; exact ih h
    | leaf y =>
      rw [hc] at h
      simp only at h ⊢
      by_cases hy : y = EOF_SYM
      · rw [if_pos hy] at h ⊢; cases h; rfl
      · rw [if_neg hy] at h ⊢; exact ih h

/-- Where `dec` succeeds, the bytes it has emitted are those it answers. -/
theorem decOut_ok {t : Tree} {x rest : Bits} {o : List (BitVec 8)}
    (h : dec t x = .ok (o, rest)) : decOut t x = o := by
  cases t with
  | leaf y =>
    simp only [dec] at h
    split at h
    · cases h; rfl
    · cases h
  | node l r => exact walkOut_ok h

/-- `decompress` on a source that begins with the word `w` (44 R177). -/
theorem decompress_word (m w : Word32) (x : Bits) :
    decompress m (bitsOf 32 w.toNat ++ x) =
      if w ≠ m then .error ⟨.malformedHeader, .magicMismatch, w⟩
      else
        match des x 0 1 with
        | .error e => .error e
        | .ok (t, y, _) => dec t y := by
  unfold decompress
  rw [if_neg (by simp), take_bitsOf_append, drop_bitsOf_append, valOf_bitsOf_of_lt w.isLt]
  have hw : BitVec.ofNat 32 w.toNat = w := by simp
  generalize BitVec.ofNat 32 w.toNat = v at hw ⊢
  subst hw
  exact rfl

/-- `walk` on one whole code (44 R177). -/
theorem walk_code (tl tr : Tree) {l r : Tree} {p : Bits} {y : Sym} (x : Bits)
    (out : List (BitVec 8)) (hp : (Tree.node l r).sub p = some (.leaf y)) :
    walk tl tr (p ++ x) l r out =
      if y = EOF_SYM then .ok (out, x) else walk tl tr x tl tr (out ++ [BitVec.setWidth 8 y]) := by
  induction p generalizing l r with
  | nil => simp at hp
  | cons b p ih =>
    rw [Tree.sub_node_cons] at hp
    simp only [List.cons_append, walk]
    cases hc : (if b then r else l) with
    | leaf z =>
      rw [hc] at hp
      cases p with
      | nil =>
        simp only [Tree.sub_nil, Option.some.injEq, Tree.leaf.injEq] at hp
        subst hp
        rfl
      | cons => simp at hp
    | node l' r' =>
      rw [hc] at hp
      exact ih hp

theorem setWidth_byte_eq_symOf (b : BitVec 8) : BitVec.setWidth 9 b = symOf b.toNat := by
  apply BitVec.eq_of_toNat_eq
  have hb := b.isLt
  rw [symOf_toNat (by omega), BitVec.toNat_setWidth, Nat.mod_eq_of_lt (by omega)]

theorem setWidth_symOf_byte (b : BitVec 8) : BitVec.setWidth 8 (symOf b.toNat) = b := by
  apply BitVec.eq_of_toNat_eq
  have hb := b.isLt
  rw [BitVec.toNat_setWidth, symOf_toNat (by omega), Nat.mod_eq_of_lt hb]

/-- A tree without a symbol twice gives a leaf the path that leads to it (43 R153 (a)). -/
theorem codeOf_of_mem {t : Tree} {a : Sym} {p : Bits} (hn : t.leaves.Nodup)
    (h : (a, p) ∈ t.codes) : codeOf t a = some p := by
  rw [codeOf_eq_lastFor]
  cases hl : lastFor a t.codes with
  | none => exact absurd (List.mem_map.mpr ⟨_, h, rfl⟩) (lastFor_eq_none.mp hl)
  | some q =>
    have hq := lastFor_mem hl
    rw [← Tree.codes_fst] at hn
    have := List.inj_on_of_nodup_map hn h hq rfl
    rw [Prod.mk.injEq] at this
    rw [this.2]

/-- The counts of a source (40 R105). -/
theorem countsOf_get (B : List (BitVec 8)) {v : Nat} (hv : v < 257) :
    (countsOf B).get v = if v = 256 then 1 else B.countP fun b => decide (b.toNat = v) := by
  simp [countsOf, CountTable.get, hv]

/-- Tables with the same entries are the same table. -/
theorem CountTable.ext_get {a b : CountTable} (h : ∀ v, v < 257 → a.get v = b.get v) : a = b := by
  apply Vector.ext
  intro i hi
  simpa [CountTable.get, hi] using h i hi

/-- An admissible merge keeps the leaves and the sum of the weights, and lowers the number of entries by one (40 R107, R111). -/
theorem MergeRel.keeps {pq pq' : List PqEntry} {q : Nat} (h : MergeRel pq q pq') :
    (leavesIn (pq'.map PqEntry.tree)).Perm (leavesIn (pq.map PqEntry.tree)) ∧
      (pq'.map PqEntry.weight).sum = (pq.map PqEntry.weight).sum ∧
      pq'.length + 1 = pq.length := by
  obtain ⟨a, b, l, r, ha, -, hb, -, hlr⟩ := h
  have hp := erase_erase_perm ha hb
  have hl := hp.length_eq
  simp only [List.length_cons] at hl
  refine ⟨?_, ?_, by simp; omega⟩
  · refine List.Perm.trans ?_ (leavesIn_perm (hp.map PqEntry.tree)).symm
    simp only [List.map_append, List.map_cons, List.map_nil, leavesIn_append, leavesIn_cons,
      leavesIn_nil, List.append_nil, Tree.leaves]
    refine List.perm_append_comm.trans ?_
    rw [← List.append_assoc]
    refine List.Perm.append_right _ ?_
    rcases hlr with ⟨rfl, rfl⟩ | ⟨rfl, rfl⟩
    · exact List.Perm.refl _
    · exact List.perm_append_comm
  · have h2 := (hp.map PqEntry.weight).sum_eq
    simp only [List.map_cons, List.sum_cons] at h2
    simp
    omega

/-- No merge changes the sum of the weights (40 R111 (c)). -/
theorem merges_weights {a b : List PqEntry × Nat} (h : Relation.ReflTransGen Merges a b) :
    (b.1.map PqEntry.weight).sum = (a.1.map PqEntry.weight).sum := by
  induction h with
  | refl => rfl
  | tail _ hm ih => rw [hm.1.keeps.2.1, ih]

end Sys2Proof.Machine
end

