-- ==== Sys2Proof/Laws/Run.lean ====
section
/-! SUPPORT. Runs of many steps: how they compose, and the one induction that carries a property of every step to every run. -/

namespace Sys2Proof.Machine

@[simp] theorem run_zero (s : State) : run 0 s = .next s := rfl

theorem run_succ (n : Nat) (s : State) : run (n + 1) s = andThen (step s) (run n) := rfl

theorem run_add (m n : Nat) (s : State) : run (m + n) s = andThen (run m s) (run n) := by
  induction m generalizing s with
  | zero => rw [Nat.zero_add]; rfl
  | succ m ih =>
    rw [Nat.succ_add, run_succ, run_succ]
    cases step s with
    | next s1 => exact ih s1
    | fault r => rfl
    | refused r => rfl

theorem run_trans {m n : Nat} {s t u : State} (h1 : run m s = .next t) (h2 : run n t = .next u) :
    run (m + n) s = .next u := by
  rw [run_add, h1]; exact h2

theorem run_cons {n : Nat} {s t u : State} (h1 : step s = .next t) (h2 : run n t = .next u) :
    run (n + 1) s = .next u := by
  rw [run_succ, h1]; exact h2

theorem run_case {n : Nat} {s t u : State} (hq : Quiet s) (h1 : StepCase s t)
    (h2 : run n t = .next u) : run (n + 1) s = .next u :=
  run_cons (step_of_case hq h1) h2

theorem Reaches.refl (s : State) : Reaches s s := ⟨0, rfl⟩

theorem Reaches.trans {s t u : State} (h1 : Reaches s t) (h2 : Reaches t u) : Reaches s u := by
  obtain ⟨m, hm⟩ := h1
  obtain ⟨n, hn⟩ := h2
  exact ⟨m + n, run_trans hm hn⟩

theorem Reaches.of_step {s t u : State} (h1 : step s = .next t) (h2 : Reaches t u) : Reaches s u := by
  obtain ⟨n, hn⟩ := h2
  exact ⟨n + 1, run_cons h1 hn⟩

theorem Reaches.of_case {s t u : State} (hq : Quiet s) (h1 : StepCase s t) (h2 : Reaches t u) :
    Reaches s u :=
  Reaches.of_step (step_of_case hq h1) h2

/-- A property that every step keeps holds wherever a run ends. -/
theorem Reaches.keeps {P : State → Prop} (hstep : ∀ s t, P s → step s = .next t → P t)
    {s t : State} (h : Reaches s t) (hs : P s) : P t := by
  obtain ⟨n, hn⟩ := h
  induction n generalizing s with
  | zero => cases hn; exact hs
  | succ n ih =>
    rw [run_succ] at hn
    cases h1 : step s with
    | next s1 => rw [h1] at hn; exact ih (hstep s s1 hs h1) hn
    | fault r => rw [h1] at hn; cases hn
    | refused r => rw [h1] at hn; cases hn

/-- The step that sees a command on the port. -/
theorem step_present {s s' : State} {c : Command} (hr : s.rst = false)
    (h : CommandCase (clearPort (s.presentCommand c)) c s') :
    step (s.presentCommand c) = .next s' := by
  rw [step_command (s := s.presentCommand c) (w := c.code) hr rfl]
  exact exec_of_commandCase h

end Sys2Proof.Machine
end

