-- ==== Sys2Proof/Tests/Slice0.lean ====
section
/-! SUPPORT. Tests of one step or one operation each, with results from 95_test_vectors or worked by hand from the rules, and a witness for the hypotheses of every obligation that has some. -/

namespace Sys2Proof.Tests

open Sys2Proof.Machine

/-! ## Helpers -/

/-- `N(N(L66,L256),L65)`, the tree of 40_tree_builder R114. -/
def tree3 : Tree := .node (.node (.leaf 66) (.leaf 256)) (.leaf 65)

/-- The reset state in another phase with a source. -/
def reading (p : Phase) (x : Bits) : State := { State.reset with phase := p, src := ⟨x, 0⟩ }

/-- The reset state with a tree held, in a phase of a command. -/
def holding (p : Phase) (c : Command) (t : Tree) (x : Bits) : State :=
  { State.reset with phase := p, cmd := c, tree := some t, treeValid := true, src := ⟨x, 0⟩ }

/-- `holding` in `DEC_WALK` at the position `u`. -/
def walking (t u : Tree) (x : Bits) : State :=
  { holding .decWalk .decRun t x with cur := some u }

/-- The next state of a step, if there is one. -/
def after : Out → Option State
  | .next s => some s
  | .fault _ | .refused _ => none

/-- The refusal a step ends in, if it does. -/
def refusal : Out → Option Refusal
  | .refused r => some r
  | .next _ | .fault _ => none

/-! ## WellFormed refuses what is ill formed -/

theorem test_wf_magicBad_is_not_magic : (Instr.magicBad 0xFACE8201).wfFor 0xFACE8201 = false := by decide
theorem test_wf_magicBad_other : (Instr.magicBad 0xFACE8200).wfFor 0xFACE8201 = true := by decide
theorem test_wf_leaf_257 : (Instr.l 257).wfFor 0 = false := by decide
theorem test_wf_leaf_256 : (Instr.l 256).wfFor 0 = true := by decide
theorem test_wf_reserved_256 : (Instr.lReserved 256).wfFor 0 = false := by decide
theorem test_wf_reserved_257 : (Instr.lReserved 257).wfFor 0 = true := by decide
theorem test_wf_code_257_bits : (Instr.c (List.replicate 257 true)).wfFor 0 = false := by decide +kernel
theorem test_wf_code_256_bits : (Instr.c (List.replicate 256 true)).wfFor 0 = true := by decide +kernel
theorem test_wf_pad_8 : (Instr.pad 8).wfFor 0 = false := by decide
theorem test_wf_pad_7 : (Instr.pad 7).wfFor 0 = true := by decide

/-! ## Decoding: words written out from 30_encoding -/

-- R91, the eight command codes
theorem test_decode_nop : decodeTableWord 3 0b000 = some .nop := by decide
theorem test_decode_compress : decodeTableWord 3 0b001 = some .compress := by decide
theorem test_decode_decompress : decodeTableWord 3 0b010 = some .decompress := by decide
theorem test_decode_tbRun : decodeTableWord 3 0b011 = some .tbRun := by decide
theorem test_decode_hsRun : decodeTableWord 3 0b100 = some .hsRun := by decide
theorem test_decode_hdRun : decodeTableWord 3 0b101 = some .hdRun := by decide
theorem test_decode_encRun : decodeTableWord 3 0b110 = some .encRun := by decide
theorem test_decode_decRun : decodeTableWord 3 0b111 = some .decRun := by decide
-- R81, R95 with the vectors' MAGIC (FA CE 82 01), then one bit more, and FV1's first word
theorem test_decode_magic :
    decodeMagic 0xFACE8201 (bitsOfBytes [0xFA, 0xCE, 0x82, 0x01] ++ [true]) = (.magic, [true]) := by
  decide
theorem test_decode_magicBad :
    decodeMagic 0xFACE8201 (bitsOfBytes [0xFA, 0xCE, 0x82, 0x00]) = (.magicBad 0xFACE8200, []) := by
  decide
-- R82, R83, R94: HV1, HV2, HV5 and HDV8, HDV9
theorem test_decode_n : decodeTableWord 1 0b0 = some .n := by decide
theorem test_decode_l_65 : decodeTableWord 10 0b1001000001 = some (.l 65) := by decide
theorem test_decode_l_eof : decodeTableWord 10 0b1100000000 = some (.l 256) := by decide
theorem test_decode_reserved_257 : decodeTableWord 10 0b1100000001 = some (.lReserved 257) := by decide
theorem test_decode_reserved_511 : decodeTableWord 10 0b1111111111 = some (.lReserved 511) := by decide
-- R85: in the tree of R114 the code of 66 is 00 and that of 65 is 1
theorem test_decode_code_66 :
    decodeFor 0 (.code tree3) [false, false, true] = .ok (.c [false, false], [true]) := by decide
theorem test_decode_code_65 : decodeFor 0 (.code tree3) [true, true] = .ok (.c [true], [true]) := by
  decide
theorem test_decode_body_bit : decodeFor 0 .bodyBit [true, false] = .ok (.c [true], [false]) := by
  decide
-- R86
theorem test_decode_pad : decodeFor 0 (.padding 1) [false] = .ok (.pad 1, []) := by decide
theorem test_decode_short_pad : decodeFor 0 (.padding 2) [false] = .error .shortPadding := by decide
-- R98: the end-of-data events
theorem test_decode_eodAtMagic :
    decodeFor 0 .magic (List.replicate 31 true) = .ok (.eodAtMagic, List.replicate 31 true) := by
  decide
theorem test_decode_eodAtHdrTag : decodeFor 0 .header [] = .ok (.eodAtHdrTag, []) := by decide
theorem test_decode_eodAtHdrSym :
    decodeFor 0 .header (true :: List.replicate 8 false) =
      .ok (.eodAtHdrSym, List.replicate 8 false) := by decide
theorem test_decode_eodAtBody : decodeFor 0 .bodyBit [] = .ok (.eodAtBody, []) := by decide
theorem test_decode_short_command : decodeFor 0 .command [true, true] = .error .shortCommand := by
  decide

/-! ## The four transactions: 95_test_vectors 2.1 -/

-- MV2: bytes A5 0F, position 1, nine bits
theorem test_mv2 :
    (srcRead 9 { State.reset with src := ⟨bitsOfBytes [0xA5, 0x0F], 1⟩ }).1 = some 148 := by decide
-- MV3: six bits left, eight asked
theorem test_mv3 :
    (srcRead 8 { State.reset with src := ⟨bitsOfBytes [0xA5, 0x0F], 10⟩ }).1 = none ∧
    (srcRead 8 { State.reset with src := ⟨bitsOfBytes [0xA5, 0x0F], 10⟩ }).2.src.pos = 10 := by decide
-- MV8
theorem test_mv8 : (srcRewind { State.reset with src := ⟨bitsOfBytes [0xA5, 0x0F], 13⟩ }).src.pos = 0 := by
  decide
-- MV10: 1 001000001 closes as the bytes 90 40
theorem test_mv10 :
    (after (snkClose { State.reset with
      snk := ⟨[true, false, false, true, false, false, false, false, false, true], false⟩ })).bind
      State.sinkBytes = some [0x90, 0x40] := by decide
-- MV12: the low 9 bits of 0x341
theorem test_mv12 : ((after (snkWrite 9 0x341 State.reset)).map fun s => valOf s.snk.bits) = some 0x141 := by
  decide
-- MV13
theorem test_mv13 :
    ((after (snkWritePath [false, true, true] State.reset)).map fun s => s.snk.bits) =
      ((after (snkWrite 3 3 State.reset)).map fun s => s.snk.bits) := by decide

/-! ## One step of an instruction -/

-- QV1
theorem test_nop : ((after (exec .nop State.reset)).map State.hostView) = some State.reset.hostView := by
  decide
-- P1 step 0
theorem test_compress :
    ((after (exec .compress State.reset)).map fun s => (s.phase, s.cmd)) = some (.tbCount, .compress) := by
  decide
-- QV5: the counts' flag stays, the tree's goes
theorem test_decompress :
    ((after (exec .decompress { holding .done .compress tree3 [] with countValid := true })).map
      fun s => (s.phase, s.treeValid, s.countValid, s.need)) = some (.decMagic, false, true, 1) := by
  decide
theorem test_tbRun :
    ((after (exec .tbRun (holding .done .hdRun tree3 []))).map fun s => (s.phase, s.treeValid)) =
      some (.tbCount, false) := by decide
-- QV6
theorem test_hsRun_without_tree : refusal (exec .hsRun State.reset) = some .treeNotValid := by decide
theorem test_hsRun :
    ((after (exec .hsRun (holding .idle .nop tree3 []))).map fun s => (s.phase, s.treeValid)) =
      some (.hsWalk, true) := by decide
theorem test_hdRun :
    ((after (exec .hdRun (holding .done .hsRun tree3 []))).map fun s => (s.phase, s.treeValid)) =
      some (.hdWalk, false) := by decide
theorem test_encRun :
    ((after (exec .encRun (holding .done .hdRun tree3 []))).map fun s => (s.phase, s.treeValid)) =
      some (.encMagic, true) := by decide
theorem test_encRun_closed_sink :
    refusal (exec .encRun { holding .done .hdRun tree3 [] with snk := ⟨[], true⟩ }) =
      some .sinkNotReady := by decide
theorem test_decRun :
    ((after (exec .decRun (holding .done .hdRun tree3 []))).map fun s => (s.phase, s.cmd)) =
      some (.decStart, .decRun) := by decide
-- QV2, QV3
theorem test_command_ignored_while_busy :
    ((after (exec .compress (reading .encBody []))).map fun s => s.phase) = some .encBody := by decide
theorem test_command_ignored_in_fault :
    ((after (exec .compress (reading .fault []))).map fun s => s.phase) = some .fault := by decide
-- R172 with the vectors' MAGIC: P2 step 1, FV1, FV4
theorem test_magic_read :
    ((after (decReadMagic 0xFACE8201 0xFACE8201
      (reading .decMagic (bitsOfBytes [0xFA, 0xCE, 0x82, 0x01])))).map
      fun s => (s.phase, s.src.pos)) = some (.hdWalk, 32) := by decide
theorem test_magicBad_read :
    ((after (decReadMagic 0xFACE8201 0xFACE8200
      (reading .decMagic (bitsOfBytes [0xFA, 0xCE, 0x82, 0x00])))).map
      fun s => (s.phase, s.faultSub, s.faultValue, s.faultPhase, s.src.pos)) =
      some (.fault, .magicMismatch, 0xFACE8200, .decMagic, 32) := by decide
theorem test_eodAtMagic :
    ((after (exec .eodAtMagic (reading .decMagic (List.replicate 31 true)))).map
      fun s => (s.faultCode, s.faultSub, s.src.pos)) = some (.truncatedStream, .eodMagic, 0) := by
  decide
-- P1 step 10
theorem test_magic_write :
    ((after (encWriteMagic 0xFACE8201 (holding .encMagic .encRun tree3 []))).map
      fun s => (s.phase, bytesOfBits s.snk.bits)) = some (.hsWalk, [0xFA, 0xCE, 0x82, 0x01]) := by decide
-- P2 step 2, HDV12
theorem test_n_read :
    ((after (exec .n (reading .hdWalk [false]))).map fun s => (s.hdStack, s.need, s.src.pos)) =
      some ([.awaitLeft], 2, 1) := by decide
theorem test_n_capacity :
    ((after (exec .n { reading .hdWalk [false] with leafCnt := 0, need := 257 })).map
      fun s => (s.faultCode, s.faultSub, s.need)) = some (.malformedHeader, .capacity, 257) := by decide
-- P1 step 11
theorem test_n_write :
    ((after (exec .n (holding .hsWalk .hsRun tree3 []))).map fun s => (s.snk.bits, s.hsStack)) =
      some ([false], [.node (.leaf 66) (.leaf 256), .leaf 65]) := by decide
-- P2 step 5: the second leaf closes N(L66,L256) and becomes the left subtree of the root
theorem test_l_read :
    ((after (exec (.l 256)
      { reading .hdWalk (true :: bitsOf 9 256) with
        cmd := .hdRun, hdStack := [.haveLeft (.leaf 66), .awaitLeft], leafCnt := 1, need := 2 })).map
      fun s => (s.hdStack, s.leafCnt, s.need)) =
      some ([.haveLeft (.node (.leaf 66) (.leaf 256))], 2, 1) := by decide
-- HDV1
theorem test_l_read_last :
    ((after (exec (.l 256) { reading .hdWalk (true :: bitsOf 9 256) with cmd := .hdRun })).map
      fun s => (s.phase, s.tree, s.treeOrigin, s.src.pos)) =
      some (.done, some (.leaf 256), .read, 10) := by decide
-- HDV8
theorem test_lReserved_read :
    ((after (exec (.lReserved 257) (reading .hdWalk (true :: bitsOf 9 257)))).map
      fun s => (s.faultSub, s.faultValue, s.src.pos)) = some (.symbolRange, 257, 10) := by decide
-- HDV4, HDV6
theorem test_eodAtHdrTag :
    ((after (exec .eodAtHdrTag (reading .hdWalk []))).map fun s => (s.faultSub, s.src.pos)) =
      some (.eodHdrTag, 0) := by decide
theorem test_eodAtHdrSym :
    ((after (exec .eodAtHdrSym (reading .hdWalk [true, false, false, true, false, false]))).map
      fun s => (s.faultSub, s.src.pos)) = some (.eodHdrSym, 1) := by decide
-- P2 steps 8 and 14
theorem test_c_byte :
    ((after (exec (.c [true]) (walking tree3 tree3 [true]))).map
      fun s => (bytesOfBits s.snk.bits, s.cur)) = some ([65], some tree3) := by decide
theorem test_c_sentinel :
    ((after (exec (.c [true]) (walking tree3 (.node (.leaf 66) (.leaf 256)) [true]))).map
      fun s => (s.phase, s.snk.bits)) = some (.decClose, []) := by decide
-- P1 step 21: the byte 66 goes out as 00
theorem test_c_write :
    ((after (exec (.c [false, false])
      { holding .encBody .encRun tree3 (bitsOf 8 66) with
        code := CodeTable.put State.reset.code 66 [false, false] })).map
      fun s => (s.snk.bits, s.src.pos)) = some ([false, false], 8) := by decide +kernel
-- FV10
theorem test_eodAtBody :
    ((after (exec .eodAtBody (walking tree3 tree3 []))).map
      fun s => (s.faultSub, s.faultPhase, s.snk.closed)) = some (.eodBody, .decWalk, false) := by decide
-- P1 step 24: 71 bits, one zero
theorem test_pad :
    ((after (exec (.pad 1)
      { holding .encClose .encRun tree3 [] with snk := ⟨List.replicate 71 true, false⟩ })).map
      fun s => (s.phase, s.snk.bits.length, s.snk.closed)) = some (.done, 72, true) := by decide

/-! ## Rules that fire without an item -/

-- DV3, FV15
theorem test_decStart_sentinel :
    ((after (step (holding .decStart .decRun (.leaf 256) []))).map fun s => s.phase) =
      some .decClose := by decide
theorem test_decStart_byte :
    ((after (step (holding .decStart .decRun (.leaf 65) []))).map
      fun s => (s.faultSub, s.faultValue, s.faultPhase)) = some (.leafRoot, 65, .decStart) := by decide
-- P1 steps 4 and 5
theorem test_count_byte :
    ((after (step (reading .tbCount (bitsOf 8 66)))).map fun s => (s.count.get 66, s.count.get 65)) =
      some (1, 0) := by decide +kernel
theorem test_count_end :
    ((after (step (reading .tbCount [true]))).map
      fun s => (s.phase, s.count.get 256, s.src.pos)) = some (.tbInit, 1, 0) := by decide +kernel
-- P1 step 7 under the reference policy
theorem test_merge :
    mergeStep Policy.fifo [⟨3, 0, .leaf 65⟩, ⟨1, 1, .leaf 66⟩, ⟨1, 2, .leaf 256⟩] 3 =
      some [⟨3, 0, .leaf 65⟩, ⟨2, 3, .node (.leaf 66) (.leaf 256)⟩] := by decide
-- R114 step TB_INIT, on the symbols that qualify
theorem test_enqueue :
    enqueueLeaves ((State.reset.count.put 65 3).put 66 1) (orderByKey id [66, 65]) 0 =
      [⟨3, 0, .leaf 65⟩, ⟨1, 1, .leaf 66⟩] := by decide +kernel
-- P1 step 16
theorem test_table :
    ((after (step (holding .encTable .encRun tree3 []))).map
      fun s => (s.code.get 65, s.code.get 66, s.code.get 256, s.code.get 67)) =
      some (some [true], some [false, false], some [false, true], none) := by decide +kernel
theorem test_rewind :
    ((after (step { reading .encRewind (bitsOf 8 1) with src := ⟨bitsOf 8 1, 8⟩ })).map
      fun s => (s.phase, s.src.pos)) = some (.encBody, 0) := by decide
-- QV7
theorem test_reset :
    ((after (step { walking tree3 tree3 [] with rst := true, snk := ⟨[true], false⟩ })).map
      fun s => (s.phase, s.snk, s.faultCode)) = some (.idle, ⟨[true], false⟩, .none) := by decide
-- HDV17
theorem test_des_leaf : des (true :: bitsOf 9 65) 0 1 = .ok (.leaf 65, [], 1) := by rfl
-- HV4
theorem test_ser : bytesOfBits tree3.ser = [0x24, 0x2C, 0x02, 0x41] := by decide
-- EV2, DV1
theorem test_enc :
    (enc 0xFACE8201 tree3 [65, 65, 65, 66]).map bytesOfBits =
      some [0xFA, 0xCE, 0x82, 0x01, 0x24, 0x2C, 0x02, 0x41, 0xE2] := by decide

/-! ## Witnesses: concrete states and operands that meet the hypotheses of the obligations, clause by clause -/

theorem exists_step {s : State} {p : State → Bool} (h : (after (step s)).map p = some true) :
    ∃ t, step s = .next t ∧ p t = true := by
  cases hs : step s with
  | next t => exact ⟨t, rfl, by simpa [hs, after] using h⟩
  | fault r => simp [hs, after] at h
  | refused r => simp [hs, after] at h

theorem exists_refused {o : Out} {r : Refusal} (h : refusal o = some r) : o = .refused r := by
  cases o <;> simp_all [refusal]

/-- A word that differs from `MAGIC`, whatever that is. -/
theorem not_magic_ne : ~~~Config.magic ≠ Config.magic := by
  intro h
  have := congrArg (fun w => w.getLsbD 0) h
  simp at this

/-! ### Encoding, reset, the step -/

theorem test_witness_DecodeEncodeRoundTrip :
    ((Instr.magicBad (~~~Config.magic)).wf = true ∧ (Instr.magicBad (~~~Config.magic)).standsIn .magic []) ∧
    ((Instr.l 256).wf = true ∧ (Instr.l 256).standsIn .header [true]) ∧
    ((Instr.lReserved 257).wf = true ∧ (Instr.lReserved 257).standsIn .header []) ∧
    ((Instr.c [false, true]).wf = true ∧ (Instr.c [false, true]).standsIn (.code tree3) [true]) ∧
    ((Instr.pad 7).wf = true ∧ (Instr.pad 7).standsIn (.padding 7) []) ∧
    ((Instr.eodAtMagic).wf = true ∧ (Instr.eodAtMagic).standsIn .magic (List.replicate 31 true)) ∧
    ((Instr.eodAtHdrSym).wf = true ∧ (Instr.eodAtHdrSym).standsIn .header (List.replicate 8 true)) := by
  refine ⟨⟨?_, rfl⟩, ⟨rfl, rfl⟩, ⟨rfl, rfl⟩, ⟨rfl, .inr ⟨tree3, 256, rfl, rfl⟩⟩, ⟨rfl, rfl⟩,
    ⟨rfl, rfl, by decide⟩, ⟨rfl, rfl, by decide⟩⟩
  simp [Instr.wf, Instr.wfFor]

theorem test_witness_DecodeConsumesTheItem :
    decode .header (true :: bitsOf 9 256 ++ [true]) = .ok (.l 256, [true]) ∧
    decode .command [true, true, true] = .ok (.decRun, []) ∧
    decode .bodyBit [true] = .ok (.c [true], []) ∧
    decode .magic [] = .ok (.eodAtMagic, []) ∧
    decode (.code tree3) [false, true, true] = .ok (.c [false, true], [true]) := by
  refine ⟨rfl, rfl, rfl, rfl, rfl⟩

theorem test_witness_ResetFromAnyState :
    (walking tree3 tree3 []).assertReset.rst = true ∧
    ((walking tree3 tree3 []).presentCommand .compress).assertReset.rst = true := by decide

theorem test_witness_StepRunsTheDecodedInstruction :
    (State.reset.rst = false ∧ (State.reset.presentCommand .decRun).cmdPort = some 7 ∧
      decode .command (bitsOf 3 (7 : BitVec 3).toNat) = .ok (.decRun, [])) ∧
    (Quiet (reading .hdWalk [false]) ∧ decode .header (reading .hdWalk [false]).unread = .ok (.n, [])) ∧
    (Quiet (reading .decMagic []) ∧ decode .magic (reading .decMagic []).unread = .ok (.eodAtMagic, [])) ∧
    (Quiet (reading .decWalk [true]) ∧
      decode .bodyBit (reading .decWalk [true]).unread = .ok (.c [true], [])) ∧
    (∃ s : State, Quiet s ∧ s.phase = .hsWalk ∧ s.hsStack = [tree3]) ∧
    (∃ s : State, Quiet s ∧ s.phase = .hsWalk ∧ s.hsStack = [.leaf 256]) ∧
    (∃ s : State, Quiet s ∧ s.phase = .encBody ∧ s.unread = bitsOf 8 (255 : BitVec 8).toNat ++ [] ∧
      s.code.get 255 = some [true]) ∧
    (∃ s : State, Quiet s ∧ s.phase = .encEof ∧ s.code.get 256 = some []) ∧
    (∃ s : State, Quiet s ∧ s.phase = .decStart ∧ s.treeValid = true ∧ s.tree = some (.leaf EOF_SYM)) := by
  refine ⟨⟨rfl, rfl, rfl⟩, ⟨⟨rfl, rfl⟩, rfl⟩, ⟨⟨rfl, rfl⟩, rfl⟩, ⟨⟨rfl, rfl⟩, rfl⟩,
    ⟨{ reading .hsWalk [] with hsStack := [tree3] }, ⟨rfl, rfl⟩, rfl, rfl⟩,
    ⟨{ reading .hsWalk [] with hsStack := [.leaf 256] }, ⟨rfl, rfl⟩, rfl, rfl⟩,
    ⟨{ reading .encBody (bitsOf 8 255) with code := State.reset.code.put 255 [true] },
      ⟨rfl, rfl⟩, rfl, rfl, ?_⟩,
    ⟨{ reading .encEof [] with code := State.reset.code.put 256 [] }, ⟨rfl, rfl⟩, rfl, ?_⟩,
    ⟨holding .decStart .decRun (.leaf EOF_SYM) [], ⟨rfl, rfl⟩, rfl, rfl, rfl⟩⟩ <;> decide +kernel

theorem test_witness_FetchedWordRuns :
    decodeTableWord 10 0b1100000000 = some (.l 256) ∧ decodeTableWord 8 7 = some .decRun := by decide

/-! ### Commands -/

theorem test_witness_CommandsIgnoredWhileBusyOrFaulted :
    ∃ s t : State, s.phase = .tbCount ∧ s.rst = false ∧ s.cmdPort = some Command.hsRun.code ∧
      t.phase = .fault ∧ t.rst = false ∧ t.cmdPort = some Command.compress.code :=
  ⟨(reading .tbCount []).presentCommand .hsRun, (reading .fault []).presentCommand .compress,
    rfl, rfl, rfl, rfl, rfl, rfl⟩

theorem test_witness_BuildCommandsAccepted :
    ∃ s t : State, s.phase = .idle ∧ s.snk = ⟨[], false⟩ ∧ t.phase = .done ∧ t.snk ≠ ⟨[], false⟩ :=
  ⟨State.reset, { reading .done [] with snk := ⟨[], true⟩ }, rfl, rfl, rfl, by decide⟩

theorem test_witness_ReadCommandsAccepted :
    ∃ s t : State, s.phase = .idle ∧ s.snk = ⟨[], false⟩ ∧ t.phase = .done ∧ t.snk ≠ ⟨[], false⟩ :=
  ⟨State.reset, { reading .done [] with snk := ⟨[true], false⟩ }, rfl, rfl, rfl, by decide⟩

theorem test_witness_TreeCommandsAccepted :
    ∃ s t u : State, (s.phase = .idle ∧ s.treeValid = true ∧ s.snk.closed = false ∧ s.snk = ⟨[], false⟩) ∧
      (t.phase = .done ∧ t.treeValid = true ∧ t.snk.closed = true ∧ t.snk ≠ ⟨[], false⟩) ∧
      (u.phase = .idle ∧ u.treeValid = false) :=
  ⟨holding .idle .nop tree3 [], { holding .done .hdRun tree3 [] with snk := ⟨[], true⟩ }, State.reset,
    ⟨rfl, rfl, rfl, rfl⟩, ⟨rfl, rfl, rfl, by decide⟩, rfl, rfl⟩

/-! ### Streams -/

theorem test_witness_SrcReadReturnsTheNextBits :
    (reading .idle (bitsOf 8 1)).src.pos + 8 ≤ (reading .idle (bitsOf 8 1)).src.bits.length ∧
    (reading .idle (bitsOf 8 1)).src.bits.length < (reading .idle (bitsOf 8 1)).src.pos + 9 := by decide

theorem test_witness_SnkWriteAppendsHighBitFirst : State.reset.snk.closed = false := rfl

theorem test_witness_RewindAndClose :
    ({ State.reset with snk := ⟨[true], false⟩ } : State).snk.closed = false := rfl

theorem test_witness_StreamBitsOfBytes :
    ([(0xA5 : BitVec 8)])[0]? = some 0xA5 ∧ (7 : Nat) < 8 ∧ (bitsOf 8 0xA5).length % 8 = 0 := by decide

/-! ### Items -/

theorem test_witness_MagicReadAndCompared :
    ((reading .decMagic (bitsOf 32 Config.magic.toNat)).phase = .decMagic ∧
      (reading .decMagic (bitsOf 32 Config.magic.toNat)).unread = bitsOf 32 Config.magic.toNat ++ []) ∧
    (~~~Config.magic ≠ Config.magic ∧
      (reading .decMagic (bitsOf 32 (~~~Config.magic).toNat)).unread =
        bitsOf 32 (~~~Config.magic).toNat ++ []) ∧
    (reading .decMagic (List.replicate 31 true)).unread.length < 32 :=
  ⟨⟨rfl, by simp [reading, State.unread]⟩, ⟨not_magic_ne, by simp [reading, State.unread]⟩, by decide⟩

theorem test_witness_MagicWritten :
    (holding .encMagic .encRun tree3 []).phase = .encMagic ∧
    (holding .encMagic .encRun tree3 []).snk.closed = false := ⟨rfl, rfl⟩

theorem test_witness_HeaderNodeRead :
    (∃ s : State, s.phase = .hdWalk ∧ 1 ≤ s.need ∧ s.unread = false :: [] ∧ s.leafCnt + s.need = 256) ∧
    ∃ s : State, s.phase = .hdWalk ∧ 1 ≤ s.need ∧ s.unread = false :: [] ∧ s.leafCnt + s.need = 257 :=
  ⟨⟨{ reading .hdWalk [false] with leafCnt := 255 }, rfl, by decide, rfl, rfl⟩,
    ⟨{ reading .hdWalk [false] with leafCnt := 256 }, rfl, by decide, rfl, rfl⟩⟩

theorem test_witness_HeaderLeafRead :
    (∃ s : State, s.phase = .hdWalk ∧ 1 ≤ s.need ∧
      s.unread = true :: (bitsOf 9 (256 : Sym).toNat ++ []) ∧
      s.hdStack = [Tree.leaf 66].map HdFrame.haveLeft ++ .awaitLeft :: []) ∧
    (∃ s : State, s.phase = .hdWalk ∧ 1 ≤ s.need ∧
      s.unread = true :: (bitsOf 9 (256 : Sym).toNat ++ []) ∧
      s.hdStack = [Tree.leaf 66].map HdFrame.haveLeft ∧ s.cmd = .hdRun) ∧
    (∃ s : State, s.phase = .hdWalk ∧ 1 ≤ s.need ∧
      s.unread = true :: (bitsOf 9 (0 : Sym).toNat ++ []) ∧
      s.hdStack = ([] : List Tree).map HdFrame.haveLeft ∧ s.cmd = .decompress) ∧
    ∃ s : State, s.phase = .hdWalk ∧ 1 ≤ s.need ∧
      s.unread = true :: (bitsOf 9 (257 : Sym).toNat ++ []) ∧ 256 < (257 : Sym).toNat :=
  ⟨⟨{ reading .hdWalk (true :: bitsOf 9 256) with hdStack := [.haveLeft (.leaf 66), .awaitLeft] },
      rfl, by decide, rfl, rfl⟩,
    ⟨{ reading .hdWalk (true :: bitsOf 9 256) with hdStack := [.haveLeft (.leaf 66)], cmd := .hdRun },
      rfl, by decide, rfl, rfl, rfl⟩,
    ⟨{ reading .hdWalk (true :: bitsOf 9 0) with cmd := .decompress }, rfl, by decide, rfl, rfl, rfl⟩,
    ⟨reading .hdWalk (true :: bitsOf 9 257), rfl, by decide, rfl, by decide⟩⟩

theorem test_witness_HeaderTruncated :
    ((reading .hdWalk []).phase = .hdWalk ∧ 1 ≤ (reading .hdWalk []).need ∧
      (reading .hdWalk []).unread = []) ∧
    (reading .hdWalk (true :: List.replicate 8 false)).unread = true :: List.replicate 8 false ∧
    (List.replicate 8 false).length < 9 := ⟨⟨rfl, by decide, rfl⟩, rfl, by decide⟩

theorem test_witness_HeaderItemsWritten :
    (∃ s : State, s.phase = .hsWalk ∧ s.snk.closed = false ∧ s.hsStack = [] ∧ s.treeValid = true ∧
      s.tree = some tree3 ∧ ∃ l r, tree3 = .node l r) ∧
    (∃ s : State, s.phase = .hsWalk ∧ s.snk.closed = false ∧ s.hsStack = .leaf 66 :: [.leaf 256]) ∧
    (∃ s : State, s.phase = .hsWalk ∧ s.snk.closed = false ∧ s.hsStack = .leaf 65 :: [] ∧
      s.cmd = .hsRun) ∧
    ∃ s : State, s.phase = .hsWalk ∧ s.snk.closed = false ∧ s.hsStack = .leaf 65 :: [] ∧
      s.cmd = .compress :=
  ⟨⟨holding .hsWalk .hsRun tree3 [], rfl, rfl, rfl, rfl, rfl, _, _, rfl⟩,
    ⟨{ holding .hsWalk .hsRun tree3 [] with hsStack := [.leaf 66, .leaf 256] }, rfl, rfl, rfl⟩,
    ⟨{ holding .hsWalk .hsRun tree3 [] with hsStack := [.leaf 65] }, rfl, rfl, rfl, rfl⟩,
    ⟨{ holding .hsWalk .compress tree3 [] with hsStack := [.leaf 65] }, rfl, rfl, rfl, rfl⟩⟩

theorem test_witness_BodyBitRead :
    (∃ l r : Tree, (walking tree3 (.node l r) [true]).phase = .decWalk ∧
      (walking tree3 (.node l r) [true]).unread = true :: [] ∧ r = .leaf EOF_SYM) ∧
    (∃ l r : Tree, (walking tree3 (.node l r) [false]).unread = false :: [] ∧ l = .leaf 66 ∧
      (66 : Sym).toNat ≤ 255 ∧ (walking tree3 (.node l r) [false]).treeValid = true ∧
      (walking tree3 (.node l r) [false]).tree = some tree3 ∧
      (walking tree3 (.node l r) [false]).snk.closed = false) ∧
    (∃ l r l' r' : Tree, (walking tree3 (.node l r) [false]).cur = some (.node l r) ∧
      (walking tree3 (.node l r) [false]).unread = false :: [] ∧ l = .node l' r') ∧
    (walking tree3 tree3 []).unread = [] :=
  ⟨⟨.leaf 66, .leaf EOF_SYM, rfl, rfl, rfl⟩, ⟨.leaf 66, .leaf EOF_SYM, rfl, rfl, by decide, rfl, rfl, rfl⟩,
    ⟨.node (.leaf 66) (.leaf 256), .leaf 65, _, _, rfl, rfl, rfl⟩, rfl⟩

theorem test_witness_WholeCodeRead :
    (∃ (s : State) (t : Tree) (p x : Bits), s.phase = .decWalk ∧ s.treeValid = true ∧ s.tree = some t ∧
      s.cur = some t ∧ p ≠ [] ∧ t.sub p = some (.leaf 66) ∧ s.unread = p ++ x ∧ s.snk.closed = false ∧
      (66 : Sym).toNat ≤ 255) ∧
    ∃ (s : State) (t : Tree) (p x : Bits), s.phase = .decWalk ∧ s.treeValid = true ∧ s.tree = some t ∧
      s.cur = some t ∧ p ≠ [] ∧ t.sub p = some (.leaf EOF_SYM) ∧ s.unread = p ++ x ∧
      s.snk.closed = false :=
  ⟨⟨walking tree3 tree3 [false, false, true], tree3, [false, false], [true], rfl, rfl, rfl, rfl,
      by decide, rfl, rfl, rfl, by decide⟩,
    ⟨walking tree3 tree3 [false, true], tree3, [false, true], [], rfl, rfl, rfl, rfl, by decide, rfl,
      rfl, rfl⟩⟩

theorem test_witness_CodesWritten :
    (∃ s : State, s.snk.closed = false ∧ s.phase = .encBody ∧
      s.unread = bitsOf 8 (255 : BitVec 8).toNat ++ [] ∧ s.code.get 255 = some []) ∧
    (∃ s : State, s.snk.closed = false ∧ s.phase = .encBody ∧
      s.unread = bitsOf 8 (0 : BitVec 8).toNat ++ [] ∧ s.code.get 0 = none ∧ Quiet s) ∧
    (∃ s : State, s.snk.closed = false ∧ s.phase = .encBody ∧ s.unread.length = 7 ∧ Quiet s) ∧
    (∃ s : State, s.snk.closed = false ∧ s.phase = .encEof ∧ s.code.get 256 = some [true]) ∧
    ∃ s : State, s.snk.closed = false ∧ s.phase = .encEof ∧ s.code.get 256 = none ∧ Quiet s := by
  refine ⟨⟨{ reading .encBody (bitsOf 8 255) with code := State.reset.code.put 255 [] }, rfl, rfl, rfl, ?_⟩,
    ⟨reading .encBody (bitsOf 8 0), rfl, rfl, rfl, ?_, rfl, rfl⟩,
    ⟨reading .encBody (bitsOf 7 0), rfl, rfl, rfl, rfl, rfl⟩,
    ⟨{ reading .encEof [] with code := State.reset.code.put 256 [true] }, rfl, rfl, ?_⟩,
    ⟨reading .encEof [], rfl, rfl, ?_, rfl, rfl⟩⟩ <;> decide +kernel

theorem test_witness_DecoderStarts :
    (∃ s : State, s.phase = .decStart ∧ s.treeValid = true ∧ s.tree = some (.leaf EOF_SYM)) ∧
    (∃ s : State, s.phase = .decStart ∧ s.treeValid = true ∧ s.tree = some tree3 ∧ Quiet s ∧
      ∃ l r, tree3 = .node l r) ∧
    ∃ s : State, s.phase = .decStart ∧ s.treeValid = true ∧ s.tree = some (.leaf 255) ∧ Quiet s ∧
      (255 : Sym).toNat ≤ 255 :=
  ⟨⟨holding .decStart .decRun (.leaf EOF_SYM) [], rfl, rfl, rfl⟩,
    ⟨holding .decStart .decRun tree3 [], rfl, rfl, rfl, ⟨rfl, rfl⟩, _, _, rfl⟩,
    ⟨holding .decStart .decRun (.leaf 255) [], rfl, rfl, rfl, ⟨rfl, rfl⟩, by decide⟩⟩

theorem test_witness_PaddingClosesTheSink :
    (∃ s : State, s.phase = .encClose ∧ s.snk.closed = false ∧ 7 = (8 - s.snk.bits.length % 8) % 8) ∧
    ∃ s : State, s.phase = .decClose ∧ s.snk.closed = false ∧ 0 = (8 - s.snk.bits.length % 8) % 8 :=
  ⟨⟨{ reading .encClose [] with snk := ⟨[true], false⟩ }, rfl, rfl, rfl⟩,
    ⟨{ reading .decClose [] with snk := ⟨bitsOf 8 65, false⟩ }, rfl, rfl, rfl⟩⟩

/-! ### Rules without an item -/

theorem test_witness_CountingSteps :
    (Quiet (reading .tbCount (bitsOf 8 255)) ∧ (reading .tbCount (bitsOf 8 255)).phase = .tbCount ∧
      (reading .tbCount (bitsOf 8 255)).unread = bitsOf 8 (255 : BitVec 8).toNat ++ []) ∧
    (reading .tbCount (bitsOf 7 0)).unread.length < 8 := ⟨⟨⟨rfl, rfl⟩, rfl, rfl⟩, by decide⟩

theorem test_witness_LeavesEnqueued : Quiet (reading .tbInit []) ∧ (reading .tbInit []).phase = .tbInit :=
  ⟨⟨rfl, rfl⟩, rfl⟩

theorem test_witness_ConstructionSteps :
    (∃ s : State, Quiet s ∧ s.phase = .tbMerge ∧ 2 ≤ s.pq.length) ∧
    (∃ s : State, Quiet s ∧ s.phase = .tbMerge ∧ s.pq = [⟨1, 0, .leaf 256⟩] ∧ s.cmd = .tbRun) ∧
    ∃ s : State, Quiet s ∧ s.phase = .tbMerge ∧ s.pq = [⟨1, 0, .leaf 256⟩] ∧ s.cmd = .compress :=
  ⟨⟨{ reading .tbMerge [] with pq := [⟨1, 0, .leaf 65⟩, ⟨1, 1, .leaf 256⟩] }, ⟨rfl, rfl⟩, rfl, by decide⟩,
    ⟨{ reading .tbMerge [] with pq := [⟨1, 0, .leaf 256⟩], cmd := .tbRun }, ⟨rfl, rfl⟩, rfl, rfl, rfl⟩,
    ⟨{ reading .tbMerge [] with pq := [⟨1, 0, .leaf 256⟩], cmd := .compress }, ⟨rfl, rfl⟩, rfl, rfl, rfl⟩⟩

theorem test_witness_MergesAreTheAdmissibleOnes :
    2 ≤ [(⟨1, 0, .leaf 65⟩ : PqEntry), ⟨1, 1, .leaf 256⟩].length ∧
    MergeRel [⟨1, 0, .leaf 65⟩, ⟨1, 1, .leaf 256⟩] 2 [⟨2, 2, .node (.leaf 256) (.leaf 65)⟩] :=
  ⟨by decide, .merge ⟨1, 0, .leaf 65⟩ ⟨1, 1, .leaf 256⟩ _ _ (by decide) (by decide) (by decide)
    (by decide) (.inr ⟨rfl, rfl⟩)⟩

theorem test_witness_CodeTableBuilt :
    (∃ s : State, Quiet s ∧ s.phase = .encTable ∧ s.treeValid = true ∧ s.tree = some tree3) ∧
    ∃ s : State, Quiet s ∧ s.phase = .encRewind :=
  ⟨⟨holding .encTable .encRun tree3 [], ⟨rfl, rfl⟩, rfl, rfl, rfl⟩, ⟨reading .encRewind [], ⟨rfl, rfl⟩, rfl⟩⟩

/-! ### The whole machine -/

theorem test_witness_StreamsOnlyMoveOn :
    (∃ s t : State, step s = .next t ∧ s.phase = .tbCount ∧ s.src.pos < t.src.pos) ∧
    ∃ s t : State, step s = .next t ∧ s.snk.closed = true := by
  refine ⟨⟨reading .tbCount (bitsOf 8 1), ?_⟩, ⟨{ reading .tbCount [] with snk := ⟨[], true⟩ }, ?_⟩⟩
  · obtain ⟨t, ht, hp⟩ := exists_step (s := reading .tbCount (bitsOf 8 1))
      (p := fun t => decide (t.src.pos = 8)) (by decide)
    exact ⟨t, ht, rfl, by simp [reading, of_decide_eq_true hp]⟩
  · obtain ⟨t, ht, -⟩ := exists_step (s := { reading .tbCount [] with snk := ⟨[], true⟩ })
      (p := fun _ => true) (by decide)
    exact ⟨t, ht, rfl⟩

/-- One state per cause of 60_exceptions R201, at the ends of the ranges: 31 bits, 8 of a field's 9, the symbols 257 and 255, and 257 open leaves. -/
theorem test_witness_FaultEntry :
    ∀ sub : FaultSub, sub ≠ .none → ∃ s t : State, Quiet s ∧ step s = .next t ∧ s.phase ≠ .fault ∧
      t.phase = .fault ∧ t.faultSub = sub := by
  have key : ∀ (s : State) (sub : FaultSub), Quiet s → s.phase ≠ .fault →
      ((after (step s)).map fun t => decide (t.phase = .fault ∧ t.faultSub = sub)) = some true →
      ∃ s t : State, Quiet s ∧ step s = .next t ∧ s.phase ≠ .fault ∧ t.phase = .fault ∧
        t.faultSub = sub := by
    intro s sub hq hp h
    obtain ⟨t, ht, hd⟩ := exists_step h
    have hd := of_decide_eq_true hd
    exact ⟨s, t, hq, ht, hp, hd.1, hd.2⟩
  intro sub hsub
  cases sub with
  | none => exact absurd rfl hsub
  | magicMismatch =>
    refine ⟨reading .decMagic (bitsOf 32 (~~~Config.magic).toNat), _, ⟨rfl, rfl⟩,
      step_of_case ⟨rfl, rfl⟩ (.magicBad (~~~Config.magic) rfl ?_ not_magic_ne), by decide, rfl, rfl⟩
    exact (srcPeek_word (n := 32) (by decide)).mpr ⟨[], by simp [reading, State.unread]⟩
  | symbolRange =>
    exact key (reading .hdWalk (true :: bitsOf 9 257)) _ ⟨rfl, rfl⟩ (by decide) (by decide)
  | capacity =>
    exact key { reading .hdWalk [false] with leafCnt := 256 } _ ⟨rfl, rfl⟩ (by decide) (by decide)
  | leafRoot =>
    exact key (holding .decStart .decRun (.leaf 255) []) _ ⟨rfl, rfl⟩ (by decide) (by decide)
  | eodMagic =>
    exact key (reading .decMagic (List.replicate 31 true)) _ ⟨rfl, rfl⟩ (by decide) (by decide)
  | eodHdrTag => exact key (reading .hdWalk []) _ ⟨rfl, rfl⟩ (by decide) (by decide)
  | eodHdrSym =>
    exact key (reading .hdWalk (true :: List.replicate 8 true)) _ ⟨rfl, rfl⟩ (by decide) (by decide)
  | eodBody => exact key (walking tree3 tree3 []) _ ⟨rfl, rfl⟩ (by decide) (by decide)

theorem test_witness_FaultIsLeftOnlyByReset :
    ((reading .fault []).phase = .fault ∧ (reading .fault []).rst = false) ∧
    (reading .fault []).assertReset.phase = .fault ∧ (reading .fault []).assertReset.rst = true :=
  ⟨⟨rfl, rfl⟩, rfl, rfl⟩

theorem test_witness_FaultRegistersWrittenOnlyByRaise :
    ∃ s t : State, step s = .next t ∧ s.rst = false := by
  obtain ⟨t, ht, -⟩ := exists_step (s := reading .hdWalk []) (p := fun _ => true) (by decide)
  exact ⟨_, t, ht, rfl⟩

theorem test_witness_RegistersWrittenOnlyByTheirUnit :
    ∃ s t : State, Quiet s ∧ step s = .next t ∧ s.phase = .hdWalk := by
  obtain ⟨t, ht, -⟩ := exists_step (s := reading .hdWalk [false]) (p := fun _ => true) (by decide)
  exact ⟨_, t, ⟨rfl, rfl⟩, ht, rfl⟩

/-! ### The invariant -/

/-- A truncated body, as the raise leaves it but for the streams. -/
def faulted : State :=
  { State.reset with
    phase := .fault, cmd := .decRun, faultCode := .truncatedStream, faultSub := .eodBody
    faultPhase := .decWalk }

theorem test_witness_StatusIsAFunctionOfTheState :
    Inv State.reset ∧ State.reset.hostView.fault = false ∧
    Inv faulted ∧ faulted.hostView.fault = true ∧ faulted.hostView.faultCode = 2 := by
  refine ⟨?_, rfl, ?_, rfl, rfl⟩ <;> constructor <;>
    simp [faulted, State.reset, chain, needsTree, makesTree, needsTable, leavesIn,
      State.busyFlag, FaultSub.kind, raisedIn]

/-- A header walk at its start. -/
def headerStart (x : Bits) : State := { reading .hdWalk x with cmd := .hdRun }

theorem inv_headerStart (x : Bits) : Inv (headerStart x) := by
  constructor <;> simp [headerStart, reading, State.reset, chain, needsTree, makesTree, needsTable,
    State.busyFlag, writesSink, writesBytes, NSYM]

/-- A body walk at its start. -/
theorem inv_walking (x : Bits) : Inv (walking tree3 tree3 x) := by
  constructor <;> simp [walking, holding, State.reset, chain, needsTree, makesTree, needsTable,
    State.busyFlag, writesSink, writesBytes]
  · decide
  · decide
  · exact ⟨[], _, _, rfl, rfl⟩

theorem inv_idle (x : Bits) : Inv { State.reset with src := ⟨x, 0⟩ } := by
  constructor <;> simp [State.reset, needsTree, makesTree, needsTable, State.busyFlag]

/-- The body pass over the one-leaf tree, with its code table. -/
def oneLeafBody (x : Bits) : State :=
  { holding .encBody .encRun (.leaf EOF_SYM) x with
    tableValid := true, code := State.reset.code.put 256 [] }

theorem oneLeafBody_code (x : Bits) (v : Nat) :
    (oneLeafBody x).code.get v = if v = 256 then some [] else none := by
  show (CodeTable.put (Vector.replicate 257 none) 256 []).get v = _
  rw [CodeTable.get_put]
  by_cases hv : v = 256 <;> simp [hv]

theorem codeOf_eofLeaf (y : Sym) :
    codeOf (.leaf EOF_SYM) y = if y.toNat = 256 then some [] else none := by
  by_cases hy : y.toNat = 256
  · obtain rfl : y = EOF_SYM := BitVec.eq_of_toNat_eq hy
    decide
  · rw [if_neg hy, codeOf_eq_lastFor, lastFor_eq_none, Tree.codes_fst]
    intro h
    rw [Tree.leaves, List.mem_singleton] at h
    exact hy (by rw [h]; rfl)

theorem inv_oneLeafBody (x : Bits) : Inv (oneLeafBody x) := by
  have hcode := oneLeafBody_code x
  constructor
  case codeLength =>
    intro v p h
    rw [hcode] at h
    split at h
    · cases h; decide
    · cases h
  case tableReady =>
    intro _
    exact ⟨rfl, .leaf EOF_SYM, rfl, fun y _ => by rw [hcode, codeOf_eofLeaf]⟩
  case treeHeld => exact fun _ => ⟨_, rfl, by decide⟩
  case treeBuilt => exact fun _ _ => ⟨_, rfl, by decide, by decide⟩
  all_goals simp [oneLeafBody, holding, chain, needsTree, makesTree, State.busyFlag, writesSink,
    writesBytes, State.reset]

theorem test_witness_HeldTreeIsReadOnly :
    ∃ s t : State, Inv s ∧ Quiet s ∧ step s = .next t ∧ s.treeValid = true := by
  obtain ⟨t, ht, -⟩ := exists_step (s := walking tree3 tree3 [true]) (p := fun _ => true) (by decide)
  exact ⟨_, t, inv_walking _, ⟨rfl, rfl⟩, ht, rfl⟩

theorem test_witness_TransactionsAreThoseOfTheTable :
    (∃ s t : State, Inv s ∧ step s = .next t ∧ Quiet s) ∧
    ∃ s t : State, Inv s ∧ step s = .next t ∧ ¬ Quiet s := by
  obtain ⟨t, ht, -⟩ := exists_step (s := walking tree3 tree3 [true]) (p := fun _ => true) (by decide)
  have hi : Inv ((headerStart []).presentCommand .nop) := by
    obtain ⟨⟩ := inv_headerStart []
    constructor <;> assumption
  obtain ⟨u, hu, -⟩ := exists_step (s := (headerStart []).presentCommand .nop) (p := fun _ => true)
    (by decide)
  exact ⟨⟨_, t, inv_walking _, ht, rfl, rfl⟩, ⟨_, u, hi, hu, fun h => by cases h.2⟩⟩

theorem test_witness_PhasesFollowTheChain :
    ∃ s t : State, Inv s ∧ Quiet s ∧ step s = .next t := by
  obtain ⟨t, ht, -⟩ := exists_step (s := headerStart [false]) (p := fun _ => true) (by decide)
  exact ⟨_, t, inv_headerStart _, ⟨rfl, rfl⟩, ht⟩

theorem test_witness_StepKeepsInv : ∃ s t : State, Inv s ∧ step s = .next t := by
  obtain ⟨t, ht, -⟩ := exists_step (s := headerStart [false]) (p := fun _ => true) (by decide)
  exact ⟨_, t, inv_headerStart _, ht⟩

/-- The host may supply in `IDLE`, `DONE` and `FAULT`, and not while the decoder walks. -/
theorem test_witness_HostKeepsInv :
    (Inv { State.reset with src := ⟨[true], 0⟩ } ∧ State.reset.phase = .idle) ∧
    (Inv faulted ∧ faulted.phase = .fault) ∧
    (Inv (walking tree3 tree3 [true]) ∧ (walking tree3 tree3 [true]).phase = .decWalk) :=
  ⟨⟨inv_idle _, rfl⟩, ⟨test_witness_StatusIsAFunctionOfTheState.2.2.1, rfl⟩, ⟨inv_walking _, rfl⟩⟩

/-- 70_reset R241: neither stream is exchanged while `BUSY = 1`. -/
theorem test_supply_busy :
    (walking tree3 tree3 [true]).supplyBytes [65] = .refused .streamInUse ∧
    (walking tree3 tree3 [true]).supplySink = .refused .streamInUse := ⟨rfl, rfl⟩

/-- 70_reset R235: after `DONE` a new source stands at its start. -/
theorem test_supply_source :
    ((after ((reading .done [true]).supplyBytes [0xA5])).map State.src) =
      some ⟨[true, false, true, false, false, true, false, true], 0⟩ := by decide

/-- A next state, a refused body byte and a refused command. -/
theorem test_witness_NeverStuck :
    (∃ s : State, Inv s ∧ step s = .refused .noCode) ∧
    ∃ s : State, Inv s ∧ step s = .refused .treeNotValid := by
  refine ⟨⟨_, inv_oneLeafBody (bitsOf 8 65), exists_refused (by decide +kernel)⟩,
    ⟨({ State.reset with src := ⟨[], 0⟩ } : State).presentCommand .hsRun, ?_,
      exists_refused (by decide)⟩⟩
  obtain ⟨⟩ := inv_idle []
  constructor <;> assumption

/-! ### What the operations compute -/

theorem tree3_legal : tree3.legal := by decide

theorem test_witness_HeaderInverse :
    tree3.legal ∧ des (true :: bitsOf 9 65) 0 1 = .ok (.leaf 65, [], 1) := ⟨tree3_legal, rfl⟩

theorem test_witness_HeaderLengthAndBounds : tree3.legal ∧ ((66 : Sym), [false, false]) ∈ tree3.codes := by
  decide

theorem test_witness_CodesArePrefixFree :
    ((66 : Sym), [false, false]) ∈ tree3.codes ∧ ((256 : Sym), [false, true]) ∈ tree3.codes ∧
    tree3.leaves.Nodup ∧ 2 ≤ tree3.nleaves ∧
    ((256 : Sym), ([] : Bits)) ∈ (Tree.leaf 256).codes ∧ (Tree.leaf 256).nleaves = 1 := by decide

theorem test_witness_DecompressInvertsEnc :
    tree3.legal ∧ tree3.leaves.Nodup ∧ EOF_SYM ∈ tree3.leaves ∧
    ∀ b ∈ [(65 : BitVec 8), 66], BitVec.setWidth 9 b ∈ tree3.leaves := by decide

/-- Cuts in the magic word, in the header and in the body. -/
theorem test_witness_TruncationIsReported :
    tree3.legal ∧ tree3.leaves.Nodup ∧ bodyOf tree3 [66] = some [false, false, false, true] ∧
    ∀ n ∈ [31, 63, 67], (streamOf 0 tree3 [false, false, false, true]).take n <+:
        streamOf 0 tree3 [false, false, false, true] ∧
      ((streamOf 0 tree3 [false, false, false, true]).take n).length = n ∧
      n < (streamOf 0 tree3 [false, false, false, true]).length := by
  refine ⟨tree3_legal, by decide, by decide, fun n hn => ⟨List.take_prefix _ _, ?_⟩⟩
  simp only [List.mem_cons, List.not_mem_nil, or_false] at hn
  rcases hn with rfl | rfl | rfl <;> decide

theorem test_witness_HsRunWritesTheHeader :
    ∃ s : State, s.rst = false ∧ s.phase = .done ∧ s.hsStack = [] ∧ s.treeValid = true ∧
      s.tree = some tree3 ∧ s.snk.closed = false :=
  ⟨holding .done .hdRun tree3 [], rfl, rfl, rfl, rfl, rfl, rfl⟩

theorem test_witness_HdRunIsDes :
    ∃ s : State, s.rst = false ∧ s.phase = .idle ∧ s.unread = true :: bitsOf 9 65 :=
  ⟨reading .idle (true :: bitsOf 9 65), rfl, rfl, rfl⟩

/-- A short symbol field, of which no bit is consumed, and a missing second subtree. -/
theorem test_witness_HdRunIsDes_fault :
    (∃ s : State, s.rst = false ∧ s.phase = .done ∧
      des s.unread 0 1 = .error ⟨.truncatedStream, .eodHdrSym, 0⟩ ∧
      desLeft s.unread 0 1 = [false, true]) ∧
    des (false :: true :: bitsOf 9 65) 0 1 = .error ⟨.truncatedStream, .eodHdrTag, 0⟩ ∧
    desLeft (false :: true :: bitsOf 9 65) 0 1 = [] :=
  ⟨⟨reading .done [true, false, true], rfl, rfl, rfl, rfl⟩, rfl, rfl⟩

theorem test_witness_TbRunBuildsAGreedyTree :
    ∃ s : State, s.rst = false ∧ s.phase = .idle ∧
      s.unread = bitsOfBytes [65, 65, 65, 66] ++ List.replicate 7 true ∧
      (List.replicate 7 true).length < 8 :=
  ⟨reading .idle (bitsOfBytes [65, 65, 65, 66] ++ List.replicate 7 true), rfl, rfl, rfl, by decide⟩

theorem test_witness_EncRunWritesEnc :
    (∃ s : State, s.rst = false ∧ s.phase = .done ∧ s.hsStack = [] ∧ s.treeValid = true ∧
      s.tree = some tree3 ∧ s.snk = ⟨[], false⟩ ∧ s.src.bits = bitsOfBytes [66] ++ [true] ∧
      [true].length < 8) ∧
    (∃ y, enc Config.magic tree3 [66] = some y) ∧ enc Config.magic tree3 [67] = none :=
  ⟨⟨holding .done .hdRun tree3 (bitsOfBytes [66] ++ [true]), rfl, rfl, rfl, rfl, rfl, rfl, rfl, by decide⟩,
    ⟨_, rfl⟩, rfl⟩

theorem test_witness_DecRunIsDec :
    ∃ s : State, s.rst = false ∧ s.phase = .idle ∧ s.treeValid = true ∧ s.tree = some tree3 ∧
      tree3.legal ∧ s.snk = ⟨[], false⟩ ∧ dec tree3 s.unread = .ok ([65], []) :=
  ⟨holding .idle .nop tree3 [true, false, true], rfl, rfl, rfl, rfl, tree3_legal, rfl, rfl⟩

/-- A root that is a byte leaf, and a body that ends inside a code after one byte. -/
theorem test_witness_DecRunIsDec_fault :
    (∃ s : State, s.rst = false ∧ s.phase = .idle ∧ s.treeValid = true ∧
      s.tree = some (.leaf 65) ∧ (Tree.leaf 65).legal ∧ s.snk = ⟨[], false⟩ ∧
      dec (.leaf 65) s.unread = .error ⟨.malformedHeader, .leafRoot, 65⟩) ∧
    ∃ s : State, s.rst = false ∧ s.phase = .idle ∧ s.treeValid = true ∧ s.tree = some tree3 ∧
      tree3.legal ∧ s.snk = ⟨[], false⟩ ∧
      dec tree3 s.unread = .error ⟨.truncatedStream, .eodBody, 0⟩ ∧ decOut tree3 s.unread = [65] :=
  ⟨⟨holding .idle .nop (.leaf 65) [true], rfl, rfl, rfl, rfl, by decide, rfl, rfl⟩,
    ⟨holding .idle .nop tree3 [true, false], rfl, rfl, rfl, rfl, tree3_legal, rfl, rfl, rfl⟩⟩

theorem test_witness_CompressWritesEnc :
    ∃ s : State, s.rst = false ∧ s.phase = .idle ∧ s.hsStack = [] ∧ s.snk = ⟨[], false⟩ ∧
      s.src = ⟨bitsOfBytes [65, 66] ++ [], 0⟩ :=
  ⟨reading .idle (bitsOfBytes [65, 66] ++ []), rfl, rfl, rfl, rfl, rfl⟩

theorem test_witness_DecompressIsDecompress :
    ∃ s : State, s.rst = false ∧ s.phase = .done ∧ s.snk = ⟨[], false⟩ :=
  ⟨reading .done (bitsOfBytes [0xFA]), rfl, rfl, rfl⟩

/-- The source is the word `w`, then the bits `x`, then a stop. -/
theorem unread_word (w : Word32) (x : Bits) :
    (reading .done (bitsOf 32 w.toNat ++ x)).unread = bitsOf 32 w.toNat ++ x := rfl

/-- One source for success and one for each of the phases in which a fault is raised. -/
theorem test_witness_DecompressIsDecompress_outcomes :
    decompress Config.magic (reading .done (bitsOf 32 Config.magic.toNat ++
        true :: bitsOf 9 256)).unread = .ok ([], []) ∧
    decompress Config.magic (reading .done [true]).unread =
      .error ⟨.truncatedStream, .eodMagic, 0⟩ ∧
    decompress Config.magic (reading .done (bitsOf 32 (Config.magic + 1).toNat ++ [])).unread =
      .error ⟨.malformedHeader, .magicMismatch, Config.magic + 1⟩ ∧
    decompress Config.magic (reading .done (bitsOf 32 Config.magic.toNat ++
        true :: bitsOf 9 300)).unread = .error ⟨.malformedHeader, .symbolRange, 300⟩ ∧
    decompress Config.magic (reading .done (bitsOf 32 Config.magic.toNat ++
        true :: bitsOf 9 65)).unread = .error ⟨.malformedHeader, .leafRoot, 65⟩ ∧
    decompress Config.magic (reading .done (bitsOf 32 Config.magic.toNat ++
        (tree3.ser ++ [true, false]))).unread = .error ⟨.truncatedStream, .eodBody, 0⟩ := by
  refine ⟨?_, rfl, ?_, ?_, ?_, ?_⟩ <;> rw [unread_word, decompress_word]
  · rw [if_neg (by simp)]; rfl
  · rw [if_pos (by simp)]
  · rw [if_neg (by simp)]; rfl
  · rw [if_neg (by simp)]; rfl
  · rw [if_neg (by simp)]; rfl

/-- The one merge of TV4: counts 65 and 256, once each. -/
theorem greedy_tv4 :
    [65, 256].Perm (qualifying (countsOf [65])) ∧
    GreedyFrom (enqueueLeaves (countsOf [65]) [65, 256] 0) [65, 256].length 2
      (.node (.leaf 65) (.leaf 256)) := by
  have hq : qualifying (countsOf [65]) = [65, 256] := by decide +kernel
  have he : enqueueLeaves (countsOf [65]) [65, 256] 0 = [⟨1, 0, .leaf 65⟩, ⟨1, 1, .leaf 256⟩] := by
    decide +kernel
  rw [hq, he]
  exact ⟨List.Perm.refl _, .merge (.merge ⟨1, 0, .leaf 65⟩ ⟨1, 1, .leaf 256⟩ _ _ (by decide) (by decide)
    (by decide) (by decide) (.inl ⟨rfl, rfl⟩)) (.root ⟨2, 2, .node (.leaf 65) (.leaf 256)⟩ 3)⟩

theorem test_witness_GreedyTrees :
    ∃ (order : List Nat) (w : Nat) (t : Tree), order.Perm (qualifying (countsOf [65])) ∧
      GreedyFrom (enqueueLeaves (countsOf [65]) order 0) order.length w t :=
  ⟨_, _, _, greedy_tv4⟩

/-- The last entry of the build over the empty source. -/
def lastEntry : State :=
  { State.reset with
    phase := .tbMerge, cmd := .tbRun, count := countsOf [], countValid := true
    pq := [⟨1, 0, .leaf EOF_SYM⟩], seq := 1 }

theorem inv_lastEntry : Inv lastEntry := by
  have h256 : (countsOf []).get 256 = 1 := by decide +kernel
  constructor <;> simp [lastEntry, State.reset, chain, needsTree, makesTree, needsTable, leavesIn,
    State.busyFlag, writesSink, writesBytes, Tree.leaves, h256]

/-- Every clause has its case: one merge over one byte, a waiting entry, and the premise itself, which the empty source meets whatever `WEIGHT_BITS` is. -/
theorem test_witness_WeightsFitUnderTheLaunchPremise :
    (∃ pq : List PqEntry, [65, 256].Perm (qualifying (countsOf [65])) ∧ pq ≠ [] ∧
      Relation.ReflTransGen Merges
        (enqueueLeaves (countsOf [65]) [65, 256] 0, [65, 256].length) (pq, 3)) ∧
    (∃ w t, GreedyFrom (enqueueLeaves (countsOf [65]) [65, 256] 0) [65, 256].length w t) ∧
    (Inv lastEntry ∧ lastEntry.phase = .tbMerge ∧ lastEntry.count = countsOf [] ∧
      lastEntry.pq ≠ []) ∧
    LaunchPremise ([] : List (BitVec 8)).length := by
  have he : enqueueLeaves (countsOf [65]) [65, 256] 0 = [⟨1, 0, .leaf 65⟩, ⟨1, 1, .leaf 256⟩] := by
    decide +kernel
  have hm : MergeRel (enqueueLeaves (countsOf [65]) [65, 256] 0) 2
      [⟨2, 2, .node (.leaf 65) (.leaf 256)⟩] := by
    rw [he]
    exact .merge ⟨1, 0, .leaf 65⟩ ⟨1, 1, .leaf 256⟩ (.leaf 65) (.leaf 256) (by decide) (by decide)
      (by decide) (by decide) (.inl ⟨rfl, rfl⟩)
  refine ⟨⟨_, greedy_tv4.1, List.cons_ne_nil _ _, .single ⟨hm, rfl⟩⟩, ⟨_, _, greedy_tv4.2⟩,
    ⟨inv_lastEntry, rfl, rfl, List.cons_ne_nil _ _⟩, ?_⟩
  have hp : 0 < 2 ^ Config.weightBitsLessOne := Nat.pow_pos (by decide)
  simp only [LaunchPremise, List.length_nil, Config.weightBits, Nat.pow_succ]
  omega

theorem test_witness_OutputLength :
    Greedy (countsOf [65]) (.node (.leaf 65) (.leaf 256)) ∧
    bodyOf (.node (.leaf 65) (.leaf 256)) [65] = some [false, true] :=
  ⟨⟨_, _, greedy_tv4⟩, rfl⟩

theorem test_witness_MachineRoundTrip :
    (∃ s : State, Inv s ∧ s.rst = false ∧ s.accepting = true ∧ s.snk = ⟨[], false⟩ ∧
      s.src = ⟨bitsOfBytes [65, 66], 0⟩) ∧
    ∀ (y z : Bits), ∃ u : State, u.rst = false ∧ u.accepting = true ∧ u.snk = ⟨[], false⟩ ∧
      u.src = ⟨y ++ z, 0⟩ :=
  ⟨⟨_, inv_idle _, rfl, rfl, rfl, rfl⟩, fun y z => ⟨reading .done (y ++ z), rfl, rfl, rfl, rfl⟩⟩

end Sys2Proof.Tests
end

section
/-! SUPPORT. The invariant, operation by operation: which clauses of `Inv` speak of the phase and which do not, and what each operation on the state keeps. -/

namespace Sys2Proof.Machine

/-! ## Where a phase stands in the chain of its command -/

/-- The phase that follows in every chain it stands in. `TB_MERGE`, `HS_WALK` and `HD_WALK`, after which the chains part, and the phases at rest have none (10_state R41). -/
def onlyNext : Phase → Option Phase
  | .tbCount => some .tbInit
  | .tbInit => some .tbMerge
  | .encMagic => some .hsWalk
  | .encTable => some .encRewind
  | .encRewind => some .encBody
  | .encBody => some .encEof
  | .encEof => some .encClose
  | .encClose => some .done
  | .decMagic => some .hdWalk
  | .decStart => some .decWalk
  | .decWalk => some .decClose
  | .decClose => some .done
  | .idle | .tbMerge | .hsWalk | .hdWalk | .done | .fault => none

theorem nextPhase_of_onlyNext {c : Command} {p q : Phase} (hp : p ∈ chain c)
    (hq : onlyNext p = some q) : nextPhase c p = some q := by
  cases c <;> cases p <;> simp [chain, onlyNext] at hp hq <;> subst hq <;> rfl

theorem decClose_mem_chain {c : Command} (h : .decStart ∈ chain c) : .decClose ∈ chain c := by
  cases c <;> simp [chain] at h ⊢

/-- `FAULT` is in no chain: only a raise leads to it. -/
theorem ne_fault_of_mem_chain {c : Command} {p : Phase} (h : p ∈ chain c) : p ≠ .fault := by
  rintro rfl
  cases c <;> simp [chain] at h

/-- The commands that pass through the encoder's phases do not promise whole bytes (44 R171 is about the decoder alone). -/
theorem writesBytes_eq_false {c : Command} {p : Phase} (h : p ∈ chain c)
    (hp : p = .encMagic ∨ p = .hsWalk ∨ p = .encBody ∨ p = .encEof) : writesBytes c = false := by
  rcases hp with rfl | rfl | rfl | rfl <;> cases c <;> simp [chain] at h <;> rfl

/-- A phase of the operation that runs is in the chain of `CMD`. -/
theorem Inv.mem_chain {s : State} (hi : Inv s) (hb : s.busyFlag = true) :
    s.phase ∈ chain s.cmd := by
  obtain ⟨hidle, hdone, hfault⟩ := (busyFlag_iff s).mp hb
  simpa [hidle, hdone, hfault] using hi.inChain

theorem phases_of_needsTree {p : Phase} (h : needsTree p = true) :
    (p ≠ .idle ∧ p ≠ .done ∧ p ≠ .fault) ∧ p ≠ .tbMerge := by
  cases p <;> simp [needsTree] at h ⊢

/-! ## The clauses of the invariant that speak of the phase, and those that do not -/

/-- Leaves within the bounds of a tree of the hardware (10_state R22 (b), (c)). -/
def LegalLeaves (l : List Sym) : Prop := (∀ y ∈ l, y.toNat ≤ 256) ∧ l.length ≤ NSYM

theorem legal_iff {t : Tree} : t.legal ↔ LegalLeaves t.leaves := by
  rw [LegalLeaves, Tree.leaves_length]

/-- The entries are numbered in order below `q` and hold each symbol once, the sentinel among them (clause `queue` of `Inv`). -/
def QueueSound (pq : List PqEntry) (q : Nat) : Prop :=
  (pq.map PqEntry.seq).Pairwise (· < ·) ∧ (∀ e ∈ pq, e.seq < q) ∧ q + pq.length ≤ 514 ∧
  (leavesIn (pq.map PqEntry.tree)).Nodup ∧
  (∀ y ∈ leavesIn (pq.map PqEntry.tree), y.toNat ≤ 256) ∧
  EOF_SYM ∈ leavesIn (pq.map PqEntry.tree)

/-- Every entry weighs what its leaves weigh together (clause `queueWeights` of `Inv`). -/
def WeightsSound (tbl : CountTable) (pq : List PqEntry) : Prop :=
  ∀ e ∈ pq, e.weight = (e.tree.leaves.map fun y => tbl.get y.toNat).sum

/-- The code table is complete and is that of the tree (clause `tableReady` of `Inv`). -/
def TableComplete (s : State) : Prop :=
  s.tableValid = true ∧
  ∃ t, s.tree = some t ∧ ∀ y : Sym, y.toNat ≤ 256 → s.code.get y.toNat = codeOf t y

/-- The counters of the header reader agree with its frames (clause `hdCounts` of `Inv`). -/
def FramesCounted (fs : List HdFrame) (leaves need : Nat) : Prop :=
  need = awaiting fs + 1 ∧ leaves = (leavesIn (leftsIn fs)).length ∧
  ∀ y ∈ leavesIn (leftsIn fs), y.toNat ≤ 256

/-- `CUR` is an internal node of `TREE` (clause `curNode` of `Inv`). -/
def AtNode (s : State) : Prop :=
  ∃ t p l r, s.tree = some t ∧ t.sub p = some (.node l r) ∧ s.cur = some (.node l r)

/-- The clauses of `Inv` about the registers alone, in a state without a fault. -/
structure Registers (s : State) : Prop where
  srcPos : s.src.pos ≤ s.src.bits.length
  treeHeld : s.treeValid = true → ∃ t, s.tree = some t ∧ t.legal
  treeBuilt : s.treeValid = true → s.treeOrigin = .built →
    ∃ t, s.tree = some t ∧ EOF_SYM ∈ t.leaves ∧ t.leaves.Nodup
  sentinelCount : s.countValid = true → s.count.get 256 = 1
  seqBound : s.seq < 514
  hsLegal : LegalLeaves (leavesIn s.hsStack)
  hdBound : s.leafCnt + s.need ≤ NSYM
  hdDepth : s.hdStack.length + 1 ≤ s.leafCnt + s.need
  codeLength : ∀ v p, s.code.get v = some p → p.length ≤ 256
  encIdle : s.encStack = []
  noFault : s.faultCode = .none ∧ s.faultSub = .none ∧ s.faultValue = 0 ∧ s.faultPhase = .idle

/-- The clauses of `Inv` that depend on the phase, as conditions for the sequencer to go to `p`. A clause about other phases than `p` is met of itself. -/
structure Entry (p : Phase) (s : State) : Prop where
  inChain : p ∈ chain s.cmd
  treeReady : needsTree p = true → s.treeValid = true := by nofun
  treeNotYet : makesTree p = true → s.treeValid = false := by nofun
  tableReady : needsTable p = true → TableComplete s := by nofun
  counted : p = .tbInit → s.countValid = true := by nofun
  queueIdle : p ≠ .tbMerge → s.pq = []
  queue : p = .tbMerge → QueueSound s.pq s.seq := by nofun
  queueWeights : p = .tbMerge → WeightsSound s.count s.pq := by nofun
  hsIdle : p ≠ .hsWalk → s.hsStack = []
  hdCounts : p = .hdWalk → FramesCounted s.hdStack s.leafCnt s.need := by nofun
  hdStart : p = .decMagic → s.hdStack = [] ∧ s.leafCnt = 0 ∧ s.need = 1 := by nofun
  curNode : p = .decWalk → AtNode s := by nofun
  sinkOpen : p ≠ .done → writesSink s.cmd = true → s.snk.closed = false
  sinkEmpty : p = .tbCount ∨ p = .tbInit ∨ p = .tbMerge ∨ p = .encMagic →
    writesSink s.cmd = true → s.snk.bits = [] := by nofun
  sinkBytes : p ≠ .done → writesBytes s.cmd = true → s.snk.bits.length % 8 = 0

theorem Inv.registers {s : State} (hi : Inv s) (hp : s.phase ≠ .fault) : Registers s :=
  { hi with noFault := hi.noFault hp }

/-- The sequencer may go where the registers are as the next phase wants them. -/
theorem setPhase_inv {s : State} {p : Phase} (hr : Registers s) (he : Entry p s) :
    Inv (setPhase p s) :=
  { hr, he with
    inChain := .inl he.inChain
    sinkOpen := fun hb => he.sinkOpen ((busyFlag_iff _).mp hb).2.1
    sinkBytes := fun hb => he.sinkBytes ((busyFlag_iff _).mp hb).2.1
    noFault := fun _ => hr.noFault
    oneFault := fun hp => absurd hp (ne_fault_of_mem_chain he.inChain) }

/-- The conditions of a phase that comes after the tree is complete. -/
theorem Entry.of_tree {s : State} {p : Phase} (hm : makesTree p = false) (hc : p ∈ chain s.cmd)
    (ht : s.treeValid = true) (hpq : s.pq = []) (hhs : p ≠ .hsWalk → s.hsStack = [])
    (ho : p ≠ .done → writesSink s.cmd = true → s.snk.closed = false)
    (h8 : p ≠ .done → writesBytes s.cmd = true → s.snk.bits.length % 8 = 0)
    (he : p = .encMagic → writesSink s.cmd = true → s.snk.bits = [] := by nofun)
    (htab : needsTable p = true → TableComplete s := by nofun)
    (hcur : p = .decWalk → AtNode s := by nofun) : Entry p s where
  inChain := hc
  treeReady _ := ht
  treeNotYet h := by simp [hm] at h
  tableReady := htab
  counted := by rintro rfl; cases hm
  queueIdle _ := hpq
  queue := by rintro rfl; cases hm
  queueWeights := by rintro rfl; cases hm
  hsIdle := hhs
  hdCounts := by rintro rfl; cases hm
  hdStart := by rintro rfl; cases hm
  curNode := hcur
  sinkOpen := ho
  sinkEmpty := by
    rintro (rfl | rfl | rfl | rfl)
    · cases hm
    · cases hm
    · cases hm
    · exact he rfl
  sinkBytes := h8

/-- From one phase with a held tree to another: what the two have in common is kept. -/
theorem setPhase_inv_of_needsTree {s : State} {p : Phase} (hi : Inv s)
    (hs : needsTree s.phase = true) (hc : p ∈ chain s.cmd) (hm : makesTree p = false := by rfl)
    (hp : p ≠ .encMagic := by nofun) (hhs : p ≠ .hsWalk → s.hsStack = [])
    (htab : needsTable p = true → TableComplete s := by nofun)
    (hcur : p = .decWalk → AtNode s := by nofun) : Inv (setPhase p s) := by
  obtain ⟨hrest, hmerge⟩ := phases_of_needsTree hs
  have hb := (busyFlag_iff s).mpr hrest
  exact setPhase_inv (hi.registers hrest.2.2)
    (.of_tree hm hc (hi.treeReady hs) (hi.queueIdle hmerge) hhs (fun _ => hi.sinkOpen hb)
      (fun _ => hi.sinkBytes hb) (fun h => absurd h hp) htab hcur)

/-! ## What each operation keeps -/

theorem srcAfter_inv {s : State} (hi : Inv s) (n : Nat) : Inv (srcAfter n s) :=
  { hi with srcPos := srcAfter_pos_le hi.srcPos }

theorem srcRewind_inv {s : State} (hi : Inv s) : Inv (srcRewind s) :=
  { hi with srcPos := Nat.zero_le _ }

/-- The host's inputs and the trace are no part of the invariant. -/
theorem clearPort_inv {s : State} (hi : Inv s) : Inv (clearPort s) := { hi with }

/-- At rest the sink is the host's (70_reset R236). -/
theorem withSink_inv {s : State} (hi : Inv s) (hb : s.busyFlag = false) (k : Sink) :
    Inv { s with snk := k } where
  __ := hi
  sinkOpen h := absurd (hb.symm.trans h) Bool.false_ne_true
  sinkBytes h := absurd (hb.symm.trans h) Bool.false_ne_true
  sinkEmpty h := by
    have hbusy : s.busyFlag = true := by
      rw [busyFlag_iff]
      rcases h with h | h | h | h <;> simp_all
    exact absurd (hb.symm.trans hbusy) Bool.false_ne_true

/-- A write after the magic word, in whole bytes where the command promises them. -/
theorem snkAppend_inv {s : State} (hi : Inv s) {x : Bits} (t : Transaction)
    (hp : ¬ (s.phase = .tbCount ∨ s.phase = .tbInit ∨ s.phase = .tbMerge ∨ s.phase = .encMagic))
    (h8 : writesBytes s.cmd = true → x.length % 8 = 0) : Inv (snkAppend x t s) :=
  { hi with
    sinkEmpty := fun h => absurd h hp
    sinkBytes := fun hb hw => by
      have h1 := hi.sinkBytes hb hw
      have h2 := h8 hw
      rw [snkAppend_snk, List.length_append]
      omega }

/-- A raise, in the phase that its cause belongs to (60_exceptions R201, R204). -/
theorem raise_inv {s : State} (hi : Inv s) {sub : FaultSub} (hsub : sub ≠ .none)
    (hp : s.phase = raisedIn sub) (v : Word32) : Inv (raise sub.kind sub v s) :=
  have hmerge : s.phase ≠ .tbMerge := by rw [hp]; cases sub <;> nofun
  have hwalk : s.phase ≠ .hsWalk := by rw [hp]; cases sub <;> nofun
  { hi with
    inChain := .inr (.inr (.inr rfl))
    treeReady := nofun
    treeNotYet := nofun
    tableReady := nofun
    counted := nofun
    queueIdle := fun _ => hi.queueIdle hmerge
    queue := nofun
    queueWeights := nofun
    hsIdle := fun _ => hi.hsIdle hwalk
    hdCounts := nofun
    hdStart := nofun
    curNode := nofun
    sinkOpen := nofun
    sinkEmpty := nofun
    sinkBytes := nofun
    noFault := fun h => absurd rfl h
    oneFault := fun _ => ⟨hsub, rfl, hp⟩ }

theorem setHsStack_inv {s : State} (hi : Inv s) (hp : s.phase = .hsWalk) {ts : List Tree}
    (hl : LegalLeaves (leavesIn ts)) : Inv (setHsStack ts s) :=
  { hi with hsIdle := fun h => absurd hp h, hsLegal := hl }

/-- Outside `DEC_WALK` the invariant says nothing of `CUR`; in it `CUR` is an internal node. -/
theorem setCur_inv {s : State} (hi : Inv s) {t : Tree}
    (hc : s.phase = .decWalk → AtNode (setCur t s)) : Inv (setCur t s) :=
  { hi with curNode := hc }

end Sys2Proof.Machine
end

section
/-! SUPPORT. What the rules make of the structures they build: the priority structure, the header frames, the subtrees still to be written and the code table. -/

namespace Sys2Proof.Machine

/-! ## The priority structure (40_tree_builder) -/

theorem orderedLeaves_perm (key : Nat → Nat) (tbl : CountTable) :
    (orderByKey key (qualifying tbl)).Perm (qualifying tbl) := orderByKey_perm key _

theorem mem_orderedLeaves {key : Nat → Nat} {tbl : CountTable} {v : Nat} :
    v ∈ orderByKey key (qualifying tbl) ↔ v ≤ 256 ∧ 0 < tbl.get v := by
  rw [(orderedLeaves_perm key tbl).mem_iff, mem_qualifying]

theorem orderedLeaves_length_le (key : Nat → Nat) (tbl : CountTable) :
    (orderByKey key (qualifying tbl)).length ≤ NSYM := by
  rw [(orderedLeaves_perm key tbl).length_eq]
  exact qualifying_length_le tbl

/-- The initial entries are sound once the sentinel is counted (40 R106). -/
theorem enqueueLeaves_sound (key : Nat → Nat) {tbl : CountTable} (h256 : tbl.get 256 = 1) :
    QueueSound (enqueueLeaves tbl (orderByKey key (qualifying tbl)) 0)
      (orderByKey key (qualifying tbl)).length := by
  have hlen := orderedLeaves_length_le key tbl
  have hle : ∀ v ∈ orderByKey key (qualifying tbl), v ≤ 256 := fun v hv =>
    (mem_orderedLeaves.mp hv).1
  have hnodup : (orderByKey key (qualifying tbl)).Nodup :=
    (orderedLeaves_perm key tbl).nodup_iff.mpr (qualifying_nodup tbl)
  have h256mem : 256 ∈ orderByKey key (qualifying tbl) :=
    mem_orderedLeaves.mpr ⟨Nat.le_refl _, by omega⟩
  generalize orderByKey key (qualifying tbl) = order at *
  refine ⟨?_, fun e he => ?_, ?_, ?_, ?_, ?_⟩
  · rw [enqueueLeaves_seq]
    exact List.pairwise_lt_range'
  · have hmem := List.mem_map_of_mem (f := PqEntry.seq) he
    rw [enqueueLeaves_seq, List.mem_range'_1] at hmem
    omega
  · rw [enqueueLeaves_length]
    simp only [NSYM] at hlen
    omega
  · rw [enqueueLeaves_leaves]
    refine hnodup.map_on fun u hu v hv huv => ?_
    have := hle u hu
    have := hle v hv
    exact symOf_inj (by omega) (by omega) huv
  · rw [enqueueLeaves_leaves]
    intro y hy
    obtain ⟨v, hv, rfl⟩ := List.mem_map.mp hy
    have := hle v hv
    rwa [symOf_toNat (by omega)]
  · rw [enqueueLeaves_leaves]
    exact List.mem_map.mpr ⟨256, h256mem, symOf_256⟩

theorem enqueueLeaves_weightsSound (key : Nat → Nat) (tbl : CountTable) :
    WeightsSound tbl (enqueueLeaves tbl (orderByKey key (qualifying tbl)) 0) := by
  intro e he
  obtain ⟨v, hv, hw, ht⟩ := mem_enqueueLeaves he
  have := (mem_orderedLeaves.mp hv).1
  simp [hw, ht, Tree.leaves, symOf_toNat (show v < 512 by omega)]

/-- A merge keeps the entries sound (40 R107). -/
theorem mergeStep_sound {P : Policy} {pq pq' : List PqEntry} {q : Nat}
    (h : mergeStep P pq q = some pq') (hq : QueueSound pq q) : QueueSound pq' (q + 1) := by
  obtain ⟨hseq, hlt, hlen, hnodup, hle, heof⟩ := hq
  obtain ⟨hseq', hlt'⟩ := mergeStep_seq h hseq hlt
  have hlen' := mergeStep_length h
  have hperm := mergeStep_leaves h
  exact ⟨hseq', hlt', by omega, hperm.nodup_iff.mpr hnodup,
    fun y hy => hle y (hperm.mem_iff.mp hy), hperm.mem_iff.mpr heof⟩

/-- The parent weighs what its two children weigh (40 R107, R111 (c)). -/
theorem mergeStep_weightsSound {P : Policy} {tbl : CountTable} {pq pq' : List PqEntry} {q : Nat}
    (h : mergeStep P pq q = some pq') (hw : WeightsSound tbl pq) : WeightsSound tbl pq' := by
  obtain ⟨a, b, ha, hb, rfl⟩ := mergeStep_eq_some h
  have hbmem := (chooseLightest_mem hb).1
  intro e he
  rcases List.mem_append.mp he with he | he
  · exact hw e (List.mem_of_mem_erase (List.mem_of_mem_erase he))
  · obtain rfl := List.mem_singleton.mp he
    rw [((joinPair_leaves P a b q).map _).sum_eq, List.map_append, List.sum_append,
      ← hw a (chooseLightest_mem ha).1, ← hw b (List.mem_of_mem_erase hbmem)]
    rfl

/-- The last entry holds a legal tree with the sentinel and no symbol twice (10_state R22). -/
theorem QueueSound.last {e : PqEntry} {q : Nat} (h : QueueSound [e] q) :
    e.tree.legal ∧ EOF_SYM ∈ e.tree.leaves ∧ e.tree.leaves.Nodup := by
  obtain ⟨-, -, -, hnodup, hle, heof⟩ := h
  simp only [List.map_cons, List.map_nil, leavesIn_cons, leavesIn_nil, List.append_nil] at *
  exact ⟨legal_iff.mpr ⟨hle, nodup_symbols_length hnodup hle⟩, heof, hnodup⟩

/-! ## The frames of the header reader (42_header_deserializer) -/

theorem FramesCounted.awaitLeft {fs : List HdFrame} {k n : Nat} (h : FramesCounted fs k n) :
    FramesCounted (.awaitLeft :: fs) k (n + 1) := by
  obtain ⟨hn, hk, hle⟩ := h
  exact ⟨by rw [awaiting_awaitLeft, hn], hk, hle⟩

/-- A leaf that leaves the header incomplete (42 R136). -/
theorem FramesCounted.leaf {fs stack : List HdFrame} {k n : Nat} {y : Sym}
    (h : FramesCounted fs k n) (hy : y.toNat ≤ 256)
    (hr : hdReduce fs (.leaf y) = .pending stack) : FramesCounted stack (k + 1) (n - 1) := by
  obtain ⟨hn, hk, hle⟩ := h
  obtain ⟨hawait, hperm⟩ := hdReduce_pending hr
  refine ⟨by omega, ?_, fun z hz => ?_⟩
  · rw [hperm.length_eq, hk]
    simp [Tree.leaves, Nat.add_comm]
  · rw [hperm.mem_iff, Tree.leaves, List.singleton_append, List.mem_cons] at hz
    rcases hz with rfl | hz
    · exact hy
    · exact hle z hz

/-- The leaf that completes the header gives a legal tree (42 R136, 10_state R22). -/
theorem FramesCounted.closed {fs : List HdFrame} {k n : Nat} {y : Sym} {t : Tree}
    (h : FramesCounted fs k n) (hk : k + n ≤ NSYM) (hy : y.toNat ≤ 256)
    (hr : hdReduce fs (.leaf y) = .closed t) : t.legal := by
  obtain ⟨hn, hleaves, hle⟩ := h
  obtain ⟨-, hperm⟩ := hdReduce_closed hr
  refine legal_iff.mpr ⟨fun z hz => ?_, ?_⟩
  · rw [hperm.mem_iff, Tree.leaves, List.singleton_append, List.mem_cons] at hz
    rcases hz with rfl | hz
    · exact hy
    · exact hle z hz
  · rw [hperm.length_eq, Tree.leaves, List.singleton_append, List.length_cons, ← hleaves]
    omega

/-- Frames are bounded by the leaves read and awaited (10_state R28). -/
theorem FramesCounted.depth {fs : List HdFrame} {k n : Nat} (h : FramesCounted fs k n) :
    fs.length + 1 ≤ k + n := by
  obtain ⟨hn, hk, -⟩ := h
  have hframes := frames_length fs
  have hlefts := length_le_leavesIn (leftsIn fs)
  omega

/-! ## The subtrees still to be written (41_header_serializer) -/

theorem LegalLeaves.sublist {l k : List Sym} (h : LegalLeaves l) (hs : k.Sublist l) :
    LegalLeaves k :=
  ⟨fun y hy => h.1 y (hs.subset hy), hs.length_le.trans h.2⟩

theorem Inv.pending_legal {s : State} (hi : Inv s) {ts : List Tree}
    (h : hsPending s = some ts) : LegalLeaves (leavesIn ts) := by
  obtain ⟨-, ⟨-, t, ht, rfl⟩ | rfl⟩ := hsPending_eq_some h
  · obtain ⟨hv, htree⟩ := readTree_eq_some.mp ht
    obtain ⟨u, hu, hlegal⟩ := hi.treeHeld hv
    obtain rfl : t = u := Option.some.inj (htree.symm.trans hu)
    simpa using legal_iff.mp hlegal
  · exact hi.hsLegal

/-! ## The code table (43_encoder) -/

theorem CodeTable.get_of_gt (tbl : CodeTable) {v : Nat} (h : 256 < v) : tbl.get v = none := by
  have hv : ¬ v < 257 := by omega
  simp [CodeTable.get, hv]

/-- The table made of the codes of `t` (43 R152). -/
def tableOf (t : Tree) (s : State) : CodeTable :=
  (recordAll t.codes { s with code := Vector.replicate 257 none }).code

theorem encVisits_eq_tableOf (t : Tree) (s : State) :
    encVisits t.nodes (startTableWalk t s) = { s with code := tableOf t s, encStack := [] } :=
  encTable_eq t s

theorem tableOf_get (t : Tree) (s : State) {y : Sym} (hy : y.toNat ≤ 256) :
    (tableOf t s).get y.toNat = codeOf t y := by
  rw [tableOf, recordAll_get _ _ _ hy, codeOf_eq_lastFor]
  cases h : lastFor y t.codes <;> simp

/-- No code of a legal tree is longer than 256 bits (00_scope R9). -/
theorem tableOf_length {t : Tree} (ht : t.legal) (s : State) {v : Nat} {p : Bits}
    (h : (tableOf t s).get v = some p) : p.length ≤ 256 := by
  by_cases hv : 256 < v
  · rw [CodeTable.get_of_gt _ hv] at h
    cases h
  · have hsym : (symOf v).toNat = v := symOf_toNat (by omega)
    rw [← hsym, tableOf_get t s (by omega)] at h
    have hpath := Tree.length_add_nleaves_le (sub_of_codeOf h)
    have hleaves := ht.2
    simp only [Tree.nleaves, NSYM] at hpath hleaves
    omega

/-! ## The position of the decoder (44_decoder) -/

/-- From an internal node of the tree to its child on the side of the bit (44 R175). -/
theorem sub_childOf {t l r : Tree} {p : Bits} (h : t.sub p = some (.node l r)) (b : Bool) :
    t.sub (p ++ [b]) = some (childOf b l r) := by
  rw [Tree.sub_append, h]
  cases b <;> simp [childOf]

/-- A tree with an internal node is itself one. -/
theorem eq_node_of_sub {t l r : Tree} {p : Bits} (h : t.sub p = some (.node l r)) :
    ∃ l' r', t = .node l' r' := by
  cases t with
  | node l' r' => exact ⟨l', r', rfl⟩
  | leaf y => cases p <;> simp at h

end Sys2Proof.Machine
end

section
/-! SUPPORT. Every rule, every command and the reset keep the invariant. -/

namespace Sys2Proof.Machine

/-! ## The phase after a step (10_state R41) -/

theorem busy_of_onlyNext {s : State} {p q : Phase} (hp : s.phase = p)
    (hq : onlyNext p = some q) : s.busyFlag = true := by
  subst hp
  rw [busyFlag_iff]
  refine ⟨?_, ?_, ?_⟩ <;> intro hp <;> rw [hp] at hq <;> cases hq

theorem needsTree_of_eq {s : State} {p : Phase} (hp : s.phase = p) (h : needsTree p = true) :
    needsTree s.phase = true := by rw [hp, h]

theorem Inv.nextPhase_eq {s : State} (hi : Inv s) {p q : Phase} (hp : s.phase = p)
    (hq : onlyNext p = some q) : nextPhase s.cmd s.phase = some q :=
  nextPhase_of_onlyNext (hi.mem_chain (busy_of_onlyNext hp hq)) (by rw [hp, hq])

theorem Inv.next_mem_chain {s : State} (hi : Inv s) {p q : Phase} (hp : s.phase = p)
    (hq : onlyNext p = some q) : q ∈ chain s.cmd := (nextPhase_mem (hi.nextPhase_eq hp hq)).1

/-- `PHASE` stays, moves along the chain of `CMD`, takes the decoder's short cut or goes to `FAULT` (10_state R41, 44 R174). -/
theorem StepCase.phase_cases {s t : State} (h : StepCase s t) (hi : Inv s) :
    t.phase = s.phase ∨ nextPhase s.cmd s.phase = some t.phase ∨
      (s.phase = .decStart ∧ t.phase = .decClose) ∨ t.phase = .fault := by
  cases h with
  | wait | countByte | merge | hsNode | hsLeaf | hdNode | hdLeaf | bitNode | bitByte =>
    exact .inl (by simp)
  | bodyCode v p => exact .inl (by rw [emitted_eq]; rfl)
  | countEnd hp | init hp | magicWrite hp | encTable _ hp | rewind hp | bodyEnd hp | eofCode _ hp
  | magicRead hp | startNode _ _ hp | bitEof _ _ _ hp =>
    exact .inr (.inl (hi.nextPhase_eq hp rfl))
  | close hp => rcases hp with hp | hp <;> exact .inr (.inl (hi.nextPhase_eq hp rfl))
  | built _ _ hp _ hn | hsLast _ _ hp _ _ hn | hdLast _ _ _ hp _ _ _ _ _ hn =>
    exact .inr (.inl (by rw [hp, hn]; rfl))
  | startEof hp => exact .inr (.inr (.inl ⟨hp, rfl⟩))
  | magicBad | magicEod | hdEodTag | hdCapacity | hdEodSym | hdRange | startByte | bitEod =>
    exact .inr (.inr (.inr rfl))

/-! ## huffman_tree_builder -/

theorem countByte_inv {s : State} (hi : Inv s) (hp : s.phase = .tbCount) {v : Nat}
    (hv : v < 256) (w : Nat) : Inv (writeCount v w s) :=
  { hi with
    sentinelCount := fun hc => by
      rw [writeCount_count, CountTable.get_put, if_neg (by omega)]
      exact hi.sentinelCount hc
    queueWeights := fun h => by cases hp.symm.trans h }

theorem countEnd_inv {s : State} (hi : Inv s) (hp : s.phase = .tbCount) :
    Inv (setPhase .tbInit (markCounted (writeCount 256 1 s))) := by
  have hb := busy_of_onlyNext hp rfl
  refine setPhase_inv
    { hi.registers (by rw [hp]; nofun) with
      sentinelCount := fun _ => by
        rw [markCounted_count, writeCount_count, CountTable.get_put, if_pos (by decide)] }
    { inChain := hi.next_mem_chain hp rfl
      treeNotYet := fun _ => hi.treeNotYet (by rw [hp]; rfl)
      counted := fun _ => rfl
      queueIdle := fun _ => hi.queueIdle (by rw [hp]; nofun)
      hsIdle := fun _ => hi.hsIdle (by rw [hp]; nofun)
      sinkOpen := fun _ => hi.sinkOpen hb
      sinkEmpty := fun _ => hi.sinkEmpty (.inl hp)
      sinkBytes := fun _ => hi.sinkBytes hb }

theorem init_inv {s : State} (hi : Inv s) (hp : s.phase = .tbInit) (key : Nat → Nat) :
    Inv (setPhase .tbMerge
      (setQueue (enqueueLeaves s.count (orderByKey key (qualifying s.count)) 0)
        (orderByKey key (qualifying s.count)).length s)) := by
  have hb := busy_of_onlyNext hp rfl
  have hlen : (orderByKey key (qualifying s.count)).length < 514 :=
    (orderedLeaves_length_le key s.count).trans_lt (by decide)
  refine setPhase_inv
    { hi.registers (by rw [hp]; nofun) with seqBound := hlen }
    { inChain := hi.next_mem_chain hp rfl
      treeNotYet := fun _ => hi.treeNotYet (by rw [hp]; rfl)
      queueIdle := fun h => absurd rfl h
      queue := fun _ => enqueueLeaves_sound key (hi.sentinelCount (hi.counted hp))
      queueWeights := fun _ => enqueueLeaves_weightsSound key s.count
      hsIdle := fun _ => hi.hsIdle (by rw [hp]; nofun)
      sinkOpen := fun _ => hi.sinkOpen hb
      sinkEmpty := fun _ => hi.sinkEmpty (.inr (.inl hp))
      sinkBytes := fun _ => hi.sinkBytes hb }

theorem merge_inv {s : State} (hi : Inv s) (hp : s.phase = .tbMerge) {P : Policy}
    {pq : List PqEntry} (h2 : 2 ≤ s.pq.length) (hm : mergeStep P s.pq s.seq = some pq) :
    Inv (setQueue pq (s.seq + 1) s) :=
  { hi with
    queueIdle := fun h => absurd hp h
    queue := fun _ => mergeStep_sound hm (hi.queue hp)
    queueWeights := fun _ => mergeStep_weightsSound hm (hi.queueWeights hp)
    seqBound := by
      obtain ⟨-, -, hlen, -⟩ := hi.queue hp
      rw [setQueue_seq]
      omega }

theorem built_inv {s : State} (hi : Inv s) (hp : s.phase = .tbMerge) {e : PqEntry} {p : Phase}
    (hq : s.pq = [e]) (hn : nextPhase s.cmd .tbMerge = some p) :
    Inv (setPhase p (setQueue [] s.seq (writeTree e.tree .built s))) := by
  have hb : s.busyFlag = true := by rw [busyFlag_iff, hp]; decide
  have hsound := hi.queue hp
  rw [hq] at hsound
  obtain ⟨hlegal, heof, hnodup⟩ := QueueSound.last hsound
  refine setPhase_inv
    { hi.registers (by rw [hp]; nofun) with
      treeHeld := fun _ => ⟨_, rfl, hlegal⟩
      treeBuilt := fun _ _ => ⟨_, rfl, heof, hnodup⟩ } ?_
  have hc := (nextPhase_mem hn).1
  obtain ⟨-, rfl⟩ | ⟨-, rfl⟩ := nextPhase_tbMerge hn <;>
    exact .of_tree rfl hc rfl rfl (fun _ => hi.hsIdle (by rw [hp]; nofun))
      (fun _ => hi.sinkOpen hb) (fun _ => hi.sinkBytes hb)
      (fun _ => hi.sinkEmpty (.inr (.inr (.inl hp))))

/-! ## huffman_header_serializer -/

/-- The writes of the encoder and of the header serializer, of any number of bits. -/
theorem snkAppend_inv_of_encoder {s : State} (hi : Inv s) (x : Bits) (t : Transaction)
    (hp : s.phase = .hsWalk ∨ s.phase = .encBody ∨ s.phase = .encEof) : Inv (snkAppend x t s) := by
  have hb : s.busyFlag = true := by
    rw [busyFlag_iff]
    rcases hp with hp | hp | hp <;> simp [hp]
  have hbytes := writesBytes_eq_false (hi.mem_chain hb) (.inr hp)
  refine snkAppend_inv hi t ?_ fun hw => absurd (hbytes.symm.trans hw) Bool.false_ne_true
  rcases hp with hp | hp | hp <;> simp [hp]

theorem hsNode_inv {s : State} (hi : Inv s) (hp : s.phase = .hsWalk) {l r : Tree}
    {rest : List Tree} (ht : hsPending s = some (.node l r :: rest)) :
    Inv (setHsStack (l :: r :: rest) (snkAppend (bitsOf 1 0) (.snkWrite 1 0) s)) := by
  have hl := hi.pending_legal ht
  rw [leavesIn_cons, Tree.leaves, List.append_assoc] at hl
  exact setHsStack_inv (snkAppend_inv_of_encoder hi _ _ (.inl hp)) hp hl

/-- A leaf is written and the subtrees after it stay (41 R123). -/
theorem hsLeaf_inv {s : State} (hi : Inv s) (hp : s.phase = .hsWalk) {y : Sym}
    {rest : List Tree} (ht : hsPending s = some (.leaf y :: rest)) :
    Inv (setHsStack rest
      (snkAppend (bitsOf 9 y.toNat) (.snkWrite 9 y.toNat)
        (snkAppend (bitsOf 1 1) (.snkWrite 1 1) s))) := by
  have hl := (hi.pending_legal ht).sublist (List.sublist_append_right _ (leavesIn rest))
  have h1 := snkAppend_inv_of_encoder hi (bitsOf 1 1) (.snkWrite 1 1) (.inl hp)
  exact setHsStack_inv (snkAppend_inv_of_encoder h1 _ _ (.inl hp)) hp hl

theorem hsLast_inv {s : State} (hi : Inv s) (hp : s.phase = .hsWalk) {y : Sym} {p : Phase}
    (ht : hsPending s = some [.leaf y]) (hn : nextPhase s.cmd .hsWalk = some p) :
    Inv (setPhase p
      (setHsStack []
        (snkAppend (bitsOf 9 y.toNat) (.snkWrite 9 y.toNat)
          (snkAppend (bitsOf 1 1) (.snkWrite 1 1) s)))) := by
  have hc := (nextPhase_mem hn).1
  have hs := needsTree_of_eq hp rfl
  obtain ⟨-, rfl⟩ | ⟨-, rfl⟩ := nextPhase_hsWalk hn <;>
    exact setPhase_inv_of_needsTree (hsLeaf_inv hi hp ht) hs hc (hhs := fun _ => rfl)

/-! ## huffman_encoder -/

theorem magicWrite_inv {s : State} (hi : Inv s) (hp : s.phase = .encMagic) (m : Word32) :
    Inv (setPhase .hsWalk (snkAppend (bitsOf 32 m.toNat) (.snkWrite 32 m.toNat) s)) :=
  have hmove : Inv (setPhase .hsWalk s) :=
    setPhase_inv_of_needsTree hi (needsTree_of_eq hp rfl) (hi.next_mem_chain hp rfl)
      (hhs := fun h => absurd rfl h)
  snkAppend_inv_of_encoder hmove _ _ (.inl rfl)

theorem encTable_inv {s : State} (hi : Inv s) (hp : s.phase = .encTable) {t : Tree}
    (ht : readTree s = some t) :
    Inv (setPhase .encRewind (markTable (encVisits t.nodes (startTableWalk t s)))) := by
  obtain ⟨hv, htree⟩ := readTree_eq_some.mp ht
  obtain ⟨u, hu, hlegal⟩ := hi.treeHeld hv
  obtain rfl : t = u := Option.some.inj (htree.symm.trans hu)
  rw [encVisits_eq_tableOf]
  have hwritten : Inv (markTable { s with code := tableOf t s, encStack := [] }) :=
    { hi with
      tableReady := fun h => by rw [markTable_phase, hp] at h; cases h
      codeLength := fun v p h => tableOf_length hlegal s h
      encIdle := rfl }
  exact setPhase_inv_of_needsTree hwritten (needsTree_of_eq hp rfl) (hi.next_mem_chain hp rfl)
    (hhs := fun _ => hi.hsIdle (by rw [hp]; nofun))
    (htab := fun _ => ⟨rfl, t, htree, fun y hy => tableOf_get t s hy⟩)

theorem rewind_inv {s : State} (hi : Inv s) (hp : s.phase = .encRewind) :
    Inv (setPhase .encBody (srcRewind s)) :=
  setPhase_inv_of_needsTree (srcRewind_inv hi) (needsTree_of_eq hp rfl) (hi.next_mem_chain hp rfl)
    (hhs := fun _ => hi.hsIdle (by rw [hp]; nofun))
    (htab := fun _ => hi.tableReady (by rw [hp]; rfl))

theorem emitted_inv {s : State} (hi : Inv s) (p : Bits)
    (hp : s.phase = .encBody ∨ s.phase = .encEof) : Inv (emitted p s) := by
  cases p with
  | nil => exact hi
  | cons b q => exact snkAppend_inv_of_encoder hi _ _ (.inr hp)

theorem bodyEnd_inv {s : State} (hi : Inv s) (hp : s.phase = .encBody) :
    Inv (setPhase .encEof s) :=
  setPhase_inv_of_needsTree hi (needsTree_of_eq hp rfl)
    (hi.next_mem_chain hp rfl) (hhs := fun _ => hi.hsIdle (by rw [hp]; nofun))
    (htab := fun _ => hi.tableReady (by rw [hp]; rfl))

theorem eofCode_inv {s : State} (hi : Inv s) (hp : s.phase = .encEof) (p : Bits) :
    Inv (setPhase .encClose (emitted p s)) := by
  have he := emitted_inv hi p (.inr hp)
  have hp' : (emitted p s).phase = .encEof := by rw [emitted_eq]; exact hp
  exact setPhase_inv_of_needsTree he (needsTree_of_eq hp' rfl) (he.next_mem_chain hp' rfl)
    (hhs := fun _ => he.hsIdle (by rw [hp']; nofun))

/-- `SnkClose` pads and closes, and the operation is at rest (43 R158, 44 R176). -/
theorem close_inv {s : State} (hi : Inv s) (hp : s.phase = .encClose ∨ s.phase = .decClose) :
    Inv (setPhase .done (snkPadded s)) := by
  have hmove : Inv (setPhase .done s) := by
    rcases hp with hp | hp <;>
      exact setPhase_inv_of_needsTree hi (needsTree_of_eq hp rfl) (hi.next_mem_chain hp rfl)
        (hhs := fun _ => hi.hsIdle (by rw [hp]; nofun))
  exact { withSink_inv hmove rfl (snkPadded s).snk with }

/-! ## huffman_header_deserializer -/

/-- The counters after the magic word are those of an empty stack of frames (10_state R40). -/
theorem framesCounted_start : FramesCounted [] 0 1 := ⟨rfl, rfl, by simp [leavesIn_nil]⟩

theorem magicRead_inv {s : State} (hi : Inv s) (hp : s.phase = .decMagic) :
    Inv (setPhase .hdWalk s) := by
  have hb := busy_of_onlyNext hp rfl
  obtain ⟨hstack, hcnt, hneed⟩ := hi.hdStart hp
  exact setPhase_inv (hi.registers (by rw [hp]; nofun))
    { inChain := hi.next_mem_chain hp rfl
      treeNotYet := fun _ => hi.treeNotYet (by rw [hp]; rfl)
      queueIdle := fun _ => hi.queueIdle (by rw [hp]; nofun)
      hsIdle := fun _ => hi.hsIdle (by rw [hp]; nofun)
      hdCounts := fun _ => by
        rw [hstack, hcnt, hneed]
        exact framesCounted_start
      sinkOpen := fun _ => hi.sinkOpen hb
      sinkBytes := fun _ => hi.sinkBytes hb }

/-- New frames and counters that agree, within the bound of 257 leaves (42 R133, R135). -/
theorem hdFrames_inv {s : State} (hi : Inv s) (hp : s.phase = .hdWalk) {fs : List HdFrame}
    {k n : Nat} (hf : FramesCounted fs k n) (hb : k + n ≤ NSYM) :
    Inv (setHdStack fs (setHdCounts k n s)) :=
  { hi with
    hdBound := hb
    hdDepth := hf.depth
    hdCounts := fun _ => hf
    hdStart := fun h => by cases hp.symm.trans h }

theorem hdNode_inv {s : State} (hi : Inv s) (hp : s.phase = .hdWalk)
    (hc : s.leafCnt + s.need ≠ NSYM) :
    Inv (setHdStack (.awaitLeft :: s.hdStack) (setHdCounts s.leafCnt (s.need + 1) s)) := by
  have hbound := hi.hdBound
  exact hdFrames_inv hi hp (FramesCounted.awaitLeft (hi.hdCounts hp)) (by omega)

theorem hdLeaf_inv {s : State} (hi : Inv s) (hp : s.phase = .hdWalk) (h0 : s.need ≠ 0) {y : Sym}
    (hy : y.toNat ≤ 256) {stack : List HdFrame}
    (hr : hdReduce s.hdStack (.leaf y) = .pending stack) :
    Inv (setHdStack stack (setHdCounts (s.leafCnt + 1) (s.need - 1) s)) := by
  have hbound := hi.hdBound
  exact hdFrames_inv hi hp (FramesCounted.leaf (hi.hdCounts hp) hy hr) (by omega)

theorem hdLast_inv {s : State} (hi : Inv s) (hp : s.phase = .hdWalk) (h0 : s.need ≠ 0) {y : Sym}
    (hy : y.toNat ≤ 256) {t : Tree} {p : Phase} (hr : hdReduce s.hdStack (.leaf y) = .closed t)
    (hn : nextPhase s.cmd .hdWalk = some p) :
    Inv (setPhase p
      (setHdStack [] (writeTree t .read (setHdCounts (s.leafCnt + 1) (s.need - 1) s)))) := by
  have hb : s.busyFlag = true := by rw [busyFlag_iff, hp]; decide
  have hbound := hi.hdBound
  have hlegal := FramesCounted.closed (hi.hdCounts hp) hbound hy hr
  refine setPhase_inv
    { hi.registers (by rw [hp]; nofun) with
      treeHeld := fun _ => ⟨_, rfl, hlegal⟩
      treeBuilt := nofun
      hdBound := by simp; omega
      hdDepth := by simp; omega } ?_
  have hc := (nextPhase_mem hn).1
  obtain ⟨-, rfl⟩ | ⟨-, rfl⟩ := nextPhase_hdWalk hn <;>
    exact .of_tree rfl hc rfl (hi.queueIdle (by rw [hp]; nofun))
      (fun _ => hi.hsIdle (by rw [hp]; nofun)) (fun _ => hi.sinkOpen hb) (fun _ => hi.sinkBytes hb)

/-! ## huffman_decoder -/

theorem startNode_inv {s : State} (hi : Inv s) (hp : s.phase = .decStart) {l r : Tree}
    (ht : readTree s = some (.node l r)) : Inv (setPhase .decWalk (setCur (.node l r) s)) :=
  setPhase_inv_of_needsTree (setCur_inv hi fun h => by cases hp.symm.trans h)
    (needsTree_of_eq hp rfl) (hi.next_mem_chain hp rfl)
    (hhs := fun _ => hi.hsIdle (by rw [hp]; nofun))
    (hcur := fun _ => ⟨_, [], l, r, (readTree_eq_some.mp ht).2, Tree.sub_nil _, rfl⟩)

theorem startEof_inv {s : State} (hi : Inv s) (hp : s.phase = .decStart) :
    Inv (setPhase .decClose (setCur (.leaf EOF_SYM) s)) := by
  have hc : .decStart ∈ chain s.cmd := hp ▸ hi.mem_chain (busy_of_onlyNext hp rfl)
  exact setPhase_inv_of_needsTree (setCur_inv hi fun h => by cases hp.symm.trans h)
    (needsTree_of_eq hp rfl) (decClose_mem_chain hc) (hhs := fun _ => hi.hsIdle (by rw [hp]; nofun))

theorem startByte_inv {s : State} (hi : Inv s) (hp : s.phase = .decStart) (y : Sym) :
    Inv (raise .malformedHeader .leafRoot (zext32 y) (setCur (.leaf y) s)) :=
  raise_inv (sub := .leafRoot) (setCur_inv hi fun h => by cases hp.symm.trans h) nofun hp _

theorem bitNode_inv {s : State} (hi : Inv s) (hp : s.phase = .decWalk) {b : Bool}
    {l r l' r' : Tree} (hc : s.cur = some (.node l r)) (hx : childOf b l r = .node l' r') :
    Inv (setCur (.node l' r') s) := by
  obtain ⟨t, p, l₀, r₀, htree, hsub, hcur⟩ := hi.curNode hp
  obtain ⟨rfl, rfl⟩ := Tree.node.inj (Option.some.inj (hc.symm.trans hcur))
  exact setCur_inv hi fun _ =>
    ⟨t, p ++ [b], l', r', htree, by rw [sub_childOf hsub, hx], rfl⟩

theorem bitEof_inv {s : State} (hi : Inv s) (hp : s.phase = .decWalk) :
    Inv (setPhase .decClose s) :=
  setPhase_inv_of_needsTree hi (needsTree_of_eq hp rfl)
    (hi.next_mem_chain hp rfl) (hhs := fun _ => hi.hsIdle (by rw [hp]; nofun))

theorem bitByte_inv {s : State} (hi : Inv s) (hp : s.phase = .decWalk) {t : Tree} (y : Sym)
    (ht : readTree s = some t) :
    Inv (setCur t (snkAppend (bitsOf 8 y.toNat) (.snkWrite 8 y.toNat) s)) := by
  obtain ⟨u, p, l, r, htree, hsub, -⟩ := hi.curNode hp
  obtain rfl : t = u := Option.some.inj ((readTree_eq_some.mp ht).2.symm.trans htree)
  obtain ⟨l', r', rfl⟩ := eq_node_of_sub hsub
  have hwrite : Inv (snkAppend (bitsOf 8 y.toNat) (.snkWrite 8 y.toNat) s) :=
    snkAppend_inv hi _ (by simp [hp]) fun _ => by rw [bitsOf_length]
  exact setCur_inv hwrite fun _ => ⟨_, [], l', r', htree, Tree.sub_nil _, rfl⟩

/-! ## Every rule -/

theorem StepCase.inv {s t : State} (h : StepCase s t) (hi : Inv s) : Inv t := by
  have hread := srcAfter_inv hi
  cases h with
  | wait => exact hi
  | countByte v hp hv => exact countByte_inv (hread 8) hp (srcPeek_lt (by decide) hv) _
  | countEnd hp => exact countEnd_inv (hread 8) hp
  | init hp => exact init_inv hi hp _
  | merge pq hp h2 hm => exact merge_inv hi hp h2 hm
  | built e p hp hq hn => exact built_inv hi hp hq hn
  | magicWrite hp => exact magicWrite_inv hi hp _
  | hsNode l r rest hp ht => exact hsNode_inv hi hp ht
  | hsLeaf y u rest hp ht => exact hsLeaf_inv hi hp ht
  | hsLast y p hp ht _ hn => exact hsLast_inv hi hp ht hn
  | encTable u hp ht => exact encTable_inv hi hp ht
  | rewind hp => exact rewind_inv hi hp
  | bodyCode v p hp => exact emitted_inv (hread 8) p (.inl hp)
  | bodyEnd hp => exact bodyEnd_inv (hread 8) hp
  | eofCode p hp => exact eofCode_inv hi hp p
  | close hp => exact close_inv hi hp
  | magicRead hp => exact magicRead_inv (hread 32) hp
  | magicBad w hp => exact raise_inv (sub := .magicMismatch) (hread 32) nofun hp w
  | magicEod hp => exact raise_inv (sub := .eodMagic) (hread 32) nofun hp 0
  | hdEodTag hp => exact raise_inv (sub := .eodHdrTag) (hread 1) nofun hp 0
  | hdCapacity hp => exact raise_inv (sub := .capacity) (hread 1) nofun hp 0
  | hdNode hp _ _ hc => exact hdNode_inv (hread 1) hp hc
  | hdEodSym hp => exact raise_inv (sub := .eodHdrSym) (srcAfter_inv (hread 1) 9) nofun hp 0
  | hdRange y hp => exact raise_inv (sub := .symbolRange) (srcAfter_inv (hread 1) 9) nofun hp _
  | hdLeaf y stack hp h0 _ _ hy hr => exact hdLeaf_inv (srcAfter_inv (hread 1) 9) hp h0 hy hr
  | hdLast y u p hp h0 _ _ hy hr hn => exact hdLast_inv (srcAfter_inv (hread 1) 9) hp h0 hy hr hn
  | startNode l r hp ht => exact startNode_inv hi hp ht
  | startEof hp => exact startEof_inv hi hp
  | startByte y hp => exact startByte_inv hi hp y
  | bitNode b l r l' r' hp hc _ hx => exact bitNode_inv (hread 1) hp hc hx
  | bitEof b l r hp => exact bitEof_inv (hread 1) hp
  | bitByte b l r y u hp _ _ _ _ ht => exact bitByte_inv (hread 1) hp y ht
  | bitEod l r hp => exact raise_inv (sub := .eodBody) (hread 1) nofun hp 0

/-! ## Commands and the reset -/

/-- `CMD` is written with the first phase of its chain (10_state R41). -/
theorem startCommand_inv {s : State} {c : Command} {p : Phase} (hr : Registers s)
    (hf : firstPhase c = some p) (he : Entry p { s with cmd := c }) : Inv (startCommand c s) := by
  have hs : startCommand c s = setPhase p { s with cmd := c } := by
    rw [startCommand, hf]; rfl
  rw [hs]
  exact setPhase_inv { hr with } he

theorem clearTable_registers {s : State} (hr : Registers s) : Registers (clearTable s) :=
  { hr with codeLength := fun v p h => by simp at h }

theorem clearForBuild_registers {s : State} (hr : Registers s) : Registers (clearForBuild s) :=
  { clearTable_registers hr with
    treeHeld := nofun
    treeBuilt := nofun
    sentinelCount := nofun
    seqBound := show 0 < 514 by decide }

theorem clearForRead_registers {s : State} (hr : Registers s) : Registers (clearForRead s) :=
  { clearTable_registers hr with
    treeHeld := nofun
    treeBuilt := nofun
    hdBound := show 0 + 1 ≤ NSYM by decide
    hdDepth := Nat.le_refl _ }

theorem commandCase_inv {s t : State} {c : Command} (h : CommandCase s c t) (hi : Inv s) :
    Inv t := by
  have rest : s.accepting = true → Registers s ∧ s.pq = [] ∧ s.hsStack = [] := by
    intro ha
    rcases (accepting_iff s).mp ha with hp | hp <;>
      exact ⟨hi.registers (by rw [hp]; nofun), hi.queueIdle (by rw [hp]; nofun),
        hi.hsIdle (by rw [hp]; nofun)⟩
  cases h with
  | ignored => exact hi
  | nop => exact hi
  | tbRun ha =>
    obtain ⟨hr, -, hhs⟩ := rest ha
    exact startCommand_inv (clearForBuild_registers hr) rfl
      { inChain := .head _
        treeNotYet := fun _ => rfl
        queueIdle := fun _ => rfl
        hsIdle := fun _ => hhs
        sinkOpen := nofun
        sinkEmpty := nofun
        sinkBytes := nofun }
  | compress ha hk =>
    obtain ⟨hr, -, hhs⟩ := rest ha
    obtain ⟨hbits, hopen⟩ := (sinkFresh_iff s).mp hk
    exact startCommand_inv (clearForBuild_registers hr) rfl
      { inChain := .head _
        treeNotYet := fun _ => rfl
        queueIdle := fun _ => rfl
        hsIdle := fun _ => hhs
        sinkOpen := fun _ _ => hopen
        sinkEmpty := fun _ _ => hbits
        sinkBytes := nofun }
  | hdRun ha =>
    obtain ⟨hr, hq, hhs⟩ := rest ha
    exact startCommand_inv (clearForRead_registers hr) rfl
      { inChain := .head _
        treeNotYet := fun _ => rfl
        queueIdle := fun _ => hq
        hsIdle := fun _ => hhs
        hdCounts := fun _ => framesCounted_start
        sinkOpen := nofun
        sinkBytes := nofun }
  | decompress ha hk =>
    obtain ⟨hr, hq, hhs⟩ := rest ha
    obtain ⟨hbits, hopen⟩ := (sinkFresh_iff s).mp hk
    exact startCommand_inv (clearForRead_registers hr) rfl
      { inChain := .head _
        treeNotYet := fun _ => rfl
        queueIdle := fun _ => hq
        hsIdle := fun _ => hhs
        hdStart := fun _ => ⟨rfl, rfl, rfl⟩
        sinkOpen := fun _ _ => hopen
        sinkBytes := fun _ _ => congrArg (·.length % 8) hbits }
  | hsRun ha ht hk =>
    obtain ⟨hr, hq, hhs⟩ := rest ha
    exact startCommand_inv hr rfl
      (.of_tree rfl (.head _) ht hq (fun _ => hhs) (fun _ _ => hk) nofun)
  | encRun ha ht hk =>
    obtain ⟨hr, hq, hhs⟩ := rest ha
    obtain ⟨hbits, hopen⟩ := (sinkFresh_iff s).mp hk
    exact startCommand_inv (clearTable_registers hr) rfl
      (.of_tree rfl (.head _) ht hq (fun _ => hhs) (fun _ _ => hopen) nofun (fun _ _ => hbits))
  | decRun ha ht hk =>
    obtain ⟨hr, hq, hhs⟩ := rest ha
    obtain ⟨hbits, hopen⟩ := (sinkFresh_iff s).mp hk
    exact startCommand_inv hr rfl
      (.of_tree rfl (.head _) ht hq (fun _ => hhs) (fun _ _ => hopen)
        (fun _ _ => congrArg (·.length % 8) hbits))

/-- Settles O40: each clause is of the values of 10_state R42, or of another phase than `IDLE`. -/
theorem resetSatisfiesInv : Obligations.ResetSatisfiesInv := by
  unfold Obligations.ResetSatisfiesInv
  constructor <;> simp [needsTree, makesTree, needsTable, leavesIn, State.busyFlag]

theorem resetCore_inv {s : State} (hi : Inv s) : Inv (resetCore s) :=
  { withSink_inv resetSatisfiesInv rfl s.snk with srcPos := hi.srcPos }

/-- Settles O41: a step is a reset, a command on the port or a rule, and each of the three keeps the invariant. -/
theorem stepKeepsInv : Obligations.StepKeepsInv := by
  intro s t hi h
  obtain ⟨-, rfl⟩ | ⟨-, c, -, hc⟩ | ⟨-, hcase⟩ := step_next_cases h
  · exact resetCore_inv hi
  · exact commandCase_inv hc (clearPort_inv hi)
  · exact hcase.inv hi

end Sys2Proof.Machine
end

section
/-! SUPPORT. The statements about single steps: which registers a rule writes, how the phases follow one another, and what the host does. -/

namespace Sys2Proof.Machine

/-- Settles O39: each rule stands in a phase of its own unit (`hp` of its case) and writes that unit's registers. -/
theorem registersWrittenOnlyByTheirUnit : Obligations.RegistersWrittenOnlyByTheirUnit := by
  intro s t hq h
  have ⟨hrst, hport⟩ := hq
  cases case_of_step hq h
  case encTable u hp _ => rw [encVisits_eq_tableOf]; simp [hrst, hport, hp]
  case bodyCode v p hp _ _ _ => rw [emitted_eq]; simp [hrst, hport]
  case eofCode p hp _ _ => rw [emitted_eq]; simp [hrst, hport]
  all_goals simp [*]

theorem CommandCase.faultRegisters {s t : State} {c : Command} (h : CommandCase s c t) :
    t.faultCode = s.faultCode ∧ t.faultSub = s.faultSub ∧ t.faultValue = s.faultValue ∧
      t.faultPhase = s.faultPhase := by
  cases h <;> exact ⟨rfl, rfl, rfl, rfl⟩

/-- Only the rules that end in a raise write the fault registers, and they write the phase they stand in (60_exceptions R204). -/
theorem StepCase.faultRegisters {s t : State} (h : StepCase s t) :
    (t.faultCode = s.faultCode ∧ t.faultSub = s.faultSub ∧ t.faultValue = s.faultValue ∧
      t.faultPhase = s.faultPhase) ∨
    (s.phase ≠ .fault ∧ t.phase = .fault ∧ t.faultPhase = s.phase) := by
  cases h with
  | magicBad _ hp | magicEod hp | hdEodTag hp | hdCapacity hp | hdEodSym hp | hdRange _ hp
  | startByte _ hp | bitEod _ _ hp => exact .inr (by simp [hp])
  | encTable => left; rw [encVisits_eq_tableOf]; simp
  | bodyCode | eofCode => left; rw [emitted_eq]; simp
  | _ => left; simp

/-- Settles O35: a reset is excluded, a command leaves the fault registers, and a rule writes them only in a raise. -/
theorem faultRegistersWrittenOnlyByRaise : Obligations.FaultRegistersWrittenOnlyByRaise := by
  intro s t h hr
  obtain ⟨hr', -⟩ | ⟨-, c, -, hc⟩ | ⟨-, hcase⟩ := step_next_cases h
  · exact absurd (hr.symm.trans hr') Bool.false_ne_true
  · exact .inl hc.faultRegisters
  · exact hcase.faultRegisters

/-- Settles O36: `TREE` is written in `TB_MERGE` and `HD_WALK` alone (O39), where no tree is held. -/
theorem heldTreeIsReadOnly : Obligations.HeldTreeIsReadOnly := by
  intro s t hi hq h hv
  have hmakes : makesTree s.phase ≠ true := fun hm => by
    rw [hi.treeNotYet hm] at hv
    cases hv
  have hmerge : s.phase ≠ .tbMerge := fun hp => hmakes (by rw [hp]; rfl)
  have hwalk : s.phase ≠ .hdWalk := fun hp => hmakes (by rw [hp]; rfl)
  obtain ⟨-, -, -, -, -, htree, -⟩ := registersWrittenOnlyByTheirUnit s t hq h
  obtain ⟨h1, h2, h3⟩ := htree hmerge hwalk
  exact ⟨h1, h2.trans hv, h3⟩

/-- Settles O38: `CMD` is not written (O39), and the phase is read off each rule. -/
theorem phasesFollowTheChain : Obligations.PhasesFollowTheChain := by
  intro s t hi hq h
  obtain ⟨-, -, hcmd, -⟩ := registersWrittenOnlyByTheirUnit s t hq h
  exact ⟨hcmd, (case_of_step hq h).phase_cases hi⟩

/-! ## The host (10_state R40, 70_reset R230, R235, R236, R241) -/

theorem busyFlag_eq_false {s : State} :
    s.busyFlag = false ↔ s.phase = .idle ∨ s.phase = .done ∨ s.phase = .fault := by
  rw [Bool.eq_false_iff, ne_eq, busyFlag_iff]
  tauto

theorem withSource_inv {s : State} (hi : Inv s) (x : Bits) : Inv { s with src := ⟨x, 0⟩ } :=
  { hi with srcPos := Nat.zero_le _ }

/-- Settles O42: the inputs are no part of the invariant, a new source stands at its start, and at rest the invariant asks nothing of the sink. -/
theorem hostKeepsInv : Obligations.HostKeepsInv := by
  intro s hi
  refine ⟨fun c => { hi with }, { hi with }, fun hrest => ?_, fun hbusy => ?_⟩
  · have hb := busyFlag_eq_false.mpr hrest
    exact ⟨fun x => ⟨_, supplySource_next.mpr ⟨hb, rfl⟩, rfl, withSource_inv hi x⟩,
      _, supplySink_next.mpr ⟨hb, rfl⟩, rfl, withSink_inv hi hb _⟩
  · have hb : s.busyFlag = true := by
      rw [← Bool.not_eq_false, busyFlag_eq_false]
      exact hbusy
    exact ⟨fun x => unlessBusy_refused.mpr ⟨hb, rfl⟩, unlessBusy_refused.mpr ⟨hb, rfl⟩⟩

end Sys2Proof.Machine
end

section
/-! SUPPORT. The statements about the values after reset, the flags the host reads, the commands and the item a step runs. -/

namespace Sys2Proof.Machine

/-! ## Reset and the flags (10_state R30 to R42) -/

/-- Settles O4: every value is one of the fields of `State.reset`. -/
theorem resetStateValues : Obligations.ResetStateValues :=
  ⟨rfl, rfl, rfl, rfl, CountTable.get_replicate, CodeTable.get_replicate, rfl, rfl, rfl, rfl, rfl,
    rfl, rfl⟩

/-- Bit 3 of the code tells the two kinds of fault apart (10_state R35). -/
theorem faultSub_bit3 (sub : FaultSub) :
    sub.code.getLsbD 3 = true ↔ sub.kind = .truncatedStream := by
  cases sub <;> decide

theorem faultCode_eq_two (k : FaultCode) : k.code = 2 ↔ k = .truncatedStream := by
  cases k <;> decide

/-- The kind that the registers hold is that of the cause, in `FAULT` and outside (10_state R35, R38). -/
theorem Inv.faultCode_eq_kind {s : State} (hi : Inv s) : s.faultCode = s.faultSub.kind := by
  by_cases hp : s.phase = .fault
  · obtain ⟨-, hcode, -⟩ := hi.oneFault hp
    exact hcode
  · obtain ⟨hcode, hsub, -⟩ := hi.noFault hp
    rw [hcode, hsub]
    rfl

/-- The codes of a cause of a fault: its kind is 1 or 2, and its phase 5, 12, 13 or 14 (10_state R34, R37). -/
theorem codes_of_cause {sub : FaultSub} (h : sub ≠ .none) :
    (sub.kind.code = 1 ∨ sub.kind.code = 2) ∧
      ((raisedIn sub).code = 5 ∨ (raisedIn sub).code = 12 ∨ (raisedIn sub).code = 13 ∨
        (raisedIn sub).code = 14) := by
  cases sub with
  | none => exact absurd rfl h
  | _ => decide

theorem hostView_busy (s : State) :
    s.hostView.busy = true ↔ ¬(s.phase = .idle ∨ s.phase = .done ∨ s.phase = .fault) := by
  rw [← busyFlag_eq_false, Bool.not_eq_false]
  rfl

theorem hostView_done (s : State) : s.hostView.done = true ↔ s.phase = .done := by
  simp [State.hostView, State.doneFlag]

theorem hostView_fault (s : State) : s.hostView.fault = true ↔ s.phase = .fault := by
  simp [State.hostView, State.faultFlag]

theorem origin_code (o : Origin) : (o.code = 1 ↔ o = .read) ∧ (o.code = 0 ↔ o = .built) := by
  cases o <;> decide

/-- Settles O60: each flag is read off its definition, and the fault registers off the two clauses of the invariant about them. -/
theorem statusIsAFunctionOfTheState : Obligations.StatusIsAFunctionOfTheState := by
  refine ⟨fun s => ?_, ⟨rfl, rfl, rfl, rfl, rfl, rfl⟩, fun s hi => ⟨?_, fun hf => ?_, fun hf => ?_⟩⟩
  · obtain ⟨hread, hbuilt⟩ := origin_code s.treeOrigin
    exact ⟨hostView_busy s, hostView_done s, hostView_fault s, rfl, hread, hbuilt, rfl, rfl,
      (hostView_done s).symm, faultSub_bit3 s.faultSub⟩
  · rw [show s.hostView.faultSub = s.faultSub.code from rfl, faultSub_bit3, ← hi.faultCode_eq_kind]
    exact (faultCode_eq_two s.faultCode).symm
  · have hp : s.phase ≠ .fault := fun hp => by
      rw [(hostView_fault s).mpr hp] at hf
      cases hf
    obtain ⟨hcode, hsub, hvalue, hphase⟩ := hi.noFault hp
    simp [State.hostView, hcode, hsub, hvalue, hphase, FaultCode.code, FaultSub.code, Phase.code]
  · obtain ⟨hsub, hcode, hphase⟩ := hi.oneFault ((hostView_fault s).mp hf)
    simp only [State.hostView, hcode, hphase]
    exact codes_of_cause hsub

/-! ## The commands (10_state R40) -/

/-- A fresh sink is empty and open (70_reset R236). -/
theorem sinkFresh_eq {s : State} : s.sinkFresh = true ↔ s.snk = ⟨[], false⟩ := by
  rw [sinkFresh_iff, Sink.mk.injEq]

theorem not_sinkFresh {s : State} (h : s.snk ≠ ⟨[], false⟩) : s.sinkFresh = false := by
  rw [← Bool.not_eq_true, sinkFresh_eq]
  exact h

/-- Settles O8: outside `IDLE` and `DONE` no command is accepted. -/
theorem commandsIgnoredWhileBusyOrFaulted : Obligations.CommandsIgnoredWhileBusyOrFaulted := by
  intro s c hidle hdone
  have ignored : ∀ u : State, u.phase = s.phase → exec (decodeCommand c.code) u = .next u :=
    fun u hu => exec_of_commandCase (.ignored c (by simp [State.accepting, hu, hidle, hdone]))
  refine ⟨ignored s rfl, fun hr hc => ?_⟩
  rw [step_command hr hc]
  exact ignored _ rfl

/-- Settles O9: the accepted commands are cases of `CommandCase`; `COMPRESS` looks at the sink. -/
theorem buildCommandsAccepted : Obligations.BuildCommandsAccepted := by
  intro s hp
  have ha := (accepting_iff s).mpr hp
  refine ⟨exec_of_commandCase .nop, exec_of_commandCase (.tbRun ha), fun hk => ?_, fun hk => ?_⟩
  · exact exec_of_commandCase (.compress ha (sinkFresh_eq.mpr hk))
  · simp [exec, execCompress, ha, not_sinkFresh hk]

/-- Settles O10: the accepted commands are cases of `CommandCase`; `DECOMPRESS` looks at the sink. -/
theorem readCommandsAccepted : Obligations.ReadCommandsAccepted := by
  intro s hp
  have ha := (accepting_iff s).mpr hp
  refine ⟨exec_of_commandCase (.hdRun ha), fun hk => ?_, fun hk => ?_⟩
  · exact exec_of_commandCase (.decompress ha (sinkFresh_eq.mpr hk))
  · simp [exec, execDecompress, ha, not_sinkFresh hk]

/-- Settles O11: the accepted commands are cases of `CommandCase`; the others fail at the tree or at the sink. -/
theorem treeCommandsAccepted : Obligations.TreeCommandsAccepted := by
  intro s hp
  have ha := (accepting_iff s).mpr hp
  refine ⟨fun ht => ⟨fun hk => ?_, fun hk => ?_, fun hk => ?_, fun hk => ?_⟩, fun ht => ?_⟩
  · exact exec_of_commandCase (.hsRun ha ht hk)
  · simp [exec, execHsRun, ha, ht, hk]
  · have hfresh := sinkFresh_eq.mpr hk
    exact ⟨exec_of_commandCase (.encRun ha ht hfresh), exec_of_commandCase (.decRun ha ht hfresh)⟩
  · simp [exec, execEncRun, execDecRun, ha, ht, not_sinkFresh hk]
  · simp [exec, execHsRun, execEncRun, execDecRun, ha, ht]

/-! ## The item a step runs (10_state R31, 30_encoding R98) -/

theorem readItem_of_decode {s : State} {ctx : Ctx} {i : Instr} {rest : Bits}
    (h : decode ctx s.unread = .ok (i, rest)) : readItem ctx s = some i := by
  simp [readItem, h]

/-- Each reading phase has its context (30_encoding R98). -/
def ReadsAt (p : Phase) (ctx : Ctx) : Prop :=
  (p = .decMagic ∧ ctx = .magic) ∨ (p = .hdWalk ∧ ctx = .header) ∨ (p = .decWalk ∧ ctx = .bodyBit)

theorem step_of_decode {s : State} (hq : Quiet s) {ctx : Ctx} {i : Instr} {rest : Bits}
    (hr : ReadsAt s.phase ctx) (h : decode ctx s.unread = .ok (i, rest)) : step s = exec i s := by
  apply step_item hq
  rcases hr with ⟨hp, rfl⟩ | ⟨hp, rfl⟩ | ⟨hp, rfl⟩ <;>
    simp only [nextItem, hp, readItem_of_decode h]

/-- Settles O6: `nextItem` gives in each phase the item that the statement names. -/
theorem stepRunsTheDecodedInstruction : Obligations.StepRunsTheDecodedInstruction := by
  refine ⟨fun s w i x hr hw hd => ?_, fun s hq => ⟨fun ctx i rest hr hd => ?_, fun hp => ?_,
    fun l r ts hp hst => ?_, fun y ts hp hst => ?_, fun v x p hp hx hc => ?_, fun p hp hc => ?_,
    fun hp hv ht => ?_, fun hp => ?_⟩⟩
  · have hw' := decode_command_append Config.magic w []
    rw [List.append_nil] at hw'
    cases hw'.symm.trans hd
    exact step_command hr hw
  · exact step_of_decode hq hr hd
  · exact step_item hq (by simp [nextItem, hp])
  · exact step_item hq (by simp [nextItem, hp, nextHeaderItem, hsPending, hst])
  · exact step_item hq (by simp [nextItem, hp, nextHeaderItem, hsPending, hst])
  · have hv := (srcPeek_word (by decide)).mpr ⟨x, hx⟩
    exact step_item hq (by simp [nextItem, hp, nextBodyCode, hv, hc])
  · exact step_item hq (by simp [nextItem, hp, hc])
  · have htree := readTree_eq_some.mpr ⟨hv, ht⟩
    exact step_item hq (by simp [nextItem, hp, emptyCode, htree])
  · rcases hp with hp | hp <;> exact step_item hq (by simp [nextItem, hp, padLen])

/-! ## The word of the opcode table (log 15) -/

/-- The contexts and the lengths of the table's words. -/
theorem tableItem_cases {nbits w : Nat} {ctx : Ctx} {x : Bits}
    (h : tableItem nbits w = some (ctx, x)) :
    (ctx = .command ∧ x.length = 3) ∨ (ctx = .header ∧ (x = [false] ∨ x.length = 10)) ∨
      (ctx = .magic ∧ x.length = 32) := by
  unfold tableItem at h
  split_ifs at h <;> cases h
  · exact .inl ⟨rfl, bitsOf_length 3 w⟩
  · rename_i h0
    subst h0
    exact .inr (.inl ⟨rfl, .inl rfl⟩)
  · exact .inr (.inl ⟨rfl, .inr (bitsOf_length 10 w)⟩)
  · exact .inr (.inr ⟨rfl, bitsOf_length 32 w⟩)

/-- A header item that is complete is the same whatever follows. -/
theorem decodeHeader_append {x : Bits} (h : x = [false] ∨ x.length = 10) (y : Bits) :
    (decodeHeader (x ++ y)).1 = (decodeHeader x).1 := by
  match x, h with
  | [], h => simp at h
  | false :: z, _ => rfl
  | true :: z, h =>
    have hz : z.length = 9 := by simpa using h
    simp [decodeHeader, hz, List.take_of_length_le hz.le]

theorem decodeMagic_append_fst (m : Word32) {x : Bits} (h : x.length = 32) (y : Bits) :
    (decodeMagic m (x ++ y)).1 = (decodeMagic m x).1 := by
  simp [decodeMagic, h, List.take_of_length_le h.le]

/-- Bits put before the read position are what is read next. -/
theorem placeBits_unread (x : Bits) (c : Source) :
    (placeBits x c).bits.drop (placeBits x c).pos = x ++ c.bits.drop (c.pos + x.length) := by
  have hlen : (c.bits.take c.pos).length = min c.pos c.bits.length := List.length_take
  rw [placeBits, List.append_assoc, ← hlen, List.drop_left]

/-- A header walk goes on or starts, with the bits placed (log 15). -/
theorem placeItem_header (x : Bits) (s : State) :
    Quiet (placeItem .header x s) ∧ (placeItem .header x s).phase = .hdWalk ∧
      (placeItem .header x s).src = placeBits x s.src ∧
      (placeItem .header x s).snk = s.snk ∧ (placeItem .header x s).trace = s.trace := by
  dsimp only [placeItem]
  split
  · rename_i hp
    exact ⟨⟨rfl, rfl⟩, hp, rfl, rfl, rfl⟩
  · exact ⟨⟨rfl, rfl⟩, rfl, rfl, rfl, rfl⟩

theorem placeItem_snk_trace (ctx : Ctx) (x : Bits) (s : State) :
    (placeItem ctx x s).snk = s.snk ∧ (placeItem ctx x s).trace = s.trace := by
  cases ctx with
  | header =>
    obtain ⟨-, -, -, hkept⟩ := placeItem_header x s
    exact hkept
  | _ => exact ⟨rfl, rfl⟩

/-- The next step of the prepared state runs the item that its bits decode to before whatever follows them. -/
theorem step_placeItem {s : State} {ctx : Ctx} {x : Bits} {i : Instr}
    (hctx : ctx = .magic ∨ ctx = .header) (hd : ∀ y, ∃ r, decode ctx (x ++ y) = .ok (i, r)) :
    step (placeItem ctx x s) = exec i { placeItem ctx x s with cmdPort := none } := by
  obtain ⟨r, hr⟩ := hd (s.src.bits.drop (s.src.pos + x.length))
  rw [← placeBits_unread] at hr
  rcases hctx with rfl | rfl
  · exact step_of_decode (s := placeItem .magic x s) ⟨rfl, rfl⟩ (.inl ⟨rfl, rfl⟩) hr
  · obtain ⟨hq, hp, hsrc, -⟩ := placeItem_header x s
    have hport : { placeItem .header x s with cmdPort := none } = placeItem .header x s := by
      rw [← hq.2]
    rw [hport]
    refine step_of_decode hq (.inr (.inl ⟨hp, rfl⟩)) (rest := r) ?_
    rw [State.unread, hsrc]
    exact hr

/-- Settles O7: the three contexts of a table word are the port, where the command is decoded from its three bits, and the two reading contexts of `step_placeItem`. -/
theorem fetchedWordRuns : Obligations.FetchedWordRuns := by
  intro s nbits w i h
  unfold decodeTableWord at h
  cases hx : tableItem nbits w with
  | none => rw [hx] at h; cases h
  | some q =>
    obtain ⟨ctx, x⟩ := q
    have hplace : s.withFetchWord nbits w = placeItem ctx x s := by rw [State.withFetchWord, hx]
    rw [hplace]
    refine ⟨?_, placeItem_snk_trace ctx x s⟩
    simp only [hx] at h
    obtain ⟨rfl, hlen⟩ | ⟨rfl, hlen⟩ | ⟨rfl, hlen⟩ := tableItem_cases hx
    · have hi : decodeCommand (BitVec.ofNat 3 (valOf x)) = i := by
        simpa [decode, decodeFor, hlen, List.take_of_length_le hlen.le] using h
      rw [← hi]
      exact step_command (s := placeItem .command x s) rfl rfl
    · refine step_placeItem (.inr rfl) fun y => ⟨(decodeHeader (x ++ y)).2, ?_⟩
      have hi : (decodeHeader x).1 = i := by simpa [decode, decodeFor] using h
      rw [← hi, ← decodeHeader_append hlen y]
      rfl
    · refine step_placeItem (.inl rfl) fun y => ⟨(decodeMagic Config.magic (x ++ y)).2, ?_⟩
      have hi : (decodeMagic Config.magic x).1 = i := by simpa [decode, decodeFor] using h
      rw [← hi, ← decodeMagic_append_fst _ hlen y]
      rfl

end Sys2Proof.Machine
end

section
/-! SUPPORT. The statements about the two streams (20_memory): what each transaction does, how bytes and stream bits correspond, and what a step does to the source, to the sink and to the trace. -/

namespace Sys2Proof

/-! ## Bytes and stream bits (20_memory R60) -/

/-- Stream bit `8 j + i` is bit `7 - i` of byte `j` (20_memory R60). -/
theorem bitsOfBytes_getElem? {B : List (BitVec 8)} {j i : Nat} {b : BitVec 8}
    (hb : B[j]? = some b) (hi : i < 8) :
    (bitsOfBytes B)[8 * j + i]? = some (b.getLsbD (7 - i)) := by
  induction B generalizing j with
  | nil => simp at hb
  | cons a B ih =>
    cases j with
    | zero =>
      obtain rfl : a = b := by simpa using hb
      have hleft : 8 * 0 + i < (bitsOf 8 a.toNat).length := by simpa using hi
      rw [bitsOfBytes_cons, List.getElem?_append_left hleft, Nat.mul_zero, Nat.zero_add,
        bitsOf_getElem? hi]
      rfl
    | succ j =>
      have hright : (bitsOf 8 a.toNat).length ≤ 8 * (j + 1) + i := by rw [bitsOf_length]; omega
      have hidx : 8 * (j + 1) + i - 8 = 8 * j + i := by omega
      rw [bitsOfBytes_cons, List.getElem?_append_right hright, bitsOf_length, hidx]
      exact ih (by simpa using hb)

/-- The bits of the byte that eight bits make are those bits (20_memory R60). -/
theorem bitsOf_byte {x : Bits} (hx : x.length = 8) :
    bitsOf 8 (BitVec.ofNat 8 (valOf x)).toNat = x := by
  have hlt : valOf x < 2 ^ 8 := hx ▸ valOf_lt x
  have hbits := bitsOf_valOf x
  rw [hx] at hbits
  rw [BitVec.toNat_ofNat, Nat.mod_eq_of_lt hlt, hbits]

/-- Cutting a whole number of bytes of bits into bytes loses none of them (20_memory R60, R63). -/
theorem bitsOfBytes_bytesOfBits {k : Nat} {x : Bits} (hx : x.length = 8 * k) :
    bitsOfBytes (bytesOfBits x) = x := by
  induction k generalizing x with
  | zero =>
    obtain rfl : x = [] := by simpa using hx
    rfl
  | succ k ih =>
    have htake : (x.take 8).length = 8 := by rw [List.length_take]; omega
    have hdrop : (x.drop 8).length = 8 * k := by rw [List.length_drop]; omega
    calc bitsOfBytes (bytesOfBits x)
        = bitsOfBytes (bytesOfBits (x.take 8 ++ x.drop 8)) := by rw [List.take_append_drop]
      _ = x.take 8 ++ x.drop 8 := by
        rw [bytesOfBits_append htake, bitsOfBytes_cons, bitsOf_byte htake, ih hdrop]
      _ = x := List.take_append_drop 8 x

/-- Settles O15: the bits of a byte stand in the order of `bits_8`, and eight bits are one byte. -/
theorem streamBitsOfBytes : Obligations.StreamBitsOfBytes :=
  ⟨fun _ _ _ _ hb hi => bitsOfBytes_getElem? hb hi, bytesOfBits_bitsOfBytes,
    fun _ hx => bitsOfBytes_bytesOfBits (Nat.mul_div_cancel' (Nat.dvd_of_mod_eq_zero hx)).symm⟩

end Sys2Proof

namespace Sys2Proof.Machine

/-! ## The four transactions (20_memory R51 to R54) -/

theorem srcRead_of_le {n : Nat} {s : State} (h : s.src.pos + n ≤ s.src.bits.length) :
    srcRead n s = (some (valOf (s.unread.take n)),
      { s with
        src := ⟨s.src.bits, s.src.pos + n⟩
        trace := s.trace ++ [.srcRead n (some (valOf (s.unread.take n)))] }) := by
  simp only [srcRead_eq, srcAfter, srcPeek, if_pos h]

theorem srcRead_of_lt {n : Nat} {s : State} (h : s.src.bits.length < s.src.pos + n) :
    srcRead n s = (none, { s with trace := s.trace ++ [.srcRead n none] }) := by
  simp only [srcRead_eq, srcAfter, srcPeek, if_neg (Nat.not_le.mpr h)]

/-- Settles O12: either `n` bits remain or fewer, and `n` bits or fewer are a number below `2^n`. -/
theorem srcReadReturnsTheNextBits : Obligations.SrcReadReturnsTheNextBits := by
  intro n s
  refine ⟨?_, srcRead_of_le, srcRead_of_lt⟩
  calc valOf (s.unread.take n) < 2 ^ (s.unread.take n).length := valOf_lt _
    _ ≤ 2 ^ n := Nat.pow_le_pow_right (by decide) (List.length_take_le n _)

/-- On an open sink an append is the update of `SNK.bits` and of the trace. -/
theorem snkAppend_open {s : State} (x : Bits) (t : Transaction) (h : s.snk.closed = false) :
    snkAppend x t s = { s with snk := ⟨s.snk.bits ++ x, false⟩, trace := s.trace ++ [t] } := by
  simp only [snkAppend, h]

/-- Settles O13: `bits_n` has bit `n - 1` first, and a path is `bits_n` of the number whose digits it is. -/
theorem snkWriteAppendsHighBitFirst : Obligations.SnkWriteAppendsHighBitFirst := by
  refine ⟨fun n v s h => ?_, fun p s h => ⟨?_, ?_⟩⟩
  · rw [snkWrite_open n v h, snkAppend_open _ _ h, bitsOf_eq_map_range]
  · rw [snkWritePath_open p h, snkAppend_open _ _ h]
  · rw [← bitsOf_eq_map_range, bitsOf_valOf]

/-- Settles O14: the padding is that of `padLen`. -/
theorem rewindAndClose : Obligations.RewindAndClose :=
  fun s => ⟨rfl, fun h => ⟨padLen s.snk.bits.length, Nat.le_of_lt_succ (padLen_lt _),
    add_padLen_mod _, snkClose_open h⟩⟩

/-! ## A step and the two streams (20_memory R50, R55) -/

theorem le_srcAfter_pos (n : Nat) (s : State) : s.src.pos ≤ (srcAfter n s).src.pos := by
  rw [srcAfter_src]
  dsimp only
  split
  · exact Nat.le_add_right _ _
  · exact Nat.le_refl _

/-- Two reads in turn go forward (42 R135: the tag, then the field). -/
theorem le_srcAfter_srcAfter_pos (n m : Nat) (s : State) :
    s.src.pos ≤ (srcAfter m (srcAfter n s)).src.pos :=
  (le_srcAfter_pos n s).trans (le_srcAfter_pos m _)

/-- A command touches neither stream and makes no transaction (10_state R40). -/
theorem CommandCase.streams {s t : State} {c : Command} (h : CommandCase s c t) :
    t.src = s.src ∧ t.snk = s.snk ∧ t.trace = s.trace := by
  cases h <;> exact ⟨rfl, rfl, rfl⟩

/-- No rule writes the bits of the source, and only the rewind sends its position back (20_memory R50, R53). -/
theorem StepCase.source {s t : State} (h : StepCase s t) :
    t.src.bits = s.src.bits ∧ (s.phase ≠ .encRewind → s.src.pos ≤ t.src.pos) := by
  cases h with
  | countByte | countEnd | bodyEnd | magicRead | magicBad | magicEod | hdEodTag | hdCapacity
  | hdNode | bitNode | bitEof | bitByte | bitEod => exact ⟨rfl, fun _ => le_srcAfter_pos _ s⟩
  | bodyCode v p => rw [emitted_eq]; exact ⟨rfl, fun _ => le_srcAfter_pos 8 s⟩
  | hdEodSym | hdRange | hdLeaf | hdLast =>
    exact ⟨rfl, fun _ => le_srcAfter_srcAfter_pos 1 9 s⟩
  | rewind hp => exact ⟨rfl, fun hne => absurd hp hne⟩
  | eofCode p => rw [emitted_eq]; exact ⟨rfl, fun _ => Nat.le_refl _⟩
  | encTable => rw [encVisits_eq_tableOf]; exact ⟨rfl, fun _ => Nat.le_refl _⟩
  | _ => exact ⟨rfl, fun _ => Nat.le_refl _⟩

/-- `k` is what the sink `j` can become: all of `j` stands at its beginning, and a closed sink is final (20_memory R55). -/
def Sink.GrowsTo (j k : Sink) : Prop := j.bits <+: k.bits ∧ (j.closed = true → k = j)

@[simp] theorem Sink.GrowsTo.refl (k : Sink) : k.GrowsTo k := ⟨List.prefix_refl _, fun _ => rfl⟩

/-- What is appended to an open sink is a suffix of the sink after. -/
theorem Sink.GrowsTo.of_open {k : Sink} (ho : k.closed = false) (x : Bits) (c : Bool) :
    k.GrowsTo ⟨k.bits ++ x, c⟩ :=
  ⟨List.prefix_append _ _, fun hc => absurd (ho.symm.trans hc) Bool.false_ne_true⟩

/-- The tag and the symbol of a leaf item (41 R123). -/
theorem Sink.GrowsTo.of_open_twice {k : Sink} (ho : k.closed = false) (x y : Bits) :
    k.GrowsTo ⟨k.bits ++ x ++ y, k.closed⟩ := by
  rw [List.append_assoc]
  exact .of_open ho _ _

/-- A code of no bits leaves a closed sink as it is (43 R156). -/
theorem emitted_growsTo {p : Bits} {s : State} (ho : p ≠ [] → s.snk.closed = false) :
    s.snk.GrowsTo (emitted p s).snk := by
  cases p with
  | nil => exact .refl _
  | cons b q => exact .of_open (ho (List.cons_ne_nil b q)) _ _

/-- Every rule that writes has an open sink, and it appends. -/
theorem StepCase.sink {s t : State} (h : StepCase s t) : s.snk.GrowsTo t.snk := by
  cases h with
  | magicWrite _ ho | hsNode _ _ _ _ _ ho | close _ ho | bitByte _ _ _ _ _ _ _ _ _ _ _ ho =>
    exact .of_open ho _ _
  | hsLeaf _ _ _ _ _ ho | hsLast _ _ _ _ ho => exact .of_open_twice ho _ _
  | bodyCode v p _ _ _ ho => exact emitted_growsTo (s := srcAfter 8 s) ho
  | eofCode p _ _ ho => exact emitted_growsTo ho
  | encTable => rw [encVisits_eq_tableOf]; simp
  | _ => simp

/-- Settles O32: a reset and a command leave both streams, and the rules are `StepCase.source` and `StepCase.sink`. -/
theorem streamsOnlyMoveOn : Obligations.StreamsOnlyMoveOn := by
  intro s t h
  obtain ⟨-, rfl⟩ | ⟨-, c, -, hc⟩ | ⟨-, hcase⟩ := step_next_cases h
  · exact ⟨rfl, fun _ => Nat.le_refl _, Sink.GrowsTo.refl s.snk⟩
  · obtain ⟨hsrc, hsnk, -⟩ := hc.streams
    rw [hsrc, hsnk]
    exact ⟨rfl, fun _ => Nat.le_refl _, Sink.GrowsTo.refl s.snk⟩
  · obtain ⟨hbits, hpos⟩ := hcase.source
    exact ⟨hbits, hpos, hcase.sink⟩

/-! ## A step and its transactions (20_memory R64, R71) -/

/-- The leaf that the header writer has on top is within the alphabet (41 R123). -/
theorem Inv.pending_leaf_le {s : State} (hi : Inv s) {y : Sym} {rest : List Tree}
    (h : hsPending s = some (.leaf y :: rest)) : y.toNat ≤ 256 :=
  (hi.pending_legal h).1 y (by simp [Tree.leaves])

/-- Every rule adds to the trace what the table of 20_memory R64 gives the phase it stands in. -/
theorem StepCase.transactions {s t : State} (h : StepCase s t) (hi : Inv s) :
    ∃ ts, t.trace = s.trace ++ ts ∧ Issues s.phase ts := by
  cases h with
  | wait hp => exact ⟨[], by simp, by rcases hp with hp | hp | hp <;> simp [hp, Issues]⟩
  | countByte _ hp | countEnd hp => exact ⟨_, rfl, by rw [hp]; exact ⟨_, rfl⟩⟩
  | init hp | merge _ hp | built _ _ hp | startNode _ _ hp | startEof hp | startByte _ hp =>
    exact ⟨[], (List.append_nil _).symm, by rw [hp]; rfl⟩
  | encTable u hp =>
    rw [encVisits_eq_tableOf]
    exact ⟨[], (List.append_nil _).symm, by rw [hp]; rfl⟩
  | magicWrite hp | rewind hp => exact ⟨_, rfl, by rw [hp]; rfl⟩
  | hsNode _ _ _ hp => exact ⟨_, rfl, by rw [hp]; exact .inl rfl⟩
  | hsLeaf y _ _ hp ht | hsLast y _ hp ht =>
    exact ⟨[.snkWrite 1 1, .snkWrite 9 y.toNat], by simp,
      by rw [hp]; exact .inr ⟨y.toNat, hi.pending_leaf_le ht, rfl⟩⟩
  | bodyCode v p hp hv hc =>
    have hlen := hi.codeLength v p hc
    rw [hp]
    cases p with
    | nil => exact ⟨_, rfl, .inl ⟨_, rfl⟩⟩
    | cons b q =>
      exact ⟨[.srcRead 8 (some v), .snkWritePath (b :: q)], by simp [emitted, hv],
        .inr ⟨v, b :: q, by simp, hlen, rfl⟩⟩
  | bodyEnd hp => exact ⟨_, rfl, by rw [hp]; exact .inl ⟨_, rfl⟩⟩
  | eofCode p hp hc =>
    have hlen := hi.codeLength 256 p hc
    rw [hp]
    cases p with
    | nil => exact ⟨[], (List.append_nil _).symm, .inl rfl⟩
    | cons b q => exact ⟨_, rfl, .inr ⟨b :: q, by simp, hlen, rfl⟩⟩
  | close hp => exact ⟨[.snkClose], rfl, by rcases hp with hp | hp <;> rw [hp] <;> rfl⟩
  | magicRead hp | magicBad _ hp | magicEod hp => exact ⟨_, rfl, by rw [hp]; exact ⟨_, rfl⟩⟩
  | hdEodTag hp | hdCapacity hp | hdNode hp | bitNode _ _ _ _ _ hp | bitEof _ _ _ hp
  | bitEod _ _ hp => exact ⟨_, rfl, by rw [hp]; exact .inl ⟨_, rfl⟩⟩
  | hdEodSym hp _ hv | hdRange _ hp _ hv | hdLeaf _ _ hp _ hv | hdLast _ _ _ hp _ hv =>
    exact ⟨[.srcRead 1 (some 1), .srcRead 9 (srcPeek 9 (srcAfter 1 s))], by simp [hv],
      by rw [hp]; exact .inr ⟨_, rfl⟩⟩
  | bitByte b _ _ y _ hp _ hv _ hy =>
    exact ⟨[.srcRead 1 (some b.toNat), .snkWrite 8 y.toNat], by simp [hv],
      by rw [hp]; exact .inr ⟨_, _, hy, rfl⟩⟩

/-- Settles O37: a reset and a command are no quiet step and leave the trace, and the rules are `StepCase.transactions`. -/
theorem transactionsAreThoseOfTheTable : Obligations.TransactionsAreThoseOfTheTable := by
  intro s t hi h
  obtain ⟨hr, rfl⟩ | ⟨-, c, hport, hc⟩ | ⟨hq, hcase⟩ := step_next_cases h
  · have hnot : ¬ Quiet s := fun hq => Bool.false_ne_true (hq.1.symm.trans hr)
    exact ⟨[], (List.append_nil _).symm, fun hq => absurd hq hnot, fun _ => rfl⟩
  · have hnot : ¬ Quiet s := fun hq => Option.some_ne_none c.code (hport.symm.trans hq.2)
    obtain ⟨-, -, htrace⟩ := hc.streams
    exact ⟨[], htrace.trans (List.append_nil _).symm, fun hq => absurd hq hnot, fun _ => rfl⟩
  · obtain ⟨ts, htrace, hissues⟩ := hcase.transactions hi
    exact ⟨ts, htrace, fun _ => hissues, fun hnot => absurd hq hnot⟩

end Sys2Proof.Machine
end

section
/-! SUPPORT. The statements about the encoding (30_encoding): the round trip, what a reader has consumed, the words of the opcode table and the length of a header. -/

namespace Sys2Proof

/-! ## From an item to its bits and back (30_encoding R81 to R98) -/

/-- Settles O1: one lemma of the family `RoundTrip` per row of the opcode table. -/
theorem decodeEncodeRoundTrip : Obligations.DecodeEncodeRoundTrip := by
  intro i
  cases i with
  | nop => exact Laws.RoundTrip.nop
  | compress => exact Laws.RoundTrip.compress
  | decompress => exact Laws.RoundTrip.decompress
  | tbRun => exact Laws.RoundTrip.tbRun
  | hsRun => exact Laws.RoundTrip.hsRun
  | hdRun => exact Laws.RoundTrip.hdRun
  | encRun => exact Laws.RoundTrip.encRun
  | decRun => exact Laws.RoundTrip.decRun
  | magic => exact Laws.RoundTrip.magic
  | magicBad m => exact Laws.RoundTrip.magicBad m
  | n => exact Laws.RoundTrip.n
  | l y => exact Laws.RoundTrip.l y
  | lReserved y => exact Laws.RoundTrip.lReserved y
  | c p => exact Laws.RoundTrip.c p
  | pad k => exact Laws.RoundTrip.pad k
  | eodAtMagic => exact Laws.RoundTrip.eodAtMagic
  | eodAtHdrTag => exact Laws.RoundTrip.eodAtHdrTag
  | eodAtHdrSym => exact Laws.RoundTrip.eodAtHdrSym
  | eodAtBody => exact Laws.RoundTrip.eodAtBody

/-! ## From bits to an item (30_encoding R82 to R87) -/

/-- The item and the rest that `q` names account for all the bits `x` read in the context `ctx`. -/
def ReadExactly (ctx : Ctx) (x : Bits) (q : Instr × Bits) : Prop :=
  x = encode q.1 ++ q.2 ∧ q.1.wf = true ∧ q.1.standsIn ctx q.2

/-- A sequence of `n` bits or more starts with the bits of a word. -/
theorem exists_word_append {n : Nat} {x : Bits} (h : n ≤ x.length) :
    ∃ (w : BitVec n) (y : Bits), x = bitsOf n w.toNat ++ y := by
  refine ⟨BitVec.ofNat n (valOf (x.take n)), x.drop n, ?_⟩
  have hbits : bitsOf n (BitVec.ofNat n (valOf (x.take n))).toNat = bitsOf n (valOf (x.take n)) :=
    bitsOf_congr (by rw [BitVec.toNat_ofNat, Nat.mod_mod])
  rw [hbits]
  exact eq_bitsOf_take_append h

theorem readExactly_command (c : Command) (y : Bits) :
    ReadExactly .command (bitsOf 3 c.code.toNat ++ y) (decodeCommand c.code, y) := by
  cases c <;> exact ⟨rfl, rfl, rfl⟩

/-- What the command port decodes; fewer than three bits are no command (30_encoding R90). -/
theorem readExactly_of_decode_command {x : Bits} {q : Instr × Bits}
    (h : decode .command x = .ok q) : ReadExactly .command x q := by
  obtain hlen | hlen := Nat.lt_or_ge x.length 3
  · rw [decode, decodeFor, if_pos hlen] at h
    cases h
  · obtain ⟨w, y, rfl⟩ := exists_word_append hlen
    rw [decode, decode_command_append] at h
    cases h
    obtain ⟨c, rfl⟩ := Machine.exists_command w
    exact readExactly_command c y

/-- The first word: cut short, equal to `MAGIC`, or different (30_encoding R81, R95). -/
theorem readExactly_magic (x : Bits) : ReadExactly .magic x (decodeMagic Config.magic x) := by
  obtain hlen | hlen := Nat.lt_or_ge x.length 32
  · rw [decodeMagic_short _ hlen]
    exact ⟨rfl, rfl, rfl, hlen⟩
  · obtain ⟨w, y, rfl⟩ := exists_word_append hlen
    rw [decodeMagic_append]
    split
    · next hw => exact ⟨by rw [hw]; rfl, rfl, rfl⟩
    · next hw => exact ⟨rfl, by simpa [Instr.wf, Instr.wfFor] using hw, rfl⟩

/-- A header item: the tag missing, a node, a field cut short, or a field of nine bits (30_encoding R82, R83, R94). -/
theorem readExactly_header (x : Bits) : ReadExactly .header x (decodeHeader x) := by
  match x with
  | [] => exact ⟨rfl, rfl, rfl, rfl⟩
  | false :: x => exact ⟨rfl, rfl, rfl⟩
  | true :: x =>
    obtain hlen | hlen := Nat.lt_or_ge x.length 9
    · rw [decodeHeader_short hlen]
      exact ⟨rfl, rfl, rfl, hlen⟩
    · obtain ⟨y, z, rfl⟩ := exists_word_append hlen
      rw [decodeHeader_leaf]
      split
      · next hy => exact ⟨rfl, decide_eq_true hy, rfl⟩
      · next hy => exact ⟨rfl, decide_eq_true (Nat.lt_of_not_le hy), rfl⟩

/-- One body bit, or none left (44_decoder R175). -/
theorem readExactly_bodyBit (x : Bits) : ReadExactly .bodyBit x (decodeBodyBit x) := by
  cases x with
  | nil => exact ⟨rfl, rfl, .inl rfl, rfl⟩
  | cons b x => exact ⟨rfl, rfl, .inl ⟨rfl, rfl⟩⟩

/-- In the four reading contexts what is decoded accounts for all the bits (30_encoding R98). -/
theorem readExactly_of_decode {ctx : Ctx} {x : Bits} {q : Instr × Bits}
    (hctx : ctx = .command ∨ ctx = .magic ∨ ctx = .header ∨ ctx = .bodyBit)
    (h : decode ctx x = .ok q) : ReadExactly ctx x q := by
  obtain rfl | rfl | rfl | rfl := hctx
  · exact readExactly_of_decode_command h
  · cases h; exact readExactly_magic x
  · cases h; exact readExactly_header x
  · cases h; exact readExactly_bodyBit x

/-- A whole body code is read exactly where the walk from the root ends at a leaf (30_encoding R87). -/
theorem decode_code_eq_ok {t : Tree} {x p rest : Bits} :
    decode (.code t) x = .ok (.c p, rest) ↔ walkCode t x = some (p, rest) := by
  cases h : walkCode t x <;> simp [decode, decodeFor, h, Prod.ext_iff]

/-- Settles O2: `ReadExactly` in each of the four reading contexts, and a code is the path the walk takes. -/
theorem decodeConsumesTheItem : Obligations.DecodeConsumesTheItem := by
  refine ⟨fun _ _ _ _ hctx h => readExactly_of_decode hctx h, fun t x p rest => ?_⟩
  rw [decode_code_eq_ok]
  exact ⟨walkCode_some, fun ⟨hx, y, hy⟩ => hx ▸ walkCode_append hy rest⟩

/-! ## The words of the opcode table (log 15) -/

/-- A word whose bits are those of an instruction decodes to it, by the round trip. -/
theorem decodeTableWord_of_encode {nbits w : Nat} {ctx : Ctx} {i : Instr}
    (hbits : tableItem nbits w = some (ctx, encode i)) (hwf : i.wf = true)
    (hstands : i.standsIn ctx []) : decodeTableWord nbits w = some i := by
  have hdecode := decodeEncodeRoundTrip i ctx [] hwf hstands
  rw [List.append_nil] at hdecode
  simp only [decodeTableWord, hbits, hdecode]

theorem tableItem_word (m : Word32) : tableItem 32 m.toNat = some (.magic, bitsOf 32 m.toNat) :=
  if_pos m.isLt

/-- Settles O3: each word has the bits of its instruction, the thirteen fixed ones by evaluation. -/
theorem tableWordsDecode : Obligations.TableWordsDecode := by
  unfold Obligations.TableWordsDecode
  iterate 13 refine ⟨decodeTableWord_of_encode rfl rfl rfl, ?_⟩
  intro m
  split
  · next hm => exact decodeTableWord_of_encode (hm ▸ tableItem_word m) rfl rfl
  · next hm =>
    have hwf : (Instr.magicBad m).wf = true := decide_eq_true hm
    exact decodeTableWord_of_encode (tableItem_word m) hwf rfl

/-! ## The length of a header (30_encoding R88) -/

/-- One bit for each internal node and ten for each leaf. -/
theorem Tree.ser_length_add_one (t : Tree) : t.ser.length + 1 = 11 * t.nleaves := by
  induction t with
  | leaf y => simp [Tree.nleaves]
  | node l r ihl ihr =>
    simp only [Tree.ser_node, List.length_cons, List.length_append, Tree.nleaves]
    omega

/-- A code has fewer edges than its tree has leaves (00_scope R9). -/
theorem Tree.code_length_lt {t : Tree} {y : Sym} {p : Bits} (h : (y, p) ∈ t.codes) :
    p.length < t.nleaves := by
  have hpath := Tree.length_add_nleaves_le (Tree.mem_codes.mp h)
  rwa [Tree.nleaves] at hpath

/-- Settles O45: length and nodes are counted by leaves, of which a legal tree has at most 257. -/
theorem headerLengthAndBounds : Obligations.HeaderLengthAndBounds := by
  intro t
  have hlen := t.ser_length_add_one
  have hnodes := t.nodes_add_one
  refine ⟨by omega, fun ⟨_, hleaves⟩ => ?_⟩
  simp only [NSYM] at hleaves
  refine ⟨by omega, by omega, fun y p hp => ?_⟩
  have hcode := Tree.code_length_lt hp
  omega

end Sys2Proof

namespace Sys2Proof.Machine

/-! ## A whole body code in `DEC_WALK` (44_decoder R175) -/

theorem sub_node_cons_childOf (l r : Tree) (b : Bool) (p : Bits) :
    (Tree.node l r).sub (b :: p) = (childOf b l r).sub p := Tree.sub_node_cons l r b p

/-- The state after the bits `p` have been read one at a time. -/
def bitsRead (p : Bits) (s : State) : State :=
  { s with
    src := ⟨s.src.bits, s.src.pos + p.length⟩
    trace := s.trace ++ p.map fun b => .srcRead 1 (some b.toNat) }

theorem srcAfter_one_eq_bitsRead {s : State} {b : Bool} {x : Bits} (h : s.unread = b :: x) :
    srcAfter 1 s = bitsRead [b] s := srcAfter_bit h

theorem bitsRead_setCur_bitsRead (b : Bool) (p : Bits) (u v : Tree) (s : State) :
    bitsRead p (setCur v (setCur u (bitsRead [b] s))) = bitsRead (b :: p) (setCur v s) := by
  simp [bitsRead, setCur, Nat.add_assoc, Nat.add_comm 1]

theorem setCur_of_cur {s : State} {u : Tree} (h : s.cur = some u) : setCur u s = s := by
  rw [setCur, ← h]

/-- In `DEC_WALK` a code is its bits in turn (log 17). -/
theorem exec_code {s : State} {p : Bits} (hp : s.phase = .decWalk) (hne : p ≠ []) :
    exec (.c p) s = decWalkBits p s := by
  cases p with
  | nil => exact absurd rfl hne
  | cons b p => simp [exec, execC, hp]

theorem andThen_decWalkBits_nil (o : Out) : andThen o (decWalkBits []) = o := by
  cases o <;> rfl

theorem decWalkBits_cons {s : State} {b : Bool} {l r : Tree} {p x : Bits}
    (hp : s.phase = .decWalk) (hc : s.cur = some (.node l r)) (hx : s.unread = b :: x) :
    decWalkBits (b :: p) s =
      andThen (decArrive (childOf b l r) (bitsRead [b] s)) (decWalkBits p) := by
  have hv := srcPeek_one.mpr ⟨x, hx⟩
  simp only [decWalkBits, hp, decWalkBit_eq hc hv, srcAfter_one_eq_bitsRead hx]

/-- Along the path to a leaf every bit but the last moves to an internal node, and the last arrives at the leaf. -/
theorem decWalkBits_to_leaf {s : State} {u : Tree} {p x : Bits} {y : Sym}
    (hp : s.phase = .decWalk) (hc : s.cur = some u) (hne : p ≠ [])
    (hsub : u.sub p = some (.leaf y)) (hx : s.unread = p ++ x) :
    ∃ v, decWalkBits p s = decArrive (.leaf y) (bitsRead p (setCur v s)) := by
  induction p generalizing s u with
  | nil => exact absurd rfl hne
  | cons b p ih =>
    cases u with
    | leaf z => simp at hsub
    | node l r =>
      rw [decWalkBits_cons hp hc hx]
      rw [sub_node_cons_childOf] at hsub
      cases p with
      | nil =>
        rw [Tree.sub_nil, Option.some.injEq] at hsub
        exact ⟨.node l r, by rw [hsub, andThen_decWalkBits_nil, setCur_of_cur hc]⟩
      | cons b' p =>
        cases hchild : childOf b l r with
        | leaf z => simp [hchild] at hsub
        | node l' r' =>
          rw [hchild] at hsub
          have hnext : (setCur (.node l' r') (bitsRead [b] s)).unread = b' :: p ++ x :=
            drop_of_unread (x := [b]) hx rfl
          obtain ⟨v, hv⟩ := ih (s := setCur (.node l' r') (bitsRead [b] s)) hp rfl
            (List.cons_ne_nil b' p) hsub hnext
          exact ⟨v, by rw [decArrive_node, andThen_next, hv, bitsRead_setCur_bitsRead]⟩

/-- Settles O23: the walk arrives at the leaf of the code, and what happens there is `decArrive_byte` or `decArrive_eof`. -/
theorem wholeCodeRead : Obligations.WholeCodeRead := by
  intro s t p x y hp htv htree hcur hne hsub hx hopen
  obtain ⟨v, hwalk⟩ := decWalkBits_to_leaf hp hcur hne hsub hx
  rw [exec_code hp hne, hwalk]
  refine ⟨fun hy => ?_, ?_⟩
  · have hread : readTree (bitsRead p (setCur v s)) = some t := readTree_eq_some.mpr ⟨htv, htree⟩
    rw [decArrive_byte hy hread hopen]
    simp [setCur, snkAppend, bitsRead, hcur, hopen]
  · rintro rfl
    exact ⟨v, decArrive_eof _⟩

end Sys2Proof.Machine
end

section
/-! SUPPORT. huffman_tree_builder: the sums of the counts, the queue of the leaves in any order, and what every sequence of admissible merges keeps (40_tree_builder R105 to R107, R111). -/

namespace Sys2Proof.Machine

/-! ## Sums of counts (40_tree_builder R105) -/

/-- The sum of all counts (40 R105, R111 (c)). -/
def countTotal (tbl : CountTable) : Nat := ((List.range 257).map tbl.get).sum

theorem sum_map_filter_pos {α : Type} (f : α → Nat) (l : List α) :
    ((l.filter fun a => decide (0 < f a)).map f).sum = (l.map f).sum := by
  induction l with
  | nil => rfl
  | cons a l ih =>
    by_cases ha : 0 < f a
    · simp [ha, ih]
    · have hzero : f a = 0 := by omega
      simp [hzero, ih]

/-- The symbols left out of the build are those that add nothing to the sum (40 R106). -/
theorem sum_qualifying (tbl : CountTable) :
    ((qualifying tbl).map tbl.get).sum = countTotal tbl :=
  sum_map_filter_pos tbl.get (List.range NSYM)

/-- Distinct symbols of the alphabet count together at most what all of it counts. -/
theorem sum_symbols_le {l : List Sym} (tbl : CountTable) (hn : l.Nodup)
    (hl : ∀ y ∈ l, y.toNat ≤ 256) :
    (l.map fun y => tbl.get y.toNat).sum ≤ countTotal tbl := by
  have hnodup : (l.map BitVec.toNat).Nodup := hn.map fun _ _ => BitVec.eq_of_toNat_eq
  have hsub : l.map BitVec.toNat ⊆ List.range 257 := by
    intro v hv
    obtain ⟨y, hy, rfl⟩ := List.mem_map.mp hv
    exact List.mem_range.mpr (Nat.lt_succ_of_le (hl y hy))
  obtain ⟨l', hperm, hsublist⟩ := List.subperm_of_subset hnodup hsub
  calc (l.map fun y => tbl.get y.toNat).sum
      = ((l.map BitVec.toNat).map tbl.get).sum := by rw [List.map_map]; rfl
    _ = (l'.map tbl.get).sum := ((hperm.map tbl.get).sum_eq).symm
    _ ≤ countTotal tbl := (hsublist.map tbl.get).sum_le_sum fun _ _ => Nat.zero_le _

theorem countsOf_get_256 (B : List (BitVec 8)) : (countsOf B).get 256 = 1 :=
  countsOf_get B (by decide)

/-- A byte value is counted as often as it occurs (40 R105). -/
theorem countsOf_get_eq_count (B : List (BitVec 8)) {v : Nat} (hv : v < 256) :
    (countsOf B).get v = (B.map BitVec.toNat).count v := by
  rw [countsOf_get B (by omega), if_neg (by omega), List.count, List.countP_map]
  rfl

/-- No byte is counted more often than there are bytes (40 R104). -/
theorem countsOf_get_le (B : List (BitVec 8)) {v : Nat} (hv : v ≠ 256) :
    (countsOf B).get v ≤ B.length := by
  by_cases hlt : v < 257
  · rw [countsOf_get B hlt, if_neg hv]
    exact List.countP_le_length
  · have hout : (countsOf B).get v = 0 := by simp [CountTable.get, hlt]
    omega

/-- Every byte is counted once, and the sentinel (40 R105). -/
theorem countTotal_countsOf (B : List (BitVec 8)) : countTotal (countsOf B) = B.length + 1 := by
  have hrange : ∀ a ∈ (↑(B.map BitVec.toNat) : Multiset Nat), a ∈ Finset.range 256 := by
    intro a ha
    obtain ⟨b, -, rfl⟩ := List.mem_map.mp (Multiset.mem_coe.mp ha)
    exact Finset.mem_range.mpr b.isLt
  have hbytes : ∑ v ∈ Finset.range 256, (countsOf B).get v = B.length := by
    calc ∑ v ∈ Finset.range 256, (countsOf B).get v
        = ∑ v ∈ Finset.range 256, Multiset.count v ↑(B.map BitVec.toNat) :=
          Finset.sum_congr rfl fun v hv => by
            rw [countsOf_get_eq_count B (Finset.mem_range.mp hv), Multiset.coe_count]
      _ = B.length := by
        rw [Multiset.sum_count_eq_card hrange, Multiset.coe_card, List.length_map]
  calc countTotal (countsOf B) = ∑ v ∈ Finset.range (256 + 1), (countsOf B).get v := rfl
    _ = B.length + 1 := by rw [Finset.sum_range_succ, hbytes, countsOf_get_256]

/-! ## The leaves in any order (40_tree_builder R106) -/

section
variable {tbl : CountTable} {order : List Nat}

theorem mem_order (ho : order.Perm (qualifying tbl)) {v : Nat} :
    v ∈ order ↔ v ≤ 256 ∧ 0 < tbl.get v := by
  rw [ho.mem_iff, mem_qualifying]

theorem order_nodup (ho : order.Perm (qualifying tbl)) : order.Nodup :=
  ho.nodup_iff.mpr (qualifying_nodup tbl)

theorem order_symbols_nodup (ho : order.Perm (qualifying tbl)) : (order.map symOf).Nodup := by
  refine (order_nodup ho).map_on fun u hu v hv huv => ?_
  have hu' := ((mem_order ho).mp hu).1
  have hv' := ((mem_order ho).mp hv).1
  exact symOf_inj (by omega) (by omega) huv

theorem mem_order_symbols (ho : order.Perm (qualifying tbl)) {y : Sym} :
    y ∈ order.map symOf ↔ y.toNat ≤ 256 ∧ 0 < tbl.get y.toNat := by
  rw [List.mem_map]
  constructor
  · rintro ⟨v, hv, rfl⟩
    have hmem := (mem_order ho).mp hv
    rwa [symOf_toNat (by omega)]
  · exact fun hy => ⟨y.toNat, (mem_order ho).mpr hy, symOf_sym y⟩

theorem sum_order_symbols (ho : order.Perm (qualifying tbl)) :
    ((order.map symOf).map fun y => tbl.get y.toNat).sum = (order.map tbl.get).sum := by
  rw [List.map_map]
  refine congrArg List.sum (List.map_congr_left fun v hv => ?_)
  have hle := ((mem_order ho).mp hv).1
  rw [Function.comp_apply, symOf_toNat (by omega)]

/-- The entries of the leaves weigh together what all symbols count (40 R106). -/
theorem sum_enqueued (ho : order.Perm (qualifying tbl)) (q : Nat) :
    ((enqueueLeaves tbl order q).map PqEntry.weight).sum = countTotal tbl := by
  rw [enqueueLeaves_weights, (ho.map tbl.get).sum_eq, sum_qualifying]

end

/-! ## Admissible merges (40_tree_builder R107, R111) -/

/-- What a policy makes of the queue is an admissible merge (40 R107). -/
theorem mergeStep_rel {P : Policy} {pq pq' : List PqEntry} {q : Nat}
    (h : mergeStep P pq q = some pq') : MergeRel pq q pq' := by
  obtain ⟨a, b, ha, hb, rfl⟩ := mergeStep_eq_some h
  obtain ⟨hamem, hamin⟩ := chooseLightest_mem ha
  obtain ⟨hbmem, hbmin⟩ := chooseLightest_mem hb
  unfold joinPair
  split
  · exact .merge a b b.tree a.tree hamem hamin hbmem hbmin (.inr ⟨rfl, rfl⟩)
  · exact .merge a b a.tree b.tree hamem hamin hbmem hbmin (.inl ⟨rfl, rfl⟩)

/-- The leaves of the tree are those of the entries it is made of (40 R111 (a)). -/
theorem GreedyFrom.leaves {pq : List PqEntry} {q w : Nat} {t : Tree} (h : GreedyFrom pq q w t) :
    t.leaves.Perm (leavesIn (pq.map PqEntry.tree)) := by
  induction h with
  | root e q => simp
  | merge hm _ ih => exact ih.trans hm.keeps.1

/-- The root weighs what the entries weigh together (40 R111 (c)). -/
theorem GreedyFrom.weight {pq : List PqEntry} {q w : Nat} {t : Tree} (h : GreedyFrom pq q w t) :
    w = (pq.map PqEntry.weight).sum := by
  induction h with
  | root e q => simp
  | merge hm _ ih => rw [ih, hm.keeps.2.1]

section
variable {tbl : CountTable} {order : List Nat} {w : Nat} {t : Tree}

/-- The leaves of an admissible tree are the symbols that entered (40 R111 (a)). -/
theorem greedy_leaves (h : GreedyFrom (enqueueLeaves tbl order 0) order.length w t) :
    t.leaves.Perm (order.map symOf) := by
  rw [← enqueueLeaves_leaves tbl order 0]
  exact h.leaves

theorem greedy_nleaves (h : GreedyFrom (enqueueLeaves tbl order 0) order.length w t) :
    t.nleaves = order.length := by
  rw [← Tree.leaves_length, (greedy_leaves h).length_eq, List.length_map]

/-- The root of an admissible tree weighs the sum of all counts (40 R111 (c)). -/
theorem greedy_weight (ho : order.Perm (qualifying tbl))
    (h : GreedyFrom (enqueueLeaves tbl order 0) order.length w t) : w = countTotal tbl := by
  rw [h.weight, sum_enqueued ho]

end

/-- Settles O56: a merge keeps the leaves and the sum of the weights, so the tree has those of the initial entries. -/
theorem greedyTrees : Obligations.GreedyTrees := by
  intro tbl order w t ho h
  have hleaves := greedy_leaves h
  have hnleaves := greedy_nleaves h
  have hnodes := t.nodes_add_one
  have hnodup : t.leaves.Nodup := hleaves.nodup_iff.mpr (order_symbols_nodup ho)
  have hmem : ∀ y : Sym, y ∈ t.leaves ↔ y.toNat ≤ 256 ∧ 0 < tbl.get y.toNat := fun y => by
    rw [hleaves.mem_iff, mem_order_symbols ho]
  have hle : ∀ y ∈ t.leaves, y.toNat ≤ 256 := fun y hy => ((hmem y).mp hy).1
  have hsum : (t.leaves.map fun y => tbl.get y.toNat).sum = countTotal tbl := by
    rw [(hleaves.map _).sum_eq, sum_order_symbols ho, (ho.map tbl.get).sum_eq, sum_qualifying]
  exact ⟨hnodup, hmem, hnleaves, by omega, legal_iff.mpr ⟨hle, nodup_symbols_length hnodup hle⟩,
    greedy_weight ho h, (greedy_weight ho h).trans hsum.symm⟩

/-! ## The policies (40_tree_builder R107, R112) -/

/-- The choice that removes `a` from `pq` and `b` from what is left, with the children in the order that `swap` says. -/
def pairPolicy (pq : List PqEntry) (a b : PqEntry) (swap : Bool) : Policy where
  pick := fun es => (lightest es).idxOf (if es = pq then a else b)
  secondLeft := fun _ _ => swap
  leafKey := id

theorem mergeStep_pairPolicy {pq : List PqEntry} {a b : PqEntry} (swap : Bool) (q : Nat)
    (ha : a ∈ pq) (hamin : ∀ e ∈ pq, a.weight ≤ e.weight)
    (hb : b ∈ pq.erase a) (hbmin : ∀ e ∈ pq.erase a, b.weight ≤ e.weight) :
    mergeStep (pairPolicy pq a b swap) pq q = some ((pq.erase a).erase b ++
      [⟨a.weight + b.weight, q, if swap then .node b.tree a.tree else .node a.tree b.tree⟩]) := by
  have hne : pq.erase a ≠ pq := fun he => by
    have hlen := List.length_erase_of_mem ha
    have hpos := List.length_pos_of_mem ha
    rw [he] at hlen
    omega
  have hfirst : chooseLightest (pairPolicy pq a b swap) pq = some a :=
    chooseLightest_of_pick ha hamin (by simp [pairPolicy])
  have hsecond : chooseLightest (pairPolicy pq a b swap) (pq.erase a) = some b :=
    chooseLightest_of_pick hb hbmin (by simp [pairPolicy, hne])
  simp only [mergeStep, hfirst, hsecond]
  rfl

/-- Settles O30: a policy removes two lightest entries, and a policy that picks the removed pair makes the merge. -/
theorem mergesAreTheAdmissibleOnes : Obligations.MergesAreTheAdmissibleOnes := by
  refine ⟨fun P pq q h2 => ?_, fun pq pq' q h => ?_⟩
  · obtain ⟨pq', hm⟩ := mergeStep_some P q h2
    exact ⟨pq', hm, mergeStep_rel hm⟩
  · obtain ⟨a, b, l, r, ha, hamin, hb, hbmin, hlr⟩ := h
    obtain ⟨rfl, rfl⟩ | ⟨rfl, rfl⟩ := hlr
    · exact ⟨_, mergeStep_pairPolicy false q ha hamin hb hbmin⟩
    · exact ⟨_, mergeStep_pairPolicy true q ha hamin hb hbmin⟩

/-! ## The width of the counts and weights (40_tree_builder R104) -/

/-- Under the launch premise what counts no more than the bytes and the sentinel fits (40 R104). -/
theorem LaunchPremise.fits {m w : Nat} (hw : w ≤ m + 1) (h : LaunchPremise m) :
    w < 2 ^ Config.weightBits :=
  Nat.lt_of_le_of_lt hw h

theorem weight_le_sum {pq : List PqEntry} {e : PqEntry} (he : e ∈ pq) :
    e.weight ≤ (pq.map PqEntry.weight).sum :=
  List.single_le_sum (fun _ _ => Nat.zero_le _) _ (List.mem_map_of_mem he)

theorem leaves_sublist_leavesIn {ts : List Tree} {t : Tree} (ht : t ∈ ts) :
    t.leaves.Sublist (leavesIn ts) :=
  List.sublist_flatten_of_mem (List.mem_map_of_mem ht)

/-- An entry that waits weighs what its leaves count, which are distinct symbols (40 R111 (c)). -/
theorem Inv.weight_le_countTotal {s : State} (hi : Inv s) (hp : s.phase = .tbMerge) {e : PqEntry}
    (he : e ∈ s.pq) : e.weight ≤ countTotal s.count := by
  obtain ⟨-, -, -, hnodup, hle, -⟩ := hi.queue hp
  have hsub := leaves_sublist_leavesIn (List.mem_map_of_mem (f := PqEntry.tree) he)
  rw [hi.queueWeights hp e he]
  exact sum_symbols_le s.count (hnodup.sublist hsub) fun y hy => hle y (hsub.subset hy)

/-- Settles O57: the counts sum to the bytes and the sentinel, and no merge changes the sum. -/
theorem weightsFitUnderTheLaunchPremise : Obligations.WeightsFitUnderTheLaunchPremise := by
  intro B
  have htotal := countTotal_countsOf B
  have hcount : ∀ v, (countsOf B).get v ≤ B.length + 1 := fun v => by
    by_cases hv : v = 256
    · rw [hv, countsOf_get_256]; omega
    · exact (countsOf_get_le B hv).trans (Nat.le_succ _)
  refine ⟨fun v => countsOf_get_le B, countsOf_get_256 B, fun hl v => hl.fits (hcount v),
    fun order ho => ⟨fun pq q hm e he => ?_, fun w t h => (greedy_weight ho h).trans htotal⟩,
    fun s hi hp hc e he => ?_⟩
  · have hsum : (pq.map PqEntry.weight).sum = B.length + 1 := by
      rw [merges_weights hm, sum_enqueued ho, htotal]
    have hw : e.weight ≤ B.length + 1 := hsum ▸ weight_le_sum he
    exact ⟨hw, LaunchPremise.fits hw⟩
  · have hw : e.weight ≤ B.length + 1 := by
      rw [← htotal, ← hc]
      exact hi.weight_le_countTotal hp he
    exact ⟨hw, LaunchPremise.fits hw⟩

end Sys2Proof.Machine
end

section
/-! SUPPORT. huffman_tree_builder: the steps of the phases `TB_COUNT`, `TB_INIT` and `TB_MERGE`, and the runs they make (40_tree_builder R100 to R108). -/

namespace Sys2Proof.Machine

/-! ## The counting pass (40_tree_builder R102, R103) -/

theorem step_countByte {s : State} (hq : Quiet s) (hp : s.phase = .tbCount) {v : BitVec 8}
    {x : Bits} (hx : s.unread = bitsOf 8 v.toNat ++ x) :
    step s = .next
      { s with
        count := s.count.put v.toNat (s.count.get v.toNat + 1)
        src := ⟨s.src.bits, s.src.pos + 8⟩
        trace := s.trace ++ [.srcRead 8 (some v.toNat)] } := by
  have hval : valOf (bitsOf 8 v.toNat) = v.toNat := valOf_bitsOf_of_lt v.isLt
  have hpeek : srcPeek 8 s = some v.toNat :=
    (srcPeek_eq_some (by decide)).mpr ⟨_, x, hx, bitsOf_length 8 _, hval⟩
  rw [step_of_case hq (.countByte v.toNat hp hpeek), srcAfter_eq hx (bitsOf_length 8 _) (by decide),
    hval]
  rfl

theorem step_countEnd {s : State} (hq : Quiet s) (hp : s.phase = .tbCount)
    (hx : s.unread.length < 8) :
    step s = .next
      { s with
        phase := .tbInit
        count := s.count.put 256 1, countValid := true
        trace := s.trace ++ [.srcRead 8 none] } := by
  rw [step_of_case hq (.countEnd hp (srcPeek_short hx)), srcAfter_eod hx]
  rfl

/-- Settles O27: one entry of `COUNT` is written, that of the byte read or, at the end, that of the sentinel. -/
theorem countingSteps : Obligations.CountingSteps := by
  intro s hq hp
  refine ⟨fun v x hx => ⟨_, step_countByte hq hp hx, fun u => ?_⟩,
    fun hx => ⟨_, step_countEnd hq hp hx, fun u => ?_⟩⟩
  · have hv : v.toNat < NSYM := v.isLt.trans (by decide)
    rw [CountTable.get_put]
    by_cases hu : u = v.toNat
    · rw [if_pos ⟨hu, hv⟩, if_pos hu, hu]
    · rw [if_neg fun h => hu h.1, if_neg hu, Nat.add_zero]
  · simp [CountTable.get_put]

/-- `COUNT` after the bytes of a source have been counted on top of `tbl` (40 R102). -/
def countBytes : CountTable → List (BitVec 8) → CountTable
  | tbl, [] => tbl
  | tbl, b :: B => countBytes (tbl.put b.toNat (tbl.get b.toNat + 1)) B

theorem countBytes_get (tbl : CountTable) (B : List (BitVec 8)) (v : Nat) :
    (countBytes tbl B).get v = tbl.get v + B.countP fun b => decide (b.toNat = v) := by
  induction B generalizing tbl with
  | nil => rfl
  | cons b B ih =>
    have hb : b.toNat < NSYM := b.isLt.trans (by decide)
    rw [countBytes, ih, CountTable.get_put, List.countP_cons]
    by_cases hv : v = b.toNat
    · subst hv
      simp only [hb, and_self, if_true, decide_true]
      omega
    · simp [hv, Ne.symm hv]

/-- Counting from zeros, with the sentinel's count at the end, gives the counts of the source (40 R105). -/
theorem countBytes_zeros (B : List (BitVec 8)) :
    (countBytes (Vector.replicate 257 0) B).put 256 1 = countsOf B := by
  refine CountTable.ext_get fun v hv => ?_
  rw [CountTable.get_put, countBytes_get, CountTable.get_replicate, Nat.zero_add, countsOf_get B hv]
  simp

/-- The counting pass reads the whole bytes that stand unread, in one step each, and ends with the read that answers `EOD` (40 R102, R103). -/
theorem run_counting {s : State} {B : List (BitVec 8)} {tail : Bits} (hq : Quiet s)
    (hp : s.phase = .tbCount) (hx : s.unread = bitsOfBytes B ++ tail) (ht : tail.length < 8) :
    run (B.length + 1) s = .next
      { s with
        phase := .tbInit
        count := (countBytes s.count B).put 256 1, countValid := true
        src := ⟨s.src.bits, s.src.pos + 8 * B.length⟩
        trace := s.trace ++ countTransactions B } := by
  induction B generalizing s with
  | nil => exact run_cons (step_countEnd hq hp (by rw [hx]; exact ht)) rfl
  | cons b B ih =>
    rw [bitsOfBytes_cons, List.append_assoc] at hx
    refine run_cons (step_countByte hq hp hx) ?_
    rw [List.length_cons, ih]
    · simp [countBytes, countTransactions, Nat.mul_add, Nat.add_assoc, Nat.add_comm 8]
    · exact hq
    · exact hp
    · exact drop_of_unread hx (bitsOf_length 8 _)

/-! ## The leaves (40_tree_builder R106) -/

/-- The symbols of positive count in the `LEAF_ORDER` of this build (40 R106). -/
def leafOrder (tbl : CountTable) : List Nat := orderByKey Config.leafKey (qualifying tbl)

theorem leafOrder_perm (tbl : CountTable) : (leafOrder tbl).Perm (qualifying tbl) :=
  orderedLeaves_perm Config.leafKey tbl

theorem step_init {s : State} (hq : Quiet s) (hp : s.phase = .tbInit) :
    step s = .next
      { s with
        phase := .tbMerge
        pq := enqueueLeaves s.count (leafOrder s.count) 0, seq := (leafOrder s.count).length } :=
  step_of_case hq (.init hp)

/-- Settles O28: the order is that of the keys, and the entries are numbered by their place in it. -/
theorem leavesEnqueued : Obligations.LeavesEnqueued := by
  intro s hq hp
  have hperm := leafOrder_perm s.count
  refine ⟨leafOrder s.count, order_nodup hperm, fun v => mem_order hperm,
    orderByKey_pairwise Config.leafKey _, ?_⟩
  rw [step_init hq hp, enqueueLeaves_eq_zipIdx]

/-! ## Construction (40_tree_builder R107, R108) -/

theorem step_merge {s : State} (hq : Quiet s) (hp : s.phase = .tbMerge) (h2 : 2 ≤ s.pq.length) :
    ∃ pq, MergeRel s.pq s.seq pq ∧ step s = .next { s with pq := pq, seq := s.seq + 1 } := by
  obtain ⟨pq, hm⟩ := mergeStep_some Config.policy s.seq h2
  exact ⟨pq, mergeStep_rel hm, step_of_case hq (.merge pq hp h2 hm)⟩

theorem step_built {s : State} {e : PqEntry} {p : Phase} (hq : Quiet s) (hp : s.phase = .tbMerge)
    (he : s.pq = [e]) (hn : nextPhase s.cmd .tbMerge = some p) :
    step s = .next
      { s with
        phase := p
        tree := some e.tree, treeValid := true, treeOrigin := .built
        pq := [] } :=
  step_of_case hq (.built e p hp he hn)

/-- Settles O29: a merge is that of the build's policy, and the phase after the last entry is the next in the chain of the command. -/
theorem constructionSteps : Obligations.ConstructionSteps := by
  intro s hq hp
  refine ⟨fun h2 => ?_, fun e p he hc => step_built hq hp he ?_⟩
  · obtain ⟨pq, hm, hstep⟩ := step_merge hq hp h2
    exact ⟨pq, hm, hm.keeps.2.2, hstep⟩
  · obtain ⟨hcmd, rfl⟩ | ⟨hcmd, rfl⟩ := hc <;> rw [hcmd] <;> rfl

/-- From `n + 1` entries, `n` merges and the end of construction make an admissible tree (40 R108). -/
theorem run_merging {s : State} {n : Nat} {p : Phase} (hq : Quiet s) (hp : s.phase = .tbMerge)
    (hlen : s.pq.length = n + 1) (hn : nextPhase s.cmd .tbMerge = some p) :
    ∃ w t, GreedyFrom s.pq s.seq w t ∧ run (n + 1) s = .next
      { s with
        phase := p
        tree := some t, treeValid := true, treeOrigin := .built
        pq := [], seq := s.seq + n } := by
  induction n generalizing s with
  | zero =>
    obtain ⟨e, he⟩ := List.length_eq_one_iff.mp hlen
    exact ⟨e.weight, e.tree, he ▸ .root e s.seq, run_cons (step_built hq hp he hn) rfl⟩
  | succ n ih =>
    obtain ⟨pq, hm, hstep⟩ := step_merge hq hp (by omega)
    have hlen' : pq.length = n + 1 := by have := hm.keeps.2.2; omega
    obtain ⟨w, t, hg, hrun⟩ := ih (s := { s with pq := pq, seq := s.seq + 1 }) hq hp hlen' hn
    refine ⟨w, t, .merge hm hg, (run_cons hstep hrun).trans ?_⟩
    simp only [Nat.add_assoc, Nat.add_comm 1]

/-! ## A whole build (40_tree_builder R100) -/

/-- From a complete `COUNT` the build makes an admissible tree, in one step for each leaf and one more (40 R106 to R108). -/
theorem run_construction {s : State} {p : Phase} (hq : Quiet s) (hp : s.phase = .tbInit)
    (h256 : 0 < s.count.get 256) (hn : nextPhase s.cmd .tbMerge = some p) :
    ∃ t q, Greedy s.count t ∧ run (t.nleaves + 1) s = .next
      { s with
        phase := p
        tree := some t, treeValid := true, treeOrigin := .built
        pq := [], seq := q } := by
  have hperm := leafOrder_perm s.count
  obtain ⟨n, hlen⟩ : ∃ n, (leafOrder s.count).length = n + 1 :=
    Nat.exists_eq_add_one.mpr
      (List.length_pos_of_mem ((mem_order hperm).mpr ⟨Nat.le_refl 256, h256⟩))
  obtain ⟨w, t, hg, hrun⟩ := run_merging
    (s := { s with
      phase := .tbMerge
      pq := enqueueLeaves s.count (leafOrder s.count) 0, seq := (leafOrder s.count).length })
    hq rfl ((enqueueLeaves_length _ _ _).trans hlen) hn
  have hsteps : t.nleaves = n + 1 := (greedy_nleaves hg).trans hlen
  exact ⟨t, _, ⟨leafOrder s.count, w, hperm, hg⟩, hsteps ▸ run_cons (step_init hq hp) hrun⟩

/-- From the start of the counting pass the three phases count the source and make an admissible tree; the phase after them is the command's (10_state R41). -/
theorem run_build {s : State} {B : List (BitVec 8)} {tail : Bits} {p : Phase} (hq : Quiet s)
    (hp : s.phase = .tbCount) (hc : s.count = Vector.replicate 257 0)
    (hx : s.unread = bitsOfBytes B ++ tail) (ht : tail.length < 8)
    (hn : nextPhase s.cmd .tbMerge = some p) :
    ∃ t q, Greedy (countsOf B) t ∧ run (B.length + t.nleaves + 2) s = .next
      { s with
        phase := p
        count := countsOf B, countValid := true
        tree := some t, treeValid := true, treeOrigin := .built
        pq := [], seq := q
        src := ⟨s.src.bits, s.src.pos + 8 * B.length⟩
        trace := s.trace ++ countTransactions B } := by
  have hcount := run_counting hq hp hx ht
  rw [hc, countBytes_zeros] at hcount
  obtain ⟨t, q, hg, hrun⟩ := run_construction (p := p)
    (s := { s with
      phase := .tbInit
      count := countsOf B, countValid := true
      src := ⟨s.src.bits, s.src.pos + 8 * B.length⟩
      trace := s.trace ++ countTransactions B })
    hq rfl (by rw [countsOf_get_256]; decide) hn
  have hsteps : B.length + t.nleaves + 2 = (B.length + 1) + (t.nleaves + 1) := by omega
  exact ⟨t, q, hg, hsteps ▸ run_trans hcount hrun⟩

/-- Settles O51: the acceptance clears what a build clears, and the build goes on to `DONE`. -/
theorem tbRunBuildsAGreedyTree : Obligations.TbRunBuildsAGreedyTree := by
  intro s B tail hr hp hx ht
  have hstart := step_present (c := .tbRun) hr (.tbRun ((accepting_iff _).mpr hp))
  obtain ⟨t, q, hg, hrun⟩ := run_build (p := .done)
    (s := startCommand .tbRun (clearForBuild (clearPort (s.presentCommand .tbRun))))
    ⟨hr, rfl⟩ rfl rfl hx ht rfl
  exact ⟨t, q, hg, run_cons hstart hrun⟩

end Sys2Proof.Machine
end

section
/-! SUPPORT. huffman_header_serializer: the steps of the phase `HS_WALK` and the run they make (41_header_serializer R120 to R125). -/

namespace Sys2Proof.Machine

/-! ## The two items of a header (41_header_serializer R122, R123) -/

/-- What stands first among the subtrees still to be written: the top of `HS_STACK`, or `TREE` at the entry (41 R121). -/
theorem hsPending_of_top {s : State} {top : Tree} {rest : List Tree}
    (h : s.hsStack = top :: rest ∨
      (s.hsStack = [] ∧ rest = [] ∧ s.treeValid = true ∧ s.tree = some top)) :
    hsPending s = some (top :: rest) := by
  rcases h with hst | ⟨hst, rfl, hv, ht⟩
  · simp only [hsPending, hst]
  · simp only [hsPending, hst, readTree_eq_some.mpr ⟨hv, ht⟩, Option.map_some]

/-- The state after `ser(t)` has been written on an open sink, with `rest` still to be written (41 R125). -/
def headerWritten (t : Tree) (rest : List Tree) (s : State) : State :=
  { s with
    hsStack := rest
    snk := ⟨s.snk.bits ++ t.ser, false⟩
    trace := s.trace ++ headerWrites t }

/-- The state after the tag of an internal node has been written on an open sink (41 R122). -/
def nodeWritten (l r : Tree) (rest : List Tree) (s : State) : State :=
  { s with
    hsStack := l :: r :: rest
    snk := ⟨s.snk.bits ++ [false], false⟩
    trace := s.trace ++ [.snkWrite 1 0] }

theorem setHsStack_snkAppend_tag {s : State} (l r : Tree) (rest : List Tree)
    (ho : s.snk.closed = false) :
    setHsStack (l :: r :: rest) (snkAppend (bitsOf 1 0) (.snkWrite 1 0) s) =
      nodeWritten l r rest s := by
  rw [snkAppend_open _ _ ho]
  rfl

/-- The two writes of a leaf make its header (00_scope R15). -/
theorem setHsStack_snkAppend_leaf {s : State} (y : Sym) (rest : List Tree)
    (ho : s.snk.closed = false) :
    setHsStack rest (snkAppend (bitsOf 9 y.toNat) (.snkWrite 9 y.toNat)
      (snkAppend (bitsOf 1 1) (.snkWrite 1 1) s)) = headerWritten (.leaf y) rest s := by
  have htag : bitsOf 1 1 = [true] := rfl
  simp [headerWritten, headerWrites, setHsStack, snkAppend, ho, htag]

/-- `ser` of an internal node is its tag and the headers of its two subtrees (00_scope R15). -/
theorem headerWritten_node (l r : Tree) (rest : List Tree) (s : State) :
    headerWritten r rest (headerWritten l (r :: rest) (nodeWritten l r rest s)) =
      headerWritten (.node l r) rest s := by
  simp [headerWritten, nodeWritten, headerWrites]

theorem exec_headerNode {s : State} {l r : Tree} {rest : List Tree} (hp : s.phase = .hsWalk)
    (ht : hsPending s = some (.node l r :: rest)) (ho : s.snk.closed = false) :
    exec .n s = .next (nodeWritten l r rest s) := by
  simp only [exec, execN, hp, hsWriteNode, ht, snkWrite_open _ _ ho, andThen_next,
    setHsStack_snkAppend_tag l r rest ho]

/-- `HS_WALK` goes on while subtrees are left; with none left it is complete and `q` is the next phase of the command (41 R124). -/
def WalkGoesTo (rest : List Tree) (q : Phase) (s : State) : Prop :=
  (rest ≠ [] ∧ q = s.phase) ∨ (rest = [] ∧ nextPhase s.cmd s.phase = some q)

theorem exec_headerLeaf {s : State} {y : Sym} {rest : List Tree} {q : Phase}
    (hp : s.phase = .hsWalk) (ht : hsPending s = some (.leaf y :: rest))
    (ho : s.snk.closed = false) (hq : WalkGoesTo rest q s) :
    exec (.l y) s = .next (setPhase q (headerWritten (.leaf y) rest s)) := by
  have ho' : (snkAppend (bitsOf 1 1) (.snkWrite 1 1) s).snk.closed = false := ho
  simp only [exec, execL, hp, hsWriteLeaf, ht, if_true, snkWrite_open _ _ ho,
    snkWrite_open _ _ ho', andThen_next]
  obtain ⟨hrest, rfl⟩ | ⟨rfl, hn⟩ := hq
  · cases rest with
    | nil => exact absurd rfl hrest
    | cons t ts => exact congrArg _ (setHsStack_snkAppend_leaf y (t :: ts) ho)
  · rw [setHsStack_snkAppend_leaf y [] ho]
    exact phaseComplete_of hn

/-- The chains with `HS_WALK` go on to `DONE` or to the code table (10_state R41). -/
theorem nextPhase_hsWalk_iff {c : Command} {p : Phase} :
    nextPhase c .hsWalk = some p ↔
      (c = .hsRun ∧ p = .done) ∨ ((c = .encRun ∨ c = .compress) ∧ p = .encTable) := by
  refine ⟨nextPhase_hsWalk, ?_⟩
  rintro (⟨rfl, rfl⟩ | ⟨rfl | rfl, rfl⟩) <;> rfl

/-- Settles O21: the item is that of the subtree on top, and `WalkGoesTo` says where each leaf leads. -/
theorem headerItemsWritten : Obligations.HeaderItemsWritten := by
  intro s top rest hp ho htop
  have ht := hsPending_of_top htop
  refine ⟨?_, ?_⟩
  · rintro l r rfl
    exact exec_headerNode hp ht ho
  · rintro y rfl
    refine ⟨fun hrest => exec_headerLeaf hp ht ho (.inl ⟨hrest, rfl⟩), ?_⟩
    rintro p rfl hc
    exact exec_headerLeaf hp ht ho (.inr ⟨rfl, hp ▸ nextPhase_hsWalk_iff.mpr hc⟩)

/-! ## A whole header (41_header_serializer R120, R125) -/

theorem step_headerNode {s : State} {l r : Tree} {rest : List Tree} (hq : Quiet s)
    (hp : s.phase = .hsWalk) (ht : hsPending s = some (.node l r :: rest))
    (ho : s.snk.closed = false) : step s = .next (nodeWritten l r rest s) := by
  rw [step_item hq (i := .n) (by simp only [nextItem, hp, nextHeaderItem, ht])]
  exact exec_headerNode hp ht ho

theorem step_headerLeaf {s : State} {y : Sym} {rest : List Tree} {q : Phase} (hq : Quiet s)
    (hp : s.phase = .hsWalk) (ht : hsPending s = some (.leaf y :: rest))
    (ho : s.snk.closed = false) (hgo : WalkGoesTo rest q s) :
    step s = .next (setPhase q (headerWritten (.leaf y) rest s)) := by
  rw [step_item hq (i := .l y) (by simp only [nextItem, hp, nextHeaderItem, ht])]
  exact exec_headerLeaf hp ht ho hgo

/-- The subtree on top is written in one step per node, whatever is left below it. -/
theorem run_header {s : State} {t : Tree} {rest : List Tree} {q : Phase} (hq : Quiet s)
    (hp : s.phase = .hsWalk) (ht : hsPending s = some (t :: rest)) (ho : s.snk.closed = false)
    (hgo : WalkGoesTo rest q s) :
    run t.nodes s = .next (setPhase q (headerWritten t rest s)) := by
  induction t generalizing s rest q with
  | leaf y => exact run_cons (step_headerLeaf hq hp ht ho hgo) rfl
  | node l r ihl ihr =>
    have hleft : run l.nodes (nodeWritten l r rest s) =
        .next (headerWritten l (r :: rest) (nodeWritten l r rest s)) :=
      ihl hq hp rfl rfl (.inl ⟨List.cons_ne_nil r rest, rfl⟩)
    have hright : run r.nodes (headerWritten l (r :: rest) (nodeWritten l r rest s)) =
        .next (setPhase q (headerWritten (.node l r) rest s)) :=
      headerWritten_node l r rest s ▸ ihr hq hp rfl rfl hgo
    exact run_cons (step_headerNode hq hp ht ho) (run_trans hleft hright)

/-- Settles O49: after the acceptance the walk writes the whole tree with nothing below it, and `HS_STACK` ends empty as it began. -/
theorem hsRunWritesTheHeader : Obligations.HsRunWritesTheHeader := by
  intro s t hr hp hst hv ht ho
  have hstart := step_present (c := .hsRun) hr (.hsRun ((accepting_iff _).mpr hp) hv ho)
  have hrun := run_header
    (s := startCommand .hsRun (clearPort (s.presentCommand .hsRun))) (q := .done) ⟨hr, rfl⟩ rfl
    (hsPending_of_top (.inr ⟨hst, rfl, hv, ht⟩)) ho (.inr ⟨rfl, rfl⟩)
  rw [run_cons hstart hrun]
  simp only [setPhase, headerWritten, startCommand, clearPort, State.presentCommand, hst]

end Sys2Proof.Machine
end

section
/-! SUPPORT. `des` and `ser` (42_header_deserializer R137, R139): a header that can be read is `ser` of a tree that fits, and one that cannot fails at the first of its faults. -/

namespace Sys2Proof.Machine

/-- With `c` leaves read and `n` subtrees awaited, `t` can be read as the first of them: its symbols exist and the header stays within the 257 leaves (42 R134, R135). -/
def Fits (t : Tree) (c n : Nat) : Prop :=
  (∀ y ∈ t.leaves, y.toNat ≤ 256) ∧ c + t.nleaves + n ≤ NSYM + 1

theorem fits_zero_one {t : Tree} : Fits t 0 1 ↔ t.legal := by
  simp only [Fits, Tree.legal, Nat.zero_add, Nat.add_le_add_iff_right]

theorem fits_leaf {y : Sym} {c n : Nat} (hy : y.toNat ≤ 256) (hc : c + n ≤ NSYM) :
    Fits (.leaf y) c n := by
  refine ⟨by simpa [Tree.leaves] using hy, ?_⟩
  simp only [Tree.nleaves]
  omega

/-- An internal node fits when its left subtree does, with one more awaited, and then its right one (42 R133). -/
theorem fits_node {l r : Tree} {c n : Nat} :
    Fits (.node l r) c n ↔ Fits l c (n + 1) ∧ Fits r (c + l.nleaves) n := by
  have hr := r.nleaves_pos
  simp only [Fits, Tree.leaves, Tree.nleaves, List.mem_append, or_imp, forall_and]
  constructor
  · rintro ⟨⟨hl, hr⟩, hb⟩
    exact ⟨⟨hl, by omega⟩, hr, by omega⟩
  · rintro ⟨⟨hl, -⟩, hr, hb⟩
    exact ⟨⟨hl, hr⟩, by omega⟩

theorem Fits.right_bound {t : Tree} {c n : Nat} (h : Fits t c (n + 1)) :
    c + t.nleaves + n ≤ NSYM := Nat.le_of_succ_le_succ h.2

/-- Two leaves or more are still to come, so the capacity is not reached (42 R134). -/
theorem Fits.node_capacity {l r : Tree} {c n : Nat} (h : Fits (.node l r) c n) : c + n ≠ NSYM := by
  obtain ⟨hl, hr⟩ := fits_node.mp h
  have := l.nleaves_pos
  have := hl.right_bound
  omega

/-- `des` reads back what `ser` writes, whatever follows (42 R139). -/
theorem desWithin_ser {t : Tree} {f c n : Nat} (x : Bits) (hf : t.ser.length < f)
    (ht : Fits t c n) : desWithin f (t.ser ++ x) c n = .ok (t, x, c + t.nleaves) := by
  induction t generalizing f c n x with
  | leaf y =>
    obtain ⟨f, rfl⟩ := Nat.exists_eq_add_of_lt hf
    exact desWithin_leaf _ c n x (ht.1 y (List.mem_singleton_self y))
  | node l r ihl ihr =>
    obtain ⟨f, rfl⟩ := Nat.exists_eq_add_one_of_ne_zero (Nat.ne_zero_of_lt hf)
    obtain ⟨hl, hr⟩ := fits_node.mp ht
    simp only [Tree.ser_node, List.length_cons, List.length_append] at hf
    have hdl := ihl (f := f) (r.ser ++ x) (by omega) hl
    have hdr := ihr (f := f) x (by omega) hr
    simp only [Tree.ser_node, List.cons_append, List.append_assoc, desWithin,
      if_neg ht.node_capacity, hdl, hdr, Tree.nleaves, Nat.add_assoc]

/-- `HeaderFails c n e w z`: with `c` leaves read and `n` subtrees awaited, a reader of the bits `w ++ z` raises `e` after it has consumed `w` (42 R132 to R137). -/
inductive HeaderFails : Nat → Nat → Raised → Bits → Bits → Prop where
  /-- 42 R132 -/
  | eodTag (c n : Nat) : HeaderFails c n ⟨.truncatedStream, .eodHdrTag, 0⟩ [] []
  /-- 42 R134 -/
  | capacity {c n : Nat} (z : Bits) (hc : c + n = NSYM) :
      HeaderFails c n ⟨.malformedHeader, .capacity, 0⟩ [false] z
  /-- 42 R135, `EOD` -/
  | eodSym (c n : Nat) {z : Bits} (hz : z.length < 9) :
      HeaderFails c n ⟨.truncatedStream, .eodHdrSym, 0⟩ [true] z
  /-- 42 R135, range -/
  | range (c n : Nat) {y : Sym} (z : Bits) (hy : 256 < y.toNat) :
      HeaderFails c n ⟨.malformedHeader, .symbolRange, zext32 y⟩ (true :: bitsOf 9 y.toNat) z
  /-- in the left subtree of an internal node (42 R133) -/
  | left {c n : Nat} {e : Raised} {w z : Bits} (hc : c + n ≠ NSYM)
      (h : HeaderFails c (n + 1) e w z) : HeaderFails c n e (false :: w) z
  /-- in the right subtree of an internal node, with `l` on its left (42 R136) -/
  | right {c n : Nat} {e : Raised} {w z : Bits} (l : Tree) (hc : c + n ≠ NSYM)
      (hl : Fits l c (n + 1)) (h : HeaderFails (c + l.nleaves) n e w z) :
      HeaderFails c n e (false :: (l.ser ++ w)) z

/-- `des` succeeds on `ser` of a tree that fits, or fails as `HeaderFails` says; enough fuel is one step per bit (42 R137). -/
theorem desWithin_cases {f : Nat} {x : Bits} {c n : Nat} (hf : x.length < f) (hc : c + n ≤ NSYM) :
    (∃ t z, x = t.ser ++ z ∧ Fits t c n ∧ desWithin f x c n = .ok (t, z, c + t.nleaves)) ∨
    (∃ e w, desWithin f x c n = .error e ∧ x = w ++ desLeftWithin f x c n ∧
      HeaderFails c n e w (desLeftWithin f x c n)) := by
  induction f generalizing x c n with
  | zero => exact absurd hf (Nat.not_lt_zero _)
  | succ f ih =>
    match x, hf with
    | [], _ => exact .inr ⟨_, [], rfl, rfl, .eodTag c n⟩
    | false :: x, hf =>
      have hf' : x.length < f := Nat.lt_of_succ_lt_succ hf
      by_cases hcap : c + n = NSYM
      · simp only [desWithin, desLeftWithin, if_pos hcap]
        exact .inr ⟨_, [false], rfl, rfl, .capacity x hcap⟩
      simp only [desWithin, desLeftWithin, if_neg hcap]
      obtain ⟨l, x1, rfl, hl, hdl⟩ | ⟨e, w, hde, hx, hw⟩ :=
        ih (c := c) (n := n + 1) hf' (by omega)
      · have hf1 : x1.length < f := by rw [List.length_append] at hf'; omega
        simp only [hdl]
        obtain ⟨r, z, rfl, hr, hdr⟩ | ⟨e, w, hde, hx, hw⟩ := ih hf1 hl.right_bound
        · refine .inl ⟨.node l r, z, by simp, fits_node.mpr ⟨hl, hr⟩, ?_⟩
          simp only [hdr, Tree.nleaves, Nat.add_assoc]
        · refine .inr ⟨e, false :: (l.ser ++ w), by simp only [hde], ?_, .right l hcap hl hw⟩
          rw [List.cons_append, List.append_assoc, ← hx]
      · simp only [hde]
        exact .inr ⟨e, false :: w, rfl, congrArg (List.cons false) hx, .left hcap hw⟩
    | true :: x, _ =>
      obtain hlen | hlen := Nat.lt_or_ge x.length 9
      · simp only [desWithin, desLeftWithin, if_pos hlen]
        exact .inr ⟨_, [true], rfl, rfl, .eodSym c n hlen⟩
      obtain ⟨y, z, rfl⟩ := exists_word_append hlen
      by_cases hy : y.toNat ≤ 256
      · exact .inl ⟨.leaf y, z, rfl, fits_leaf hy hc, desWithin_leaf f c n z hy⟩
      · simp only [desWithin, desLeftWithin, if_neg (Nat.not_lt.mpr hlen), take_bitsOf_append,
          drop_bitsOf_append, valOf_bitsOf_of_lt y.isLt, symOf_sym, if_pos (Nat.lt_of_not_le hy)]
        exact .inr ⟨_, true :: bitsOf 9 y.toNat, rfl, rfl, .range c n z (Nat.lt_of_not_le hy)⟩

/-- The same of a whole header (42 R137). -/
theorem des_cases (x : Bits) :
    (∃ t z, x = t.ser ++ z ∧ t.legal ∧ des x 0 1 = .ok (t, z, t.nleaves)) ∨
    (∃ e w, des x 0 1 = .error e ∧ x = w ++ desLeft x 0 1 ∧
      HeaderFails 0 1 e w (desLeft x 0 1)) := by
  have h := desWithin_cases (c := 0) (n := 1) (Nat.lt_add_one x.length) (by decide)
  simpa only [des, desLeft, fits_zero_one, Nat.zero_add] using h

/-- Settles O44: `des` reads back `ser` by `desWithin_ser`, and of the two ways it can end (`des_cases`) the one with a tree is `ser` of that tree. -/
theorem headerInverse : Obligations.HeaderInverse := by
  refine ⟨fun t x ht => ?_, fun y x t k h => ?_⟩
  · have hf : t.ser.length < (t.ser ++ x).length + 1 := by rw [List.length_append]; omega
    simpa only [des, Nat.zero_add] using desWithin_ser x hf (fits_zero_one.mpr ht)
  · obtain ⟨u, z, hy, hu, hok⟩ | ⟨e, w, herr, -, -⟩ := des_cases y
    · cases hok.symm.trans h
      exact ⟨hy, rfl, hu⟩
    · cases herr.symm.trans h

end Sys2Proof.Machine
end

section
/-! SUPPORT. huffman_header_deserializer: the items of the phase `HD_WALK` and the run they make (42_header_deserializer R130 to R141). -/

namespace Sys2Proof.Machine

/-! ## What the reader writes -/

/-- The state after the bits `w` have been read by the transactions `ts`. -/
def sourceRead (w : Bits) (ts : List Transaction) (s : State) : State :=
  { s with
    src := ⟨s.src.bits, s.src.pos + w.length⟩
    trace := s.trace ++ ts }

/-- The same, with the registers `HD_STACK`, `LEAF_CNT` and `NEED` at the given values. -/
def readerAt (fs : List HdFrame) (k n : Nat) (w : Bits) (ts : List Transaction) (s : State) :
    State :=
  setHdStack fs (setHdCounts k n (sourceRead w ts s))

theorem readerAt_readerAt (fs fs' : List HdFrame) (k k' n n' : Nat) (w w' : Bits)
    (ts ts' : List Transaction) (s : State) :
    readerAt fs' k' n' w' ts' (readerAt fs k n w ts s) =
      readerAt fs' k' n' (w ++ w') (ts ++ ts') s := by
  simp [readerAt, sourceRead, setHdStack, setHdCounts, Nat.add_assoc]

theorem readerAt_unread {s : State} {w z : Bits} (h : s.unread = w ++ z) (fs : List HdFrame)
    (k n : Nat) (ts : List Transaction) : (readerAt fs k n w ts s).unread = z :=
  drop_of_unread h rfl

/-- An internal node has been opened (42 R133). -/
def nodeOpened (s : State) : State :=
  readerAt (.awaitLeft :: s.hdStack) s.leafCnt (s.need + 1) [false] [.srcRead 1 (some 0)] s

/-- The transactions that read `ser(t)` (42 R132, R135). -/
def headerReads : Tree → List Transaction
  | .leaf y => [.srcRead 1 (some 1), .srcRead 9 (some y.toNat)]
  | .node l r => .srcRead 1 (some 0) :: (headerReads l ++ headerReads r)

/-- `ser(t)` has been read in the place of one awaited subtree, and `HD_STACK` is yet to be reduced (42 R135, R136). -/
def headerRead (t : Tree) (s : State) : State :=
  readerAt s.hdStack (s.leafCnt + t.nleaves) (s.need - 1) t.ser (headerReads t) s

theorem headerRead_leaf (y : Sym) (s : State) :
    headerRead (.leaf y) s =
      { s with
        leafCnt := s.leafCnt + 1, need := s.need - 1
        src := ⟨s.src.bits, s.src.pos + 10⟩
        trace := s.trace ++ [.srcRead 1 (some 1), .srcRead 9 (some y.toNat)] } := rfl

/-- A node has been opened and its left subtree `l` read (42 R136). -/
def leftRead (l : Tree) (s : State) : State :=
  readerAt (.haveLeft l :: s.hdStack) (s.leafCnt + l.nleaves) s.need
    (false :: l.ser) (.srcRead 1 (some 0) :: headerReads l) s

theorem nodeOpened_unread {s : State} {z : Bits} (h : s.unread = false :: z) :
    (nodeOpened s).unread = z :=
  readerAt_unread (w := [false]) h _ _ _ _

theorem leftRead_unread {l : Tree} {s : State} {z : Bits} (h : s.unread = false :: (l.ser ++ z)) :
    (leftRead l s).unread = z :=
  readerAt_unread (w := false :: l.ser) h _ _ _ _

/-! ## A finished subtree (42_header_deserializer R136) -/

theorem hdFinish_pending {t : Tree} {s : State} {stack : List HdFrame}
    (h : hdReduce s.hdStack t = .pending stack) : hdFinish t s = .next (setHdStack stack s) := by
  rw [hdFinish, h]

theorem hdFinish_closed {t u : Tree} {s : State} {p : Phase}
    (h : hdReduce s.hdStack t = .closed u) (hn : nextPhase s.cmd s.phase = some p) :
    hdFinish t s = .next (setPhase p (setHdStack [] (writeTree u .read s))) := by
  rw [hdFinish, h]
  exact phaseComplete_of hn

theorem hdFinish_left (l : Tree) (s : State) :
    hdFinish l (headerRead l (nodeOpened s)) = .next (leftRead l s) := by
  rw [headerRead, nodeOpened, readerAt_readerAt]
  exact hdFinish_pending rfl

/-- A right subtree finishes the internal node above it. -/
theorem hdFinish_right (l r : Tree) (s : State) :
    hdFinish r (headerRead r (leftRead l s)) = hdFinish (.node l r) (headerRead (.node l r) s) := by
  have hread : headerRead r (leftRead l s) =
      setHdStack (.haveLeft l :: s.hdStack) (headerRead (.node l r) s) := by
    rw [headerRead, leftRead, readerAt_readerAt]
    simp [headerRead, readerAt, setHdStack, setHdCounts, Tree.nleaves, headerReads, Nat.add_assoc]
  have hreduce : hdReduce (setHdStack (.haveLeft l :: s.hdStack) (headerRead (.node l r) s)).hdStack r =
      hdReduce (headerRead (.node l r) s).hdStack (.node l r) := rfl
  rw [hread, hdFinish, hdFinish, hreduce]
  split <;> rfl

theorem raise_sourceRead {s : State} (hp : s.phase = .hdWalk) (k : FaultCode) (sub : FaultSub)
    (v : Word32) (w : Bits) (ts : List Transaction) :
    raise k sub v (sourceRead w ts s) =
      { s with
        phase := .fault, faultCode := k, faultSub := sub, faultValue := v, faultPhase := .hdWalk
        src := ⟨s.src.bits, s.src.pos + w.length⟩
        trace := s.trace ++ ts } := by
  rw [← hp]
  rfl

/-! ## One item (42_header_deserializer R132 to R136) -/

/-- A tag 1 and its field: a fault of range, or a leaf, which is a finished subtree. -/
theorem hdReadLeaf_eq {s : State} {y : Sym} {x : Bits} (h0 : s.need ≠ 0)
    (hx : s.unread = true :: (bitsOf 9 y.toNat ++ x)) :
    hdReadLeaf y s =
      if 256 < y.toNat then
        .next (raise .malformedHeader .symbolRange (zext32 y)
          (sourceRead (Tree.leaf y).ser (headerReads (.leaf y)) s))
      else hdFinish (.leaf y) (headerRead (.leaf y) s) := by
  obtain ⟨hv, h9, hs⟩ := srcAfter_leaf hx
  simp only [hdReadLeaf, if_neg h0, srcRead_eq, hv, h9, hs, ne_eq, not_true_eq_false, if_false]
  rfl

section
variable {s : State} (hp : s.phase = .hdWalk) (h0 : s.need ≠ 0)
include hp h0

theorem exec_headerTagZero {x : Bits} (hx : s.unread = false :: x) :
    exec .n s = .next
      (if s.leafCnt + s.need = NSYM then
        raise .malformedHeader .capacity 0 (sourceRead [false] [.srcRead 1 (some 0)] s)
      else nodeOpened s) := by
  have hv : srcPeek 1 s = some 0 := srcPeek_one.mpr ⟨x, hx⟩
  have hs : srcAfter 1 s = sourceRead [false] [.srcRead 1 (some 0)] s := srcAfter_bit hx
  by_cases hc : s.leafCnt + s.need = NSYM
  · simp only [exec, execN, hp, hdReadNode, if_neg h0, srcRead_eq, hv, srcAfter_leafCnt,
      srcAfter_need, hc, if_true]
    rw [hs]
  · simp only [exec, execN, hp, hdReadNode, if_neg h0, srcRead_eq, hv, srcAfter_leafCnt,
      srcAfter_need, hc, if_false]
    rw [hs]
    rfl

theorem exec_headerSymbol {y : Sym} {x : Bits} (hx : s.unread = true :: (bitsOf 9 y.toNat ++ x))
    (hy : y.toNat ≤ 256) : exec (.l y) s = hdFinish (.leaf y) (headerRead (.leaf y) s) := by
  simp only [exec, execL, hp, hdReadLeaf_eq h0 hx, if_neg (Nat.not_lt.mpr hy)]

theorem exec_headerReserved {y : Sym} {x : Bits} (hx : s.unread = true :: (bitsOf 9 y.toNat ++ x))
    (hy : 256 < y.toNat) :
    exec (.lReserved y) s = .next (raise .malformedHeader .symbolRange (zext32 y)
      (sourceRead (Tree.leaf y).ser (headerReads (.leaf y)) s)) := by
  simp only [exec, execLReserved, hp, hdReadLeaf_eq h0 hx, if_pos hy]

theorem exec_headerEodTag (hx : s.unread = []) :
    exec .eodAtHdrTag s =
      .next (raise .truncatedStream .eodHdrTag 0 (sourceRead [] [.srcRead 1 none] s)) := by
  have hs : srcAfter 1 s = sourceRead [] [.srcRead 1 none] s :=
    srcAfter_eod (by rw [hx]; exact Nat.one_pos)
  simp only [exec, execEodAtHdrTag, hp, hdEodTag, if_neg h0, srcRead_eq, srcPeek_one_none.mpr hx, hs]

theorem exec_headerEodSym {x : Bits} (hx : s.unread = true :: x) (hl : x.length < 9) :
    exec .eodAtHdrSym s = .next (raise .truncatedStream .eodHdrSym 0
      (sourceRead [true] [.srcRead 1 (some 1), .srcRead 9 none] s)) := by
  have hv : srcPeek 1 s = some 1 := srcPeek_one.mpr ⟨x, hx⟩
  have hl1 : (srcAfter 1 s).unread.length < 9 := by rwa [srcAfter_one_unread hx]
  have hs : srcAfter 9 (srcAfter 1 s) =
      sourceRead [true] [.srcRead 1 (some 1), .srcRead 9 none] s := by
    rw [srcAfter_eod hl1, srcAfter_bit hx]
    simp [sourceRead]
  simp only [exec, execEodAtHdrSym, hp, hdEodSym, if_neg h0, srcRead_eq, hv, srcPeek_short hl1, hs]

end

/-- Settles O18: the tag is consumed, and the capacity check decides. -/
theorem headerNodeRead : Obligations.HeaderNodeRead := by
  intro s x hp h0 hx
  have hexec := exec_headerTagZero hp (Nat.one_le_iff_ne_zero.mp h0) hx
  refine ⟨fun hc => ?_, fun hc => ?_⟩
  · rw [hexec, if_neg hc]
    rfl
  · rw [hexec, if_pos hc, raise_sourceRead hp]
    rfl

/-- The chains with `HD_WALK` go on to `DONE` or to the body (10_state R41). -/
theorem nextPhase_hdWalk_iff {c : Command} {p : Phase} :
    nextPhase c .hdWalk = some p ↔
      (c = .hdRun ∧ p = .done) ∨ (c = .decompress ∧ p = .decStart) := by
  refine ⟨nextPhase_hdWalk, ?_⟩
  rintro (⟨rfl, rfl⟩ | ⟨rfl, rfl⟩) <;> rfl

/-- Settles O19: what the reduction of the finished left subtrees ends in is `hdReduce_lefts_awaitLeft` or `hdReduce_lefts`. -/
theorem headerLeafRead : Obligations.HeaderLeafRead := by
  intro s y x hp h0 hx
  have hne := Nat.one_le_iff_ne_zero.mp h0
  refine ⟨fun hy ls => ⟨fun rest hst => ?_, fun p hst hc => ?_⟩, fun hy => ?_⟩
  · have hr := hdReduce_lefts_awaitLeft ls rest (.leaf y)
    rw [← hst] at hr
    rw [exec_headerSymbol hp hne hx hy, hdFinish_pending (s := headerRead _ s) hr, headerRead_leaf]
    rfl
  · have hr := hdReduce_lefts ls (.leaf y)
    have hn := nextPhase_hdWalk_iff.mpr hc
    rw [← hst] at hr
    rw [← hp] at hn
    rw [exec_headerSymbol hp hne hx hy, hdFinish_closed (s := headerRead _ s) hr hn, headerRead_leaf]
    rfl
  · rw [exec_headerReserved hp hne hx hy, raise_sourceRead hp]
    rfl

/-- Settles O20: the tag is missing, or the field after it. -/
theorem headerTruncated : Obligations.HeaderTruncated := by
  intro s hp h0
  have hne := Nat.one_le_iff_ne_zero.mp h0
  refine ⟨fun hx => ?_, fun x hx hl => ?_⟩
  · rw [exec_headerEodTag hp hne hx, raise_sourceRead hp]
    rfl
  · rw [exec_headerEodSym hp hne hx hl, raise_sourceRead hp]
    rfl

/-! ## A whole header (42_header_deserializer R130, R137, R141) -/

/-- In `HD_WALK` the item that stands first in the unread source is the one that runs. -/
theorem step_headerItem {s : State} {x rest : Bits} {i : Instr} (hq : Quiet s)
    (hp : s.phase = .hdWalk) (hx : s.unread = x) (h : decodeHeader x = (i, rest)) :
    step s = exec i s :=
  step_of_decode hq (.inr (.inl ⟨hp, rfl⟩)) (congrArg Except.ok (hx ▸ h))

theorem step_nodeOpened {s : State} {x : Bits} (hq : Quiet s) (hp : s.phase = .hdWalk)
    (h0 : s.need ≠ 0) (hx : s.unread = false :: x) (hc : s.leafCnt + s.need ≠ NSYM) :
    step s = .next (nodeOpened s) := by
  rw [step_headerItem hq hp hx (decodeHeader_false x), exec_headerTagZero hp h0 hx, if_neg hc]

theorem run_one (s : State) : run 1 s = step s := by
  rw [run_succ]
  cases step s <;> rfl

/-- The header of a tree that fits is read in one step per node, and the tree is then a finished subtree. -/
theorem run_headerRead {t : Tree} {s : State} {x : Bits} (hq : Quiet s) (hp : s.phase = .hdWalk)
    (h0 : s.need ≠ 0) (hx : s.unread = t.ser ++ x) (ht : Fits t s.leafCnt s.need) :
    run t.nodes s = hdFinish t (headerRead t s) := by
  induction t generalizing s x with
  | leaf y =>
    have hy : y.toNat ≤ 256 := ht.1 y (List.mem_singleton_self y)
    have hitem := decodeHeader_leaf y x
    rw [if_pos hy] at hitem
    rw [Tree.nodes, run_one, step_headerItem hq hp hx hitem, exec_headerSymbol hp h0 hx hy]
  | node l r ihl ihr =>
    obtain ⟨hl, hr⟩ := fits_node.mp ht
    rw [Tree.ser_node, List.cons_append, List.append_assoc] at hx
    have hopen : step s = .next (nodeOpened s) := step_nodeOpened hq hp h0 hx ht.node_capacity
    have hleft : run l.nodes (nodeOpened s) = hdFinish l (headerRead l (nodeOpened s)) :=
      ihl hq hp (Nat.succ_ne_zero s.need) (nodeOpened_unread hx) hl
    have hright : run r.nodes (leftRead l s) = hdFinish r (headerRead r (leftRead l s)) :=
      ihr hq hp h0 (leftRead_unread hx) hr
    rw [Tree.nodes, run_succ, hopen, andThen_next, run_add, hleft, hdFinish_left, andThen_next,
      hright, hdFinish_right]

/-- The reader raises `e` after it has read the bits `w`. -/
def FaultsAfter (e : Raised) (w : Bits) (s : State) : Prop :=
  ∃ fs k n ts, Reaches s (raise e.kind e.sub e.value (readerAt fs k n w ts s))

theorem FaultsAfter.of_step {e : Raised} {w : Bits} {ts : List Transaction} {s : State}
    (h : step s = .next (raise e.kind e.sub e.value (sourceRead w ts s))) : FaultsAfter e w s :=
  ⟨s.hdStack, s.leafCnt, s.need, ts, .of_step h (.refl _)⟩

theorem FaultsAfter.of_reaches {e : Raised} {fs : List HdFrame} {k n : Nat} {w w' : Bits}
    {ts : List Transaction} {s : State} (hs : Reaches s (readerAt fs k n w ts s))
    (h : FaultsAfter e w' (readerAt fs k n w ts s)) : FaultsAfter e (w ++ w') s := by
  obtain ⟨fs', k', n', ts', hr⟩ := h
  rw [readerAt_readerAt] at hr
  exact ⟨fs', k', n', _, hs.trans hr⟩

/-- Where `des` fails, the reader raises the same fault after the same bits (42 R141). -/
theorem faultsAfter_of_headerFails {c n : Nat} {e : Raised} {w z : Bits}
    (h : HeaderFails c n e w z) {s : State} (hq : Quiet s) (hp : s.phase = .hdWalk)
    (h0 : s.need ≠ 0) (hx : s.unread = w ++ z) (hc : s.leafCnt = c) (hn : s.need = n) :
    FaultsAfter e w s := by
  induction h generalizing s with
  | eodTag c n =>
    apply FaultsAfter.of_step
    rw [step_headerItem hq hp hx decodeHeader_nil, exec_headerEodTag hp h0 hx]
  | capacity z hcap =>
    apply FaultsAfter.of_step
    rw [step_headerItem hq hp hx (decodeHeader_false z), exec_headerTagZero hp h0 hx, hc, hn,
      if_pos hcap]
  | eodSym c n hz =>
    apply FaultsAfter.of_step
    rw [step_headerItem hq hp hx (decodeHeader_short hz), exec_headerEodSym hp h0 hx hz]
  | @range c n y z hy =>
    have hitem := decodeHeader_leaf y z
    rw [if_neg (Nat.not_le.mpr hy)] at hitem
    apply FaultsAfter.of_step
    rw [step_headerItem hq hp hx hitem, exec_headerReserved hp h0 hx hy]
    rfl
  | left hcap h ih =>
    subst hc hn
    refine .of_reaches (w := [false]) (.of_step (step_nodeOpened hq hp h0 hx hcap) (.refl _)) ?_
    exact ih hq hp (Nat.succ_ne_zero s.need) (nodeOpened_unread hx) rfl rfl
  | right l hcap hl h ih =>
    subst hc hn
    rw [List.cons_append, List.append_assoc] at hx
    have hleft : run l.nodes (nodeOpened s) = .next (leftRead l s) :=
      (run_headerRead (s := nodeOpened s) hq hp (Nat.succ_ne_zero s.need) (nodeOpened_unread hx)
        hl).trans (hdFinish_left l s)
    refine .of_reaches (w := false :: l.ser)
      (.of_step (step_nodeOpened hq hp h0 hx hcap) ⟨_, hleft⟩) ?_
    exact ih hq hp h0 (leftRead_unread hx) rfl rfl

/-- Settles O50: after the acceptance the reader reads the tree that `des` reads, or raises the fault in which `des` ends (`des_cases`). -/
theorem hdRunIsDes : Obligations.HdRunIsDes := by
  intro s hr hp
  have hstart := step_present (c := .hdRun) hr (.hdRun ((accepting_iff _).mpr hp))
  obtain ⟨t, z, hx, ht, hdes⟩ | ⟨e, w, hdes, hx, hfails⟩ := des_cases s.unread
  · have hrun := run_headerRead
      (s := startCommand .hdRun (clearForRead (clearPort (s.presentCommand .hdRun))))
      ⟨hr, rfl⟩ rfl Nat.one_ne_zero hx (fits_zero_one.mpr ht)
    rw [hdFinish_closed (p := .done) rfl rfl] at hrun
    have hlen : s.unread.length - z.length = t.ser.length := by
      rw [hx, List.length_append, Nat.add_sub_cancel]
    rw [hdes]
    refine ⟨_, .of_step hstart ⟨_, hrun⟩, ?_⟩
    rw [hlen, ← Nat.zero_add t.nleaves]
    rfl
  · obtain ⟨fs, k, n, ts, hreach⟩ := faultsAfter_of_headerFails hfails
      (s := startCommand .hdRun (clearForRead (clearPort (s.presentCommand .hdRun))))
      ⟨hr, rfl⟩ rfl Nat.one_ne_zero hx rfl rfl
    have hlen : s.unread.length - (desLeft s.unread 0 1).length = w.length := by
      have hl := congrArg List.length hx
      rw [List.length_append] at hl
      omega
    rw [hdes]
    refine ⟨_, .of_step hstart hreach, ?_⟩
    rw [hlen]
    rfl

end Sys2Proof.Machine
end

section
/-! SUPPORT. huffman_encoder: what the rule of each of its phases makes of the state (43_encoder R151 to R158). -/

namespace Sys2Proof.Machine

/-! ## The magic word (43_encoder R154) -/

/-- Settles O17: the word is appended, and the walk of the header comes next. -/
theorem magicWritten : Obligations.MagicWritten := by
  intro s hp ho
  simp only [exec, execMagic, hp, encWriteMagic, snkWrite_open _ _ ho, andThen_next,
    snkAppend_open _ _ ho]
  rfl

/-! ## The code table and the rewind (43_encoder R151 to R153, R155) -/

/-- A symbol has a code exactly when a leaf has it (43 R153 (b)). -/
theorem codeOf_eq_none {t : Tree} {y : Sym} : codeOf t y = none ↔ y ∉ t.leaves := by
  rw [codeOf_eq_lastFor, lastFor_eq_none, Tree.codes_fst]

theorem step_encTable {s : State} {t : Tree} (hq : Quiet s) (hp : s.phase = .encTable)
    (hv : s.treeValid = true) (ht : s.tree = some t) :
    step s = .next
      { s with phase := .encRewind, code := tableOf t s, tableValid := true, encStack := [] } := by
  rw [step_of_case hq (.encTable t hp (readTree_eq_some.mpr ⟨hv, ht⟩)), encVisits_eq_tableOf]
  rfl

theorem step_rewind {s : State} (hq : Quiet s) (hp : s.phase = .encRewind) :
    step s = .next
      { s with
        phase := .encBody
        src := ⟨s.src.bits, 0⟩
        trace := s.trace ++ [.srcRewind] } :=
  step_of_case hq (.rewind hp)

/-- Settles O31: the table is `tableOf`, whose entries are the codes of the tree. -/
theorem codeTableBuilt : Obligations.CodeTableBuilt := by
  refine fun s hq => ⟨fun t hp hv ht => ⟨tableOf t s, step_encTable hq hp hv ht, fun y hy => ?_⟩,
    step_rewind hq⟩
  rw [tableOf_get t s hy]
  exact ⟨rfl, codeOf_eq_none, fun p => sub_of_codeOf⟩

/-! ## The codes (43_encoder R156, R157) -/

theorem emitCode_open {p : Bits} {s : State} (ho : s.snk.closed = false) :
    emitCode p s = .next
      { s with snk := ⟨s.snk.bits ++ p, false⟩, trace := s.trace ++ codeWrites p } := by
  rw [emitCode_eq_next.mpr ⟨fun _ => ho, rfl⟩, emitted_eq_codeWrites, ho]

theorem exec_bodyCode {s : State} {v : BitVec 8} {p x : Bits} (hp : s.phase = .encBody)
    (ho : s.snk.closed = false) (hx : s.unread = bitsOf 8 v.toNat ++ x)
    (hc : s.code.get v.toNat = some p) :
    exec (.c p) s = .next
      { s with
        src := ⟨s.src.bits, s.src.pos + 8⟩
        snk := ⟨s.snk.bits ++ p, false⟩
        trace := s.trace ++ .srcRead 8 (some v.toNat) :: codeWrites p } := by
  have hpeek : srcPeek 8 s = some v.toNat := (srcPeek_word (by decide)).mpr ⟨x, hx⟩
  have hexec : exec (.c p) s = emitCode p (srcAfter 8 s) := by
    simp [exec, execC, hp, encWriteByte, srcRead_eq, hpeek, hc]
  rw [hexec, emitCode_open (s := srcAfter 8 s) ho, srcAfter_word (by decide) hx]
  simp

/-- A source byte without a code is refused where the code is to be written (43 R153 (b), R156). -/
theorem step_bodyRefused {s : State} {v : Nat} (hq : Quiet s) (hp : s.phase = .encBody)
    (hv : srcPeek 8 s = some v) (hc : s.code.get v = none) : step s = .refused .noCode := by
  rw [step_rule hq (by simp [nextItem, hp, nextBodyCode, hv, hc])]
  simp [fireRule, hp, fireEncBody, srcRead_eq, hv]

theorem step_bodyEnd {s : State} (hq : Quiet s) (hp : s.phase = .encBody)
    (hx : s.unread.length < 8) :
    step s = .next { s with phase := .encEof, trace := s.trace ++ [.srcRead 8 none] } := by
  rw [step_of_case hq (.bodyEnd hp (srcPeek_short hx)), srcAfter_eod hx]
  rfl

theorem exec_eofCode {s : State} {p : Bits} (hp : s.phase = .encEof) (ho : s.snk.closed = false)
    (hc : s.code.get 256 = some p) :
    exec (.c p) s = .next
      { s with
        phase := .encClose
        snk := ⟨s.snk.bits ++ p, false⟩
        trace := s.trace ++ codeWrites p } := by
  simp only [exec, execC, hp, encWriteEof, hc, if_true, emitCode_open ho, andThen_next]
  rfl

/-- The sentinel without a code is refused likewise (43 R157). -/
theorem step_eofRefused {s : State} (hq : Quiet s) (hp : s.phase = .encEof)
    (hc : s.code.get 256 = none) : step s = .refused .noCode := by
  rw [step_rule hq (by simp [nextItem, hp, hc])]
  simp [fireRule, hp]

/-- Settles O24: the code that the table has for the next symbol is written, and a symbol without one is refused. -/
theorem codesWritten : Obligations.CodesWritten := by
  refine fun s ho => ⟨fun hp => ⟨fun v x hx => ⟨fun p => exec_bodyCode hp ho hx, fun hc hq => ?_⟩,
    fun hx hq => step_bodyEnd hq hp hx⟩, fun hp => ⟨fun p => exec_eofCode hp ho,
    fun hc hq => step_eofRefused hq hp hc⟩⟩
  exact step_bodyRefused hq hp ((srcPeek_word (by decide)).mpr ⟨x, hx⟩) hc

/-! ## The padding (43_encoder R158, 44_decoder R176) -/

/-- Settles O26: `k` is the padding length that the close asks for. -/
theorem paddingClosesTheSink : Obligations.PaddingClosesTheSink := by
  rintro s k hp ho rfl
  have hclose : exec (.pad (padLen s.snk.bits.length)) s =
      .next (setPhase .done (snkPadded s)) := by
    rcases hp with hp | hp <;> simp [exec, execPad, hp, closeSink, snkClose_open ho]
  refine ⟨hclose, ?_⟩
  rw [List.length_append, List.length_replicate]
  exact add_padLen_mod s.snk.bits.length

end Sys2Proof.Machine
end

section
/-! SUPPORT. Progress: in the invariant a step is never stuck, and where it is refused the spec refuses (60_exceptions R210). -/

namespace Sys2Proof.Machine

/-! ## What the invariant gives each phase -/

/-- Every phase but the last has one after it (10_state R41). -/
theorem exists_nextPhase {c : Command} {p : Phase} (h : p ∈ chain c) (hp : p ≠ .done) :
    ∃ q, nextPhase c p = some q := by
  cases c <;> cases p <;> simp [chain] at h hp <;> exact ⟨_, rfl⟩

/-- A command that uses a held tree in its phases writes the sink (10_state R41, 70_reset R236). -/
theorem writesSink_of_needsTree {c : Command} {p : Phase} (h : p ∈ chain c)
    (hp : needsTree p = true) : writesSink c = true := by
  cases c <;> cases p <;> simp [chain, needsTree] at h hp <;> rfl

theorem Inv.sink_open {s : State} (hi : Inv s) (hn : needsTree s.phase = true) :
    s.snk.closed = false := by
  have hb := (busyFlag_iff s).mpr (phases_of_needsTree hn).1
  exact hi.sinkOpen hb (writesSink_of_needsTree (hi.mem_chain hb) hn)

theorem Inv.tree_held {s : State} (hi : Inv s) (hn : needsTree s.phase = true) :
    ∃ t, readTree s = some t ∧ t.legal := by
  obtain ⟨t, ht, hl⟩ := hi.treeHeld (hi.treeReady hn)
  exact ⟨t, readTree_eq_some.mpr ⟨hi.treeReady hn, ht⟩, hl⟩

theorem eq_eof_or_le {y : Sym} (h : y.toNat ≤ 256) : y = EOF_SYM ∨ y.toNat ≤ 255 := by
  by_cases hy : y.toNat = 256
  · exact .inl (BitVec.eq_of_toNat_eq hy)
  · exact .inr (by omega)

/-! ## A rule fires in each phase -/

theorem merge_progress {s : State} (hi : Inv s) (hp : s.phase = .tbMerge) :
    ∃ t, StepCase s t := by
  have hchain := hi.mem_chain ((busyFlag_iff s).mpr (by simp [hp]))
  match hpq : s.pq with
  | [] =>
    obtain ⟨-, -, -, -, -, heof⟩ := hi.queue hp
    simp [hpq] at heof
  | [e] =>
    obtain ⟨q, hn⟩ := exists_nextPhase hchain (by simp [hp])
    exact ⟨_, .built e q hp hpq (hp ▸ hn)⟩
  | a :: b :: rest =>
    have h2 : 2 ≤ s.pq.length := by simp [hpq]
    obtain ⟨pq, hm⟩ := mergeStep_some Config.policy s.seq h2
    exact ⟨_, .merge pq hp h2 hm⟩

theorem headerWrite_progress {s : State} (hi : Inv s) (hp : s.phase = .hsWalk) :
    ∃ t, StepCase s t := by
  have hn := needsTree_of_eq hp rfl
  have ho := hi.sink_open hn
  obtain ⟨t, ht, -⟩ := hi.tree_held hn
  obtain ⟨ts, hts⟩ : ∃ ts, hsPending s = some ts := by
    cases hst : s.hsStack <;> simp [hsPending, hst, ht]
  match ts, hts with
  | [], hts => exact absurd rfl (hsPending_eq_some hts).1
  | .node l r :: rest, hts => exact ⟨_, .hsNode l r rest hp hts ho⟩
  | .leaf y :: u :: rest, hts => exact ⟨_, .hsLeaf y u rest hp hts ho⟩
  | [.leaf y], hts =>
    have hchain := hi.mem_chain ((busyFlag_iff s).mpr (phases_of_needsTree hn).1)
    obtain ⟨q, hq⟩ := exists_nextPhase hchain (by simp [hp])
    exact ⟨_, .hsLast y q hp hts ho (hp ▸ hq)⟩

theorem headerRead_progress {s : State} (hi : Inv s) (hp : s.phase = .hdWalk) :
    ∃ t, StepCase s t := by
  have h0 : s.need ≠ 0 := by
    obtain ⟨hneed, -⟩ := hi.hdCounts hp
    omega
  rcases srcPeek_one_cases s with hv | hv | hv
  · exact ⟨_, .hdEodTag hp h0 hv⟩
  · by_cases hc : s.leafCnt + s.need = NSYM
    · exact ⟨_, .hdCapacity hp h0 hv hc⟩
    · exact ⟨_, .hdNode hp h0 hv hc⟩
  · cases h9 : srcPeek 9 (srcAfter 1 s) with
    | none => exact ⟨_, .hdEodSym hp h0 hv h9⟩
    | some v =>
      obtain ⟨y, rfl⟩ := srcPeek_some_word (by decide) h9
      by_cases hy : 256 < y.toNat
      · exact ⟨_, .hdRange y hp h0 hv h9 hy⟩
      · rw [Nat.not_lt] at hy
        cases hr : hdReduce s.hdStack (.leaf y) with
        | pending stack => exact ⟨_, .hdLeaf y stack hp h0 hv h9 hy hr⟩
        | closed t =>
          have hchain := hi.mem_chain ((busyFlag_iff s).mpr (by simp [hp]))
          obtain ⟨q, hq⟩ := exists_nextPhase hchain (by simp [hp])
          exact ⟨_, .hdLast y t q hp h0 hv h9 hy hr (hp ▸ hq)⟩

theorem magicRead_progress {s : State} (hp : s.phase = .decMagic) : ∃ t, StepCase s t := by
  cases hv : srcPeek 32 s with
  | none => exact ⟨_, .magicEod hp hv⟩
  | some v =>
    obtain ⟨w, rfl⟩ := srcPeek_some_word (by decide) hv
    by_cases hw : w = Config.magic
    · exact ⟨_, .magicRead hp (hw ▸ hv)⟩
    · exact ⟨_, .magicBad w hp hv hw⟩

theorem decStart_progress {s : State} (hi : Inv s) (hp : s.phase = .decStart) :
    ∃ t, StepCase s t := by
  obtain ⟨t, ht, hl⟩ := hi.tree_held (needsTree_of_eq hp rfl)
  cases t with
  | node l r => exact ⟨_, .startNode l r hp ht⟩
  | leaf y =>
    rcases eq_eof_or_le (hl.1 y (List.mem_singleton_self y)) with rfl | hy
    · exact ⟨_, .startEof hp ht⟩
    · exact ⟨_, .startByte y hp ht hy⟩

theorem decWalk_progress {s : State} (hi : Inv s) (hp : s.phase = .decWalk) :
    ∃ t, StepCase s t := by
  have hn := needsTree_of_eq hp rfl
  have ho := hi.sink_open hn
  obtain ⟨t, ht, hl⟩ := hi.tree_held hn
  obtain ⟨u, p, l, r, hu, hsub, hcur⟩ := hi.curNode hp
  obtain rfl : u = t := Option.some.inj (hu.symm.trans (readTree_eq_some.mp ht).2)
  cases hv : srcPeek 1 s with
  | none => exact ⟨_, .bitEod l r hp hcur hv⟩
  | some v =>
    obtain ⟨b, rfl⟩ : ∃ b : Bool, v = b.toNat := by
      rcases srcPeek_one_cases s with h | h | h <;> cases hv.symm.trans h
      · exact ⟨false, rfl⟩
      · exact ⟨true, rfl⟩
    have hchild := sub_childOf hsub b
    cases hx : childOf b l r with
    | node l' r' => exact ⟨_, .bitNode b l r l' r' hp hcur hv hx⟩
    | leaf y =>
      rw [hx] at hchild
      rcases eq_eof_or_le (hl.1 y (Tree.mem_leaves.mpr ⟨_, hchild⟩)) with rfl | hy
      · exact ⟨_, .bitEof b l r hp hcur hv hx⟩
      · exact ⟨_, .bitByte b l r y u hp hcur hv hx hy ht ho⟩

/-- The one situation in which no rule fires: a symbol without a code where its code is to be written (43 R153 (b)). -/
def CodeMissing (s : State) : Prop :=
  (s.phase = .encBody ∧ ∃ v, srcPeek 8 s = some v ∧ s.code.get v = none) ∨
    (s.phase = .encEof ∧ s.code.get 256 = none)

theorem step_codeMissing {s : State} (hq : Quiet s) (h : CodeMissing s) :
    step s = .refused .noCode := by
  obtain ⟨hp, v, hv, hc⟩ | ⟨hp, hc⟩ := h
  · exact step_bodyRefused hq hp hv hc
  · exact step_eofRefused hq hp hc

/-- In the invariant a rule fires unless a code is missing. -/
theorem Inv.progress {s : State} (hi : Inv s) : (∃ t, StepCase s t) ∨ CodeMissing s := by
  cases hp : s.phase with
  | idle => exact .inl ⟨s, .wait (.inl hp)⟩
  | done => exact .inl ⟨s, .wait (.inr (.inl hp))⟩
  | fault => exact .inl ⟨s, .wait (.inr (.inr hp))⟩
  | tbCount =>
    cases hv : srcPeek 8 s with
    | none => exact .inl ⟨_, .countEnd hp hv⟩
    | some v => exact .inl ⟨_, .countByte v hp hv⟩
  | tbInit => exact .inl ⟨_, .init hp⟩
  | tbMerge => exact .inl (merge_progress hi hp)
  | hsWalk => exact .inl (headerWrite_progress hi hp)
  | hdWalk => exact .inl (headerRead_progress hi hp)
  | encMagic => exact .inl ⟨_, .magicWrite hp (hi.sink_open (needsTree_of_eq hp rfl))⟩
  | encTable =>
    obtain ⟨t, ht, -⟩ := hi.tree_held (needsTree_of_eq hp rfl)
    exact .inl ⟨_, .encTable t hp ht⟩
  | encRewind => exact .inl ⟨_, .rewind hp⟩
  | encBody =>
    cases hv : srcPeek 8 s with
    | none => exact .inl ⟨_, .bodyEnd hp hv⟩
    | some v =>
      cases hc : s.code.get v with
      | none => exact .inr (.inl ⟨hp, v, hv, hc⟩)
      | some p =>
        exact .inl ⟨_, .bodyCode v p hp hv hc fun _ => hi.sink_open (needsTree_of_eq hp rfl)⟩
  | encEof =>
    cases hc : s.code.get 256 with
    | none => exact .inr (.inr ⟨hp, hc⟩)
    | some p =>
      exact .inl ⟨_, .eofCode p hp hc fun _ => hi.sink_open (needsTree_of_eq hp rfl)⟩
  | encClose => exact .inl ⟨_, .close (.inl hp) (hi.sink_open (needsTree_of_eq hp rfl))⟩
  | decClose => exact .inl ⟨_, .close (.inr hp) (hi.sink_open (needsTree_of_eq hp rfl))⟩
  | decMagic => exact .inl (magicRead_progress hp)
  | decStart => exact .inl (decStart_progress hi hp)
  | decWalk => exact .inl (decWalk_progress hi hp)

/-! ## The commands (10_state R40, 93 U8, U9) -/

/-- Why a command that is presented is refused: no tree is held, or the sink is not as the host should supply it. -/
def CommandRefused (s : State) (c : Command) (r : Refusal) : Prop :=
  (r = .treeNotValid ∧ s.treeValid = false ∧ (c = .hsRun ∨ c = .encRun ∨ c = .decRun)) ∨
    (r = .sinkNotReady ∧ writesSink c = true ∧
      (s.snk.closed = true ∨ (c ≠ .hsRun ∧ s.snk.bits ≠ [])))

theorem commandRefused_of_sink {s : State} {c : Command} (hw : writesSink c = true)
    (hc : c ≠ .hsRun) (hk : s.sinkFresh = false) : CommandRefused s c .sinkNotReady := by
  refine .inr ⟨rfl, hw, ?_⟩
  cases ho : s.snk.closed with
  | true => exact .inl rfl
  | false =>
    refine .inr ⟨hc, fun hb => ?_⟩
    exact Bool.false_ne_true (hk.symm.trans ((sinkFresh_iff s).mpr ⟨hb, ho⟩))

/-- A command is ignored, accepted or refused. -/
theorem exec_command_cases (s : State) (c : Command) :
    (∃ t, CommandCase s c t) ∨
      (s.accepting = true ∧ ∃ r, exec (decodeCommand c.code) s = .refused r ∧
        CommandRefused s c r) := by
  cases ha : s.accepting with
  | false => exact .inl ⟨_, .ignored c ha⟩
  | true =>
    cases c with
    | nop => exact .inl ⟨_, .nop⟩
    | tbRun => exact .inl ⟨_, .tbRun ha⟩
    | hdRun => exact .inl ⟨_, .hdRun ha⟩
    | compress =>
      cases hk : s.sinkFresh with
      | true => exact .inl ⟨_, .compress ha hk⟩
      | false =>
        refine .inr ⟨rfl, _, ?_, commandRefused_of_sink rfl nofun hk⟩
        simp [exec, execCompress, ha, hk]
    | decompress =>
      cases hk : s.sinkFresh with
      | true => exact .inl ⟨_, .decompress ha hk⟩
      | false =>
        refine .inr ⟨rfl, _, ?_, commandRefused_of_sink rfl nofun hk⟩
        simp [exec, execDecompress, ha, hk]
    | hsRun =>
      cases ht : s.treeValid with
      | false =>
        refine .inr ⟨rfl, _, ?_, .inl ⟨rfl, ht, .inl rfl⟩⟩
        simp [exec, execHsRun, ha, ht]
      | true =>
        cases ho : s.snk.closed with
        | false => exact .inl ⟨_, .hsRun ha ht ho⟩
        | true =>
          refine .inr ⟨rfl, _, ?_, .inr ⟨rfl, rfl, .inl ho⟩⟩
          simp [exec, execHsRun, ha, ht, ho]
    | encRun =>
      cases ht : s.treeValid with
      | false =>
        refine .inr ⟨rfl, _, ?_, .inl ⟨rfl, ht, .inr (.inl rfl)⟩⟩
        simp [exec, execEncRun, ha, ht]
      | true =>
        cases hk : s.sinkFresh with
        | true => exact .inl ⟨_, .encRun ha ht hk⟩
        | false =>
          refine .inr ⟨rfl, _, ?_, commandRefused_of_sink rfl nofun hk⟩
          simp [exec, execEncRun, ha, ht, hk]
    | decRun =>
      cases ht : s.treeValid with
      | false =>
        refine .inr ⟨rfl, _, ?_, .inl ⟨rfl, ht, .inr (.inr rfl)⟩⟩
        simp [exec, execDecRun, ha, ht]
      | true =>
        cases hk : s.sinkFresh with
        | true => exact .inl ⟨_, .decRun ha ht hk⟩
        | false =>
          refine .inr ⟨rfl, _, ?_, commandRefused_of_sink rfl nofun hk⟩
          simp [exec, execDecRun, ha, ht, hk]

/-- Every step in the invariant answers a next state, or is refused for a missing code or for the command on the port. -/
theorem Inv.step_cases {s : State} (hi : Inv s) :
    (∃ t, step s = .next t) ∨
    (Quiet s ∧ CodeMissing s ∧ step s = .refused .noCode) ∨
    (s.rst = false ∧ s.accepting = true ∧ ∃ c : Command, s.cmdPort = some c.code ∧
      ∃ r, step s = .refused r ∧ CommandRefused s c r) := by
  cases hr : s.rst with
  | true => exact .inl ⟨_, step_reset hr⟩
  | false =>
    cases hw : s.cmdPort with
    | none =>
      have hq : Quiet s := ⟨hr, hw⟩
      obtain ⟨t, h⟩ | h := hi.progress
      · exact .inl ⟨t, step_of_case hq h⟩
      · exact .inr (.inl ⟨hq, h, step_codeMissing hq h⟩)
    | some w =>
      obtain ⟨c, rfl⟩ := exists_command w
      rw [step_command hr hw]
      obtain ⟨t, h⟩ | ⟨ha, r, h, hc⟩ := exec_command_cases (clearPort s) c
      · exact .inl ⟨t, exec_of_commandCase h⟩
      · exact .inr (.inr ⟨rfl, ha, c, rfl, r, h, hc⟩)

/-- Settles O43: of the three ways a step can end in the invariant (`Inv.step_cases`) none is a fault, and two are the refusals of the spec. -/
theorem neverStuck : Obligations.NeverStuck := by
  intro s hi
  obtain ⟨t, h⟩ | ⟨hq, hmissing, h⟩ | ⟨hr, ha, c, hw, r, h, hc⟩ := hi.step_cases
  · exact ⟨by simp [h], by simp [h]⟩
  · refine ⟨by simp [h], fun r' h' => .inl ?_⟩
    cases h.symm.trans h'
    exact ⟨hq, rfl, hmissing⟩
  · refine ⟨by simp [h], fun r' h' => .inr ?_⟩
    cases h.symm.trans h'
    exact ⟨hr, ha, c, hw, hc⟩

end Sys2Proof.Machine
end

section
/-! SUPPORT. The codes of a tree and the compressed stream as data (43_encoder R151, R159, R161, R162). -/

namespace Sys2Proof.Machine

/-! ## No code begins another (43_encoder R162) -/

/-- Settles O46: no leaf stands below another, and the root is a leaf exactly when it is the only one. -/
theorem codesArePrefixFree : Obligations.CodesArePrefixFree := by
  intro t a b p q hp hq
  have ha := Tree.mem_codes.mp hp
  have hb := Tree.mem_codes.mp hq
  refine ⟨?_, fun hn => codeOf_of_mem hn hp, fun h1 => ?_, fun h2 => ?_⟩
  · rintro ⟨r, rfl⟩
    obtain rfl : r = [] := Tree.sub_leaf_append ha hb
    rw [List.append_nil, ha, Option.some.injEq, Tree.leaf.injEq] at hb
    exact ⟨(List.append_nil p).symm, hb⟩
  · have hlt := Tree.code_length_lt hp
    exact List.eq_nil_of_length_eq_zero (by omega)
  · rintro rfl
    rw [Tree.sub_nil, Option.some.injEq] at ha
    simp [ha, Tree.nleaves] at h2

/-! ## The body (43_encoder R159) -/

/-- The symbols whose codes make the body: the bytes in order, then the sentinel. -/
def bodySymbols (B : List (BitVec 8)) : List Sym := B.map (fun b => symOf b.toNat) ++ [EOF_SYM]

theorem bodySymbols_cons (b : BitVec 8) (B : List (BitVec 8)) :
    bodySymbols (b :: B) = symOf b.toNat :: bodySymbols B := rfl

theorem bodyOf_cons_eq_some {t : Tree} {b : BitVec 8} {B : List (BitVec 8)} {body : Bits} :
    bodyOf t (b :: B) = some body ↔
      ∃ p q, codeOf t (symOf b.toNat) = some p ∧ bodyOf t B = some q ∧ body = p ++ q := by
  rw [bodyOf]
  cases codeOf t (symOf b.toNat) <;> cases bodyOf t B <;> simp [eq_comm]

theorem codeOf_isSome_iff {t : Tree} {y : Sym} : (codeOf t y).isSome ↔ y ∈ t.leaves := by
  rw [← not_iff_not, ← codeOf_eq_none, Option.not_isSome_iff_eq_none]

/-- The body exists exactly when every symbol has a leaf (43 R153 (b)). -/
theorem bodyOf_isSome_iff {t : Tree} {B : List (BitVec 8)} :
    (bodyOf t B).isSome ↔ ∀ y ∈ bodySymbols B, y ∈ t.leaves := by
  induction B with
  | nil => simp [bodyOf, bodySymbols, codeOf_isSome_iff]
  | cons b B ih =>
    have hcons : (bodyOf t (b :: B)).isSome ↔
        (codeOf t (symOf b.toNat)).isSome ∧ (bodyOf t B).isSome := by
      rw [bodyOf]
      cases codeOf t (symOf b.toNat) <;> cases bodyOf t B <;> simp
    rw [hcons, codeOf_isSome_iff, ih, bodySymbols_cons, List.forall_mem_cons]

/-- The length of the code of a symbol. -/
def codeLen (t : Tree) (y : Sym) : Nat := ((codeOf t y).getD []).length

theorem bodyOf_length {t : Tree} {B : List (BitVec 8)} {body : Bits} (h : bodyOf t B = some body) :
    body.length = ((bodySymbols B).map (codeLen t)).sum := by
  induction B generalizing body with
  | nil =>
    rw [bodyOf] at h
    simp [bodySymbols, codeLen, h]
  | cons b B ih =>
    obtain ⟨p, q, hp, hq, rfl⟩ := bodyOf_cons_eq_some.mp h
    rw [bodySymbols_cons, List.map_cons, List.sum_cons, List.length_append, ih hq, codeLen, hp,
      Option.getD_some]

theorem symOf_byte_eq_iff (b : BitVec 8) (y : Sym) : symOf b.toNat = y ↔ b.toNat = y.toNat := by
  have hb : (symOf b.toNat).toNat = b.toNat := symOf_toNat (by omega)
  rw [← BitVec.toNat_inj, hb]

/-- The counts of a source are those of the symbols of its body (40 R105). -/
theorem countsOf_get_eq_count_symbols (B : List (BitVec 8)) {y : Sym} (hy : y.toNat ≤ 256) :
    (countsOf B).get y.toNat = (bodySymbols B).count y := by
  have hbytes : (B.map fun b => symOf b.toNat).count y =
      B.countP fun b => decide (b.toNat = y.toNat) := by
    rw [List.count, List.countP_map]
    refine List.countP_congr fun b _ => ?_
    rw [Function.comp_apply, beq_iff_eq, decide_eq_true_eq, symOf_byte_eq_iff]
  rw [countsOf_get B (by omega), bodySymbols, List.count_append, hbytes]
  rcases eq_eof_or_le hy with rfl | hle
  · have hzero : (B.countP fun b => decide (b.toNat = EOF_SYM.toNat)) = 0 := by
      rw [List.countP_eq_zero]
      intro b _
      have := b.isLt
      simp only [eof_toNat, decide_eq_true_eq]
      omega
    rw [hzero]
    simp
  · have hne : y.toNat ≠ 256 := by omega
    rw [if_neg hne, List.count_singleton, if_neg (by simpa using (ne_eof_of_le hle).symm),
      Nat.add_zero]

/-- In a tree without a symbol twice the weighted path length is the sum of count times code length over its leaves (40 R111 (d)). -/
theorem wpl_eq_sum_leaves {t : Tree} (tbl : CountTable) (hn : t.leaves.Nodup) :
    wpl tbl t = (t.leaves.map fun y => tbl.get y.toNat * codeLen t y).sum := by
  rw [wpl, ← Tree.codes_fst, List.map_map]
  refine congrArg List.sum (List.map_congr_left fun q hq => ?_)
  rw [Function.comp_apply, codeLen, codeOf_of_mem hn hq, Option.getD_some]

/-- A sum over a list, gathered by the elements of a list without repeats that has them all. -/
theorem sum_map_eq_sum_count {α : Type} [DecidableEq α] (f : α → Nat) {l k : List α}
    (hk : k.Nodup) (hl : ∀ a ∈ l, a ∈ k) :
    (l.map f).sum = (k.map fun a => l.count a * f a).sum := by
  have hsub : l.toFinset ⊆ k.toFinset := fun a ha =>
    List.mem_toFinset.mpr (hl a (List.mem_toFinset.mp ha))
  calc (l.map f).sum = ∑ a ∈ l.toFinset, l.count a * f a := Finset.sum_list_map_count l f
    _ = ∑ a ∈ k.toFinset, l.count a * f a := by
      refine Finset.sum_subset hsub fun a _ ha => ?_
      rw [List.count_eq_zero_of_not_mem (mt List.mem_toFinset.mpr ha), Nat.zero_mul]
    _ = (k.map fun a => l.count a * f a).sum := List.sum_toFinset _ hk

/-! ## The length of a stream (43_encoder R161) -/

/-- What an admissible tree of a source has (40 R111 (a), 10_state R22): no symbol twice, the symbols of the body and no other of 0 to 256, and it is legal. -/
theorem greedy_facts {B : List (BitVec 8)} {t : Tree} (h : Greedy (countsOf B) t) :
    t.leaves.Nodup ∧ (∀ y ∈ bodySymbols B, y ∈ t.leaves) ∧ t.legal := by
  obtain ⟨order, w, ho, hg⟩ := h
  obtain ⟨hn, hmem, -, -, hl, -⟩ := greedyTrees (countsOf B) order w t ho hg
  refine ⟨hn, fun y hy => (hmem y).mpr ?_, hl⟩
  have hle : y.toNat ≤ 256 := by
    simp only [bodySymbols, List.mem_append, List.mem_map, List.mem_singleton] at hy
    rcases hy with ⟨b, -, rfl⟩ | rfl
    · have := b.isLt
      rw [symOf_toNat (by omega)]
      omega
    · exact Nat.le_refl 256
  rw [countsOf_get_eq_count_symbols B hle]
  exact ⟨hle, List.count_pos_iff.mpr hy⟩

/-- The body of an admissible tree is as long as its weighted path length (40 R111 (d), 43 R161). -/
theorem bodyOf_length_eq_wpl {B : List (BitVec 8)} {t : Tree} {body : Bits}
    (h : Greedy (countsOf B) t) (hb : bodyOf t B = some body) :
    body.length = wpl (countsOf B) t := by
  obtain ⟨hn, hmem, hl⟩ := greedy_facts h
  rw [bodyOf_length hb, sum_map_eq_sum_count (codeLen t) hn hmem, wpl_eq_sum_leaves _ hn]
  refine congrArg List.sum (List.map_congr_left fun y hy => ?_)
  rw [countsOf_get_eq_count_symbols B (hl.1 y hy)]

theorem padded_length (x : Bits) : (padded x).length = 8 * ((x.length + 7) / 8) := by
  rw [padded, List.length_append, List.length_replicate, padLen]
  omega

/-- Settles O58: the header is counted by leaves and the body by the counts of its symbols. -/
theorem outputLength : Obligations.OutputLength := by
  intro magic B t body h hb
  have hlen : (streamOf magic t body).length =
      32 + (11 * t.nleaves - 1) + wpl (countsOf B) t := by
    have hser := t.ser_length_add_one
    rw [streamOf, List.length_append, List.length_append, bitsOf_length, bodyOf_length_eq_wpl h hb]
    omega
  exact ⟨hlen, by rw [padded_length, hlen]⟩

end Sys2Proof.Machine
end

section
/-! SUPPORT. huffman_encoder: the run from the magic word to the closed sink, and the commands `ENC_RUN` and `COMPRESS` (43_encoder R150 to R160). -/

namespace Sys2Proof.Machine

/-! ## The body pass (43_encoder R156, R157) -/

/-- `CODE` holds the codes of the tree (43 R152). -/
def TableHolds (t : Tree) (tbl : CodeTable) : Prop :=
  ∀ a : Sym, a.toNat ≤ 256 → tbl.get a.toNat = codeOf t a

theorem TableHolds.get_byte {t : Tree} {tbl : CodeTable} (h : TableHolds t tbl) (b : BitVec 8) :
    tbl.get b.toNat = codeOf t (symOf b.toNat) := by
  have hb : (symOf b.toNat).toNat = b.toNat := symOf_toNat (by omega)
  rw [← h (symOf b.toNat) (by omega), hb]

theorem TableHolds.get_eof {t : Tree} {tbl : CodeTable} (h : TableHolds t tbl) :
    tbl.get 256 = codeOf t EOF_SYM := h EOF_SYM (Nat.le_refl 256)

/-- The run comes to a step that is refused for a missing code (43 R153 (b)). -/
def EndsWithoutCode (s : State) : Prop := ∃ v, Reaches s v ∧ step v = .refused .noCode

theorem EndsWithoutCode.of_reaches {s u : State} (h : Reaches s u) (hu : EndsWithoutCode u) :
    EndsWithoutCode s := by
  obtain ⟨v, hv, hr⟩ := hu
  exact ⟨v, h.trans hv, hr⟩

/-- The state after a source byte has been read and its code written. -/
def byteEncoded (b : BitVec 8) (p : Bits) (s : State) : State :=
  { s with
    src := ⟨s.src.bits, s.src.pos + 8⟩
    snk := ⟨s.snk.bits ++ p, false⟩
    trace := s.trace ++ .srcRead 8 (some b.toNat) :: codeWrites p }

theorem step_byteEncoded {s : State} {b : BitVec 8} {p x : Bits} (hq : Quiet s)
    (hp : s.phase = .encBody) (ho : s.snk.closed = false) (hx : s.unread = bitsOf 8 b.toNat ++ x)
    (hc : s.code.get b.toNat = some p) : step s = .next (byteEncoded b p s) := by
  have hv : srcPeek 8 s = some b.toNat := (srcPeek_word (by decide)).mpr ⟨x, hx⟩
  rw [step_item hq (i := .c p) (by simp [nextItem, hp, nextBodyCode, hv, hc])]
  exact exec_bodyCode hp ho hx hc

theorem step_eofEncoded {s : State} {p : Bits} (hq : Quiet s) (hp : s.phase = .encEof)
    (ho : s.snk.closed = false) (hc : s.code.get 256 = some p) :
    step s = .next
      { s with
        phase := .encClose
        snk := ⟨s.snk.bits ++ p, false⟩
        trace := s.trace ++ codeWrites p } := by
  rw [step_item hq (i := .c p) (by simp [nextItem, hp, hc])]
  exact exec_eofCode hp ho hc

/-- The body pass over the bytes `B` and the sentinel, `body` being their codes. -/
def bodyWritten (t : Tree) (B : List (BitVec 8)) (body : Bits) (s : State) : State :=
  { s with
    phase := .encClose
    src := ⟨s.src.bits, s.src.pos + 8 * B.length⟩
    snk := ⟨s.snk.bits ++ body, false⟩
    trace := s.trace ++ (bodyTransactions t B ++ codeWrites ((codeOf t EOF_SYM).getD [])) }

theorem bodyWritten_byteEncoded (t : Tree) (b : BitVec 8) (B : List (BitVec 8)) {p : Bits}
    (q : Bits) (s : State) (hp : codeOf t (symOf b.toNat) = some p) :
    bodyWritten t B q (byteEncoded b p s) = bodyWritten t (b :: B) (p ++ q) s := by
  simp [bodyWritten, byteEncoded, bodyTransactions, hp, Nat.mul_add, Nat.add_assoc, Nat.add_comm 8]

/-- In `ENC_BODY` the bytes that stand unread are encoded in turn, and then the sentinel; or the run comes to the first symbol without a code. -/
theorem run_body {s : State} {t : Tree} {B : List (BitVec 8)} {tail : Bits} (hq : Quiet s)
    (hp : s.phase = .encBody) (ho : s.snk.closed = false) (htab : TableHolds t s.code)
    (hx : s.unread = bitsOfBytes B ++ tail) (ht : tail.length < 8) :
    (∀ body, bodyOf t B = some body → Reaches s (bodyWritten t B body s)) ∧
      (bodyOf t B = none → EndsWithoutCode s) := by
  induction B generalizing s with
  | nil =>
    have hend := step_bodyEnd hq hp (by rw [hx]; exact ht)
    refine ⟨fun body hb => .of_step hend ?_, fun hb => .of_reaches (.of_step hend (.refl _)) ?_⟩
    · have hc : s.code.get 256 = some body := htab.get_eof.trans hb
      have heof := step_eofEncoded
        (s := { s with phase := .encEof, trace := s.trace ++ [.srcRead 8 none] }) hq rfl ho hc
      refine .of_step heof ?_
      rw [bodyOf] at hb
      simpa [bodyWritten, bodyTransactions, hb] using Reaches.refl _
    · exact ⟨_, .refl _, step_eofRefused hq rfl (htab.get_eof.trans hb)⟩
  | cons b B ih =>
    rw [bitsOfBytes_cons, List.append_assoc] at hx
    cases hc : codeOf t (symOf b.toNat) with
    | none =>
      have hpeek : srcPeek 8 s = some b.toNat := (srcPeek_word (by decide)).mpr ⟨_, hx⟩
      have hnone : bodyOf t (b :: B) = none := by rw [bodyOf, hc]
      refine ⟨fun body hb => absurd (hnone.symm.trans hb) nofun, fun _ => ⟨s, .refl s, ?_⟩⟩
      exact step_bodyRefused hq hp hpeek ((htab.get_byte b).trans hc)
    | some p =>
      have hstep := step_byteEncoded hq hp ho hx ((htab.get_byte b).trans hc)
      obtain ⟨hsome, hnone⟩ := ih (s := byteEncoded b p s) hq hp rfl htab
        (drop_of_unread hx (bitsOf_length 8 _))
      refine ⟨fun body hb => ?_, fun hb => .of_reaches (.of_step hstep (.refl _)) (hnone ?_)⟩
      · obtain ⟨p', q, hp', hbody, rfl⟩ := bodyOf_cons_eq_some.mp hb
        cases hc.symm.trans hp'
        rw [← bodyWritten_byteEncoded t b B q s hc]
        exact .of_step hstep (hsome q hbody)
      · rw [bodyOf, hc] at hb
        cases hr : bodyOf t B with
        | none => rfl
        | some q => simp [hr] at hb

/-! ## The whole stream (43_encoder R150, R159) -/

/-- The magic word, the header and the table: the state at the start of the body pass. -/
def bodyStarted (t : Tree) (tbl : CodeTable) (s : State) : State :=
  { s with
    phase := .encBody
    code := tbl, tableValid := true, encStack := []
    src := ⟨s.src.bits, 0⟩
    snk := ⟨s.snk.bits ++ (bitsOf 32 Config.magic.toNat ++ t.ser), false⟩
    trace := s.trace ++ .snkWrite 32 Config.magic.toNat :: (headerWrites t ++ [.srcRewind]) }

/-- The state after the magic word has been written. -/
def magicAppended (s : State) : State :=
  { s with
    phase := .hsWalk
    snk := ⟨s.snk.bits ++ bitsOf 32 Config.magic.toNat, false⟩
    trace := s.trace ++ [.snkWrite 32 Config.magic.toNat] }

theorem step_magicAppended {s : State} (hq : Quiet s) (hp : s.phase = .encMagic)
    (ho : s.snk.closed = false) : step s = .next (magicAppended s) := by
  rw [step_item hq (i := .magic) (by simp [nextItem, hp])]
  exact magicWritten s hp ho

/-- The state after the header has been written. -/
def headerAppended (t : Tree) (s : State) : State :=
  setPhase .encTable (headerWritten t [] (magicAppended s))

theorem reaches_headerAppended {s : State} {t : Tree} (hq : Quiet s) (hp : s.phase = .encMagic)
    (hn : nextPhase s.cmd .hsWalk = some .encTable) (hst : s.hsStack = [])
    (hv : s.treeValid = true) (ht : s.tree = some t) (ho : s.snk.closed = false) :
    Reaches s (headerAppended t s) :=
  .of_step (step_magicAppended hq hp ho) ⟨_, run_header (s := magicAppended s) hq rfl
    (hsPending_of_top (.inr ⟨hst, rfl, hv, ht⟩)) rfl (.inr ⟨rfl, hn⟩)⟩

theorem reaches_bodyStarted {s : State} {t : Tree} (hq : Quiet s) (hp : s.phase = .encMagic)
    (hn : nextPhase s.cmd .hsWalk = some .encTable) (hst : s.hsStack = [])
    (hv : s.treeValid = true) (ht : s.tree = some t) (ho : s.snk.closed = false) :
    ∃ tbl, TableHolds t tbl ∧ Reaches s (bodyStarted t tbl s) := by
  refine ⟨tableOf t (headerAppended t s), fun a => tableOf_get t _,
    (reaches_headerAppended hq hp hn hst hv ht ho).trans
      (.of_step (step_encTable (s := headerAppended t s) hq rfl hv ht)
        (.of_step (step_rewind hq rfl) ?_))⟩
  simpa [bodyStarted, headerAppended, magicAppended, setPhase, headerWritten, hst] using
    Reaches.refl _

theorem step_encClosed {s : State} (hq : Quiet s) (hp : s.phase = .encClose)
    (ho : s.snk.closed = false) :
    step s = .next
      { s with
        phase := .done
        snk := ⟨padded s.snk.bits, true⟩
        trace := s.trace ++ [.snkClose] } :=
  step_of_case hq (.close (.inl hp) ho)

/-- The state after the whole encoding pass with the output `y`. -/
def encoded (t : Tree) (B : List (BitVec 8)) (tbl : CodeTable) (y : Bits) (s : State) : State :=
  { s with
    phase := .done
    code := tbl, tableValid := true, encStack := []
    src := ⟨s.src.bits, 8 * B.length⟩
    snk := ⟨y, true⟩
    trace := s.trace ++ encodeTransactions Config.magic t B }

/-- From `ENC_MAGIC` on an empty open sink the encoder writes `enc(t, B)` of the whole source, wherever it stands; or it comes to the first symbol without a code (43 R159). -/
theorem run_encoding {s : State} {t : Tree} {B : List (BitVec 8)} {tail : Bits} (hq : Quiet s)
    (hp : s.phase = .encMagic) (hn : nextPhase s.cmd .hsWalk = some .encTable)
    (hst : s.hsStack = []) (hv : s.treeValid = true) (ht : s.tree = some t)
    (hk : s.snk = ⟨[], false⟩) (hx : s.src.bits = bitsOfBytes B ++ tail) (hl : tail.length < 8) :
    (∀ y, enc Config.magic t B = some y →
      ∃ tbl, TableHolds t tbl ∧ Reaches s (encoded t B tbl y s)) ∧
      (enc Config.magic t B = none → EndsWithoutCode s) := by
  obtain ⟨tbl, htab, hstart⟩ := reaches_bodyStarted hq hp hn hst hv ht (by rw [hk])
  obtain ⟨hsome, hnone⟩ := run_body (s := bodyStarted t tbl s) hq rfl rfl htab hx hl
  refine ⟨fun y hy => ⟨tbl, htab, ?_⟩, fun hy => .of_reaches hstart (hnone ?_)⟩
  · obtain ⟨body, hb, rfl⟩ := Option.map_eq_some_iff.mp hy
    have hclose := step_encClosed (s := bodyWritten t B body (bodyStarted t tbl s)) hq rfl rfl
    refine hstart.trans ((hsome body hb).trans (.of_step hclose ?_))
    simpa [encoded, bodyWritten, bodyStarted, hk, streamOf, encodeTransactions] using Reaches.refl _
  · exact Option.map_eq_none_iff.mp hy

/-! ## The commands (43_encoder R150, R160) -/

/-- Settles O52: the acceptance clears the table, and the encoding pass makes it again. -/
theorem encRunWritesEnc : Obligations.EncRunWritesEnc := by
  intro s t B tail hr hp hst hv ht hk hx hl
  have hstart := step_present (c := .encRun) hr
    (.encRun ((accepting_iff _).mpr hp) hv (sinkFresh_eq.mpr hk))
  obtain ⟨hsome, hnone⟩ := run_encoding
    (s := startCommand .encRun (clearTable (clearPort (s.presentCommand .encRun))))
    ⟨hr, rfl⟩ rfl rfl hst hv ht hk hx hl
  refine ⟨fun y hy => ?_, fun hy =>
    EndsWithoutCode.of_reaches (.of_step hstart (.refl _)) (hnone hy)⟩
  obtain ⟨tbl, htab, hrun⟩ := hsome y hy
  exact ⟨tbl, htab, .of_step hstart hrun⟩

/-- Every symbol of a source has a code in an admissible tree of its counts (40 R111 (a), 43 R160). -/
theorem greedy_bodyOf {B : List (BitVec 8)} {t : Tree} (h : Greedy (countsOf B) t) :
    ∃ body, bodyOf t B = some body :=
  Option.isSome_iff_exists.mp (bodyOf_isSome_iff.mpr (greedy_facts h).2.1)

/-- `COMPRESS` with its tree made and the encoding pass before it. -/
def compressBuilt (B : List (BitVec 8)) (t : Tree) (q : Nat) (s : State) : State :=
  { s with
    cmdPort := none, cmd := .compress, phase := .encMagic
    count := countsOf B, countValid := true
    tree := some t, treeValid := true, treeOrigin := .built
    pq := [], seq := q
    code := Vector.replicate 257 none, tableValid := false
    src := ⟨s.src.bits, s.src.pos + 8 * B.length⟩
    trace := s.trace ++ countTransactions B }

theorem reaches_compressBuilt {s : State} {B : List (BitVec 8)} {tail : Bits} (hr : s.rst = false)
    (hp : s.phase = .idle ∨ s.phase = .done) (hk : s.snk = ⟨[], false⟩)
    (hx : s.unread = bitsOfBytes B ++ tail) (hl : tail.length < 8) :
    ∃ t q, Greedy (countsOf B) t ∧
      Reaches (s.presentCommand .compress) (compressBuilt B t q s) := by
  have hstart := step_present (c := .compress) hr
    (.compress ((accepting_iff _).mpr hp) (sinkFresh_eq.mpr hk))
  obtain ⟨t, q, hg, hbuild⟩ := run_build (p := .encMagic)
    (s := startCommand .compress (clearForBuild (clearPort (s.presentCommand .compress))))
    ⟨hr, rfl⟩ rfl rfl hx hl rfl
  exact ⟨t, q, hg, .of_step hstart ⟨_, hbuild⟩⟩

/-- Settles O54: the build makes an admissible tree, in which every symbol of the source has a code, and the encoding pass follows. -/
theorem compressWritesEnc : Obligations.CompressWritesEnc := by
  intro s B tail hr hp hst hk hx hl
  have hunread : s.unread = bitsOfBytes B ++ tail := by rw [State.unread, hx, List.drop_zero]
  obtain ⟨t, q, hg, hbuild⟩ := reaches_compressBuilt hr hp hk hunread hl
  obtain ⟨body, hb⟩ := greedy_bodyOf hg
  have hy : enc Config.magic t B = some (padded (streamOf Config.magic t body)) :=
    Option.map_eq_some_iff.mpr ⟨body, hb, rfl⟩
  obtain ⟨tbl, htab, hrun⟩ := (run_encoding (s := compressBuilt B t q s) ⟨hr, rfl⟩ rfl rfl hst rfl
    rfl hk (congrArg Source.bits hx) hl).1 _ hy
  exact ⟨t, _, q, tbl, hg, hy, htab, hbuild.trans hrun⟩

end Sys2Proof.Machine
end

section
/-! SUPPORT. `DECOMPRESS` on the output of `COMPRESS` (43_encoder R163). -/

namespace Sys2Proof.Machine

/-! ## A code, bit by bit (44_decoder R175) -/

theorem step_bodyBit {s : State} {b : Bool} {l r : Tree} {x : Bits} (hq : Quiet s)
    (hp : s.phase = .decWalk) (hc : s.cur = some (.node l r)) (hx : s.unread = b :: x) :
    step s = decArrive (childOf b l r) (bitsRead [b] s) := by
  have hv : srcPeek 1 s = some b.toNat := srcPeek_one.mpr ⟨x, hx⟩
  rw [step_item hq (i := .c [b]) (by simp [nextItem, hp, readItem_body_bit hv]), exec_bit hp,
    decWalkBit_eq hc hv, srcAfter_one_eq_bitsRead hx]

/-- A whole code runs in one step per bit (log 17). -/
theorem run_code {s : State} {u : Tree} {p x : Bits} {y : Sym} (hq : Quiet s)
    (hp : s.phase = .decWalk) (hc : s.cur = some u) (hsub : u.sub p = some (.leaf y))
    (hx : s.unread = p ++ x) : run p.length s = decWalkBits p s := by
  induction p generalizing s u with
  | nil => rfl
  | cons b p ih =>
    cases u with
    | leaf z => simp at hsub
    | node l r =>
      rw [sub_node_cons_childOf] at hsub
      rw [List.length_cons, run_succ, step_bodyBit hq hp hc hx, decWalkBits_cons hp hc hx]
      cases hchild : childOf b l r with
      | node l' r' =>
        rw [hchild] at hsub
        rw [decArrive_node, andThen_next, andThen_next]
        exact ih (s := setCur (.node l' r') (bitsRead [b] s)) hq hp rfl hsub
          (drop_of_unread (x := [b]) hx rfl)
      | leaf z =>
        rw [hchild] at hsub
        cases p with
        | nil => rw [andThen_decWalkBits_nil]; cases decArrive (.leaf z) (bitsRead [b] s) <;> rfl
        | cons => simp at hsub

theorem reaches_of_exec_code {s v : State} {t : Tree} {p x : Bits} {y : Sym} (hq : Quiet s)
    (hp : s.phase = .decWalk) (hc : s.cur = some t) (hne : p ≠ [])
    (hsub : t.sub p = some (.leaf y)) (hx : s.unread = p ++ x)
    (h : exec (.c p) s = .next v) : Reaches s v := by
  rw [exec_code hp hne] at h
  exact ⟨p.length, (run_code hq hp hc hsub hx).trans h⟩

/-! ## The body (44_decoder R170, R175) -/

/-- A code of a tree with an internal root has a bit. -/
theorem codeOf_ne_nil {l r : Tree} {y : Sym} {p : Bits} (h : codeOf (.node l r) y = some p) :
    p ≠ [] := by
  rintro rfl
  cases sub_of_codeOf h

/-- The decoder has read the body and stands before its close, with the bytes `B` behind the bits `k`. -/
def DecodesTo (k : Bits) (B : List (BitVec 8)) (s : State) : Prop :=
  ∃ v, Reaches s v ∧ Quiet v ∧ v.phase = .decClose ∧ v.snk = ⟨k ++ bitsOfBytes B, false⟩

theorem DecodesTo.of_reaches {k : Bits} {B : List (BitVec 8)} {s u : State} (h : Reaches s u)
    (hu : DecodesTo k B u) : DecodesTo k B s := by
  obtain ⟨v, hv, hrest⟩ := hu
  exact ⟨v, h.trans hv, hrest⟩

/-- The state after the code `p` of the byte `b` has been read and the byte written. -/
def byteDecoded (b : BitVec 8) (p : Bits) (s : State) : State :=
  { s with
    src := ⟨s.src.bits, s.src.pos + p.length⟩
    snk := ⟨s.snk.bits ++ bitsOf 8 b.toNat, false⟩
    trace := s.trace ++ p.map (fun b => .srcRead 1 (some b.toNat)) ++ [.snkWrite 8 b.toNat] }

theorem reaches_byteDecoded {s : State} {l r : Tree} {b : BitVec 8} {p x : Bits} (hq : Quiet s)
    (hp : s.phase = .decWalk) (hv : s.treeValid = true) (ht : s.tree = some (.node l r))
    (hc : s.cur = some (.node l r)) (ho : s.snk.closed = false)
    (hcode : codeOf (.node l r) (symOf b.toNat) = some p) (hx : s.unread = p ++ x) :
    Reaches s (byteDecoded b p s) := by
  have hsub := sub_of_codeOf hcode
  have hne := codeOf_ne_nil hcode
  have hbyte : (symOf b.toNat).toNat = b.toNat := symOf_toNat (by omega)
  obtain ⟨hexec, -⟩ := wholeCodeRead s _ p x (symOf b.toNat) hp hv ht hc hne hsub hx ho
  rw [hbyte] at hexec
  exact reaches_of_exec_code hq hp hc hne hsub hx (hexec (by omega))

/-- From the root the walk reads the codes of the bytes, then that of the sentinel, whatever follows. -/
theorem decodesTo_of_walk {s : State} {l r : Tree} {B : List (BitVec 8)} {body x : Bits}
    (hq : Quiet s) (hp : s.phase = .decWalk) (hv : s.treeValid = true)
    (ht : s.tree = some (.node l r)) (hc : s.cur = some (.node l r)) (ho : s.snk.closed = false)
    (hb : bodyOf (.node l r) B = some body) (hx : s.unread = body ++ x) :
    DecodesTo s.snk.bits B s := by
  induction B generalizing s body with
  | nil =>
    have hsub := sub_of_codeOf hb
    have hne := codeOf_ne_nil hb
    obtain ⟨-, heof⟩ := wholeCodeRead s _ body x EOF_SYM hp hv ht hc hne hsub hx ho
    obtain ⟨u, hexec⟩ := heof rfl
    refine ⟨_, reaches_of_exec_code hq hp hc hne hsub hx hexec, hq, rfl, ?_⟩
    rw [bitsOfBytes_nil, List.append_nil, ← ho]
  | cons b B ih =>
    obtain ⟨p, q, hcode, hbody, rfl⟩ := bodyOf_cons_eq_some.mp hb
    rw [List.append_assoc] at hx
    obtain ⟨v, hv', hrest⟩ := ih (s := byteDecoded b p s) hq hp hv ht hc rfl hbody
      (drop_of_unread hx rfl)
    refine ⟨v, (reaches_byteDecoded hq hp hv ht hc ho hcode hx).trans hv', ?_⟩
    rwa [bitsOfBytes_cons, ← List.append_assoc]

/-- A one-leaf tree that has a body is the sentinel alone, and the body is that of no bytes (44 R174). -/
theorem leaf_of_bodyOf {y : Sym} {B : List (BitVec 8)} {body : Bits}
    (h : bodyOf (.leaf y) B = some body) : y = EOF_SYM ∧ B = [] := by
  have hmem : ∀ z ∈ bodySymbols B, z = y := fun z hz => by
    simpa [Tree.leaves] using bodyOf_isSome_iff.mp (Option.isSome_of_mem h) z hz
  obtain rfl : EOF_SYM = y := hmem EOF_SYM (by simp [bodySymbols])
  refine ⟨rfl, ?_⟩
  cases B with
  | nil => rfl
  | cons b B =>
    have hb : b.toNat = 256 := (symOf_byte_eq_iff b EOF_SYM).mp (hmem _ List.mem_cons_self)
    omega

theorem decodesTo_of_start {s : State} {t : Tree} {B : List (BitVec 8)} {body x : Bits}
    (hq : Quiet s) (hp : s.phase = .decStart) (hv : s.treeValid = true) (ht : s.tree = some t)
    (ho : s.snk.closed = false) (hb : bodyOf t B = some body) (hx : s.unread = body ++ x) :
    DecodesTo s.snk.bits B s := by
  have hread : readTree s = some t := readTree_eq_some.mpr ⟨hv, ht⟩
  cases t with
  | node l r =>
    refine .of_reaches (.of_case hq (.startNode l r hp hread) (.refl _)) ?_
    exact decodesTo_of_walk (s := setPhase .decWalk (setCur (.node l r) s)) hq rfl hv ht rfl ho
      hb hx
  | leaf y =>
    obtain ⟨rfl, rfl⟩ := leaf_of_bodyOf hb
    refine ⟨_, .of_case hq (.startEof hp hread) (.refl _), hq, rfl, ?_⟩
    rw [bitsOfBytes_nil, List.append_nil, ← ho]
    rfl

/-! ## The whole operation (44_decoder R178) -/

/-- The state after the whole header of `t` has been read, in the phase `p` (42 R136). -/
def headerDone (t : Tree) (p : Phase) (s : State) : State :=
  { s with
    phase := p
    tree := some t, treeValid := true, treeOrigin := .read
    hdStack := [], leafCnt := s.leafCnt + t.nleaves, need := s.need - 1
    src := ⟨s.src.bits, s.src.pos + t.ser.length⟩
    trace := s.trace ++ headerReads t }

theorem headerRead_completed (t : Tree) (p : Phase) (s : State) :
    setPhase p (setHdStack [] (writeTree t .read (headerRead t s))) = headerDone t p s := by
  simp only [setPhase, setHdStack, writeTree, headerRead, readerAt, setHdCounts, sourceRead,
    headerDone]

/-- A header that is read from its start ends in its own tree. -/
theorem reaches_headerDone {s : State} {t : Tree} {p : Phase} {x : Bits} (hq : Quiet s)
    (hp : s.phase = .hdWalk) (hst : s.hdStack = []) (hk : s.leafCnt = 0) (hn : s.need = 1)
    (hnext : nextPhase s.cmd .hdWalk = some p) (hl : t.legal) (hx : s.unread = t.ser ++ x) :
    Reaches s (headerDone t p s) := by
  have hfits : Fits t s.leafCnt s.need := by rw [hk, hn]; exact fits_zero_one.mpr hl
  have hread := run_headerRead hq hp (by rw [hn]; decide) hx hfits
  have hempty : (headerRead t s).hdStack = [] := hst
  have hreduce : hdReduce (headerRead t s).hdStack t = .closed t := by rw [hempty]; rfl
  have hphase : nextPhase (headerRead t s).cmd (headerRead t s).phase = some p := by
    rw [← hnext, ← hp]
    rfl
  rw [hdFinish_closed hreduce hphase, headerRead_completed] at hread
  exact ⟨_, hread⟩

/-- In `DECOMPRESS` the walk of the body follows the header. -/
theorem decodesTo_of_header {s : State} {t : Tree} {B : List (BitVec 8)} {body x : Bits}
    (hq : Quiet s) (hp : s.phase = .hdWalk) (hst : s.hdStack = []) (hk : s.leafCnt = 0)
    (hn : s.need = 1) (hcmd : s.cmd = .decompress) (ho : s.snk.closed = false) (hl : t.legal)
    (hb : bodyOf t B = some body) (hx : s.unread = t.ser ++ (body ++ x)) :
    DecodesTo s.snk.bits B s := by
  have hnext : nextPhase s.cmd .hdWalk = some .decStart := by rw [hcmd]; rfl
  refine .of_reaches (reaches_headerDone hq hp hst hk hn hnext hl hx) ?_
  exact decodesTo_of_start (s := headerDone t .decStart s) hq rfl rfl rfl ho hb
    (drop_of_unread hx rfl)

/-- The decoder's output is whole bytes, so the close adds no padding (44 R171, R176). -/
theorem DecodesTo.closed {B : List (BitVec 8)} {s : State} (h : DecodesTo [] B s) :
    ∃ v, Reaches s v ∧ v.phase = .done ∧ v.snk = ⟨bitsOfBytes B, true⟩ := by
  obtain ⟨v, hv, hq, hp, hk⟩ := h
  rw [List.nil_append] at hk
  have hpad : padLen (8 * B.length) = 0 := padLen_eq_zero (by omega)
  refine ⟨_, hv.trans (.of_case hq (.close (.inr hp) (by rw [hk])) (.refl _)), rfl, ?_⟩
  simp [snkPadded, hk, hpad]

/-- `DECOMPRESS` at its start. -/
def decompressStarted (s : State) : State :=
  startCommand .decompress (clearForRead (clearPort (s.presentCommand .decompress)))

theorem decompressStarted_unread (s : State) : (decompressStarted s).unread = s.unread := rfl

/-- `DECOMPRESS` on a stream of the tree `t` and the bytes `B`, whatever follows the code of the sentinel. -/
theorem reaches_decompressed {s : State} {t : Tree} {B : List (BitVec 8)} {body x : Bits}
    (hr : s.rst = false) (hp : s.phase = .idle ∨ s.phase = .done) (hk : s.snk = ⟨[], false⟩)
    (hl : t.legal) (hb : bodyOf t B = some body)
    (hx : s.unread = bitsOf 32 Config.magic.toNat ++ (t.ser ++ (body ++ x))) :
    ∃ v, Reaches (s.presentCommand .decompress) v ∧ v.phase = .done ∧
      v.snk = ⟨bitsOfBytes B, true⟩ := by
  have hstart : step (s.presentCommand .decompress) = .next (decompressStarted s) :=
    step_present hr (.decompress ((accepting_iff _).mpr hp) (sinkFresh_eq.mpr hk))
  rw [← decompressStarted_unread] at hx
  have hmagic : StepCase (decompressStarted s)
      (setPhase .hdWalk (srcAfter 32 (decompressStarted s))) :=
    .magicRead rfl ((srcPeek_word (by decide)).mpr ⟨_, hx⟩)
  have hsink : (decompressStarted s).snk = ⟨[], false⟩ := hk
  have hdecodes := decodesTo_of_header
    (s := setPhase .hdWalk (srcAfter 32 (decompressStarted s))) ⟨hr, rfl⟩ rfl rfl rfl rfl rfl
    (congrArg Sink.closed hsink) hl hb (srcAfter_word_unread (by decide) hx)
  rw [setPhase_snk, srcAfter_snk, hsink] at hdecodes
  obtain ⟨v, hv, hdone⟩ := hdecodes.closed
  exact ⟨v, .of_step hstart (.of_case ⟨hr, rfl⟩ hmagic hv), hdone⟩

/-- Settles O59: `COMPRESS` leaves the padded stream of an admissible tree, and `DECOMPRESS` reads the tree and then the codes back. -/
theorem machineRoundTrip : Obligations.MachineRoundTrip := by
  intro s B hi hr ha hk hx
  have hp := (accepting_iff s).mp ha
  have hst : s.hsStack = [] := hi.hsIdle (by rcases hp with hp | hp <;> rw [hp] <;> nofun)
  obtain ⟨t, y, q, tbl, hg, hy, -, hreach⟩ := compressWritesEnc s B [] hr hp hst hk
    (by rw [hx, List.append_nil]) (by decide)
  obtain ⟨body, hb, rfl⟩ := Option.map_eq_some_iff.mp hy
  refine ⟨_, hreach, rfl, rfl, fun u z hur hua huk hux => ?_⟩
  have hunread : u.unread = padded (streamOf Config.magic t body) ++ z := by
    rw [State.unread, hux, List.drop_zero]
  simp only [padded, streamOf, List.append_assoc] at hunread
  obtain ⟨v, hv, hvp, hvk⟩ := reaches_decompressed hur ((accepting_iff u).mp hua) huk
    (greedy_facts hg).2.2 hb hunread
  refine ⟨v, hv, hvp, ?_⟩
  rw [State.sinkBytes, hvk, if_pos rfl, bytesOfBits_bitsOfBytes]

end Sys2Proof.Machine
end

section
/-! SUPPORT. huffman_decoder: what the rule of each of its phases makes of the state (44_decoder R172 to R175). -/

namespace Sys2Proof.Machine

/-! ## The magic word (44_decoder R172) -/

/-- A first word goes on to the header exactly when it is the magic word. -/
theorem decReadMagic_eq {s : State} {m w : Word32} {x : Bits}
    (hx : s.unread = bitsOf 32 w.toNat ++ x) :
    decReadMagic m w s = .next
      (if w = m then setPhase .hdWalk (srcAfter 32 s)
      else raise .malformedHeader .magicMismatch w (srcAfter 32 s)) := by
  have hv : srcPeek 32 s = some w.toNat := (srcPeek_word (by decide)).mpr ⟨x, hx⟩
  simp only [decReadMagic, srcRead_eq, hv, ne_eq, not_true_eq_false, if_false, ite_not]
  split <;> rfl

theorem exec_magicEod {s : State} (hp : s.phase = .decMagic) (hx : s.unread.length < 32) :
    exec .eodAtMagic s = .next (raise .truncatedStream .eodMagic 0 (srcAfter 32 s)) := by
  simp only [exec, execEodAtMagic, hp, decEodMagic, srcRead_eq, srcPeek_short hx]

/-- Settles O16: the word decides by `decReadMagic_eq`, and fewer than 32 bits are `EOD`. -/
theorem magicReadAndCompared : Obligations.MagicReadAndCompared := by
  intro s hp
  refine ⟨fun w x hx => ⟨?_, fun hw => ?_⟩, fun hx => ?_⟩
  · rintro rfl
    simp only [exec, execMagic, hp, decReadMagic_eq hx, if_true, srcAfter_word (by decide) hx,
      setPhase]
  · simp only [exec, execMagicBad, hp, decReadMagic_eq hx, if_neg hw,
      srcAfter_word (by decide) hx, raise]
  · simp only [exec_magicEod hp hx, srcAfter_eod hx, raise, hp]

/-! ## The start of the walk (44_decoder R174) -/

/-- Settles O25: the root decides which of the three cases of the start fires. -/
theorem decoderStarts : Obligations.DecoderStarts := by
  intro s t hp hv ht
  have hread : readTree s = some t := readTree_eq_some.mpr ⟨hv, ht⟩
  refine ⟨?_, fun hq => ⟨?_, ?_⟩⟩
  · rintro rfl
    simp only [exec, execC, hp, hread, if_true, fireDecStart, setPhase, setCur]
  · rintro l r rfl
    exact step_of_case hq (.startNode l r hp hread)
  · rintro y rfl hy
    rw [step_of_case hq (.startByte y hp hread hy), raise, setCur_phase, hp]
    rfl

/-! ## One body bit (44_decoder R175) -/

theorem exec_bodyBit {s : State} {b : Bool} {l r : Tree} {x : Bits} (hp : s.phase = .decWalk)
    (hc : s.cur = some (.node l r)) (hx : s.unread = b :: x) :
    exec (.c [b]) s = decArrive (childOf b l r) (bitsRead [b] s) := by
  rw [exec_bit hp, decWalkBit_eq hc (srcPeek_one.mpr ⟨x, hx⟩), srcAfter_one_eq_bitsRead hx]

theorem exec_bodyEod {s : State} {l r : Tree} (hp : s.phase = .decWalk)
    (hc : s.cur = some (.node l r)) (hx : s.unread = []) :
    exec .eodAtBody s = .next (raise .truncatedStream .eodBody 0 (srcAfter 1 s)) := by
  simp only [exec, execEodAtBody, hp, decEodBody, hc, srcRead_eq, srcPeek_one_none.mpr hx]

/-- The state after the bit `b` has led to the leaf of the byte `y` below the root `t`. -/
theorem setCur_snkAppend_bitsRead {s : State} (b : Bool) (y : Sym) (t : Tree)
    (ho : s.snk.closed = false) :
    setCur t (snkAppend (bitsOf 8 y.toNat) (.snkWrite 8 y.toNat) (bitsRead [b] s)) =
      { s with
        cur := some t
        src := ⟨s.src.bits, s.src.pos + 1⟩
        snk := ⟨s.snk.bits ++ bitsOf 8 y.toNat, false⟩
        trace := s.trace ++ [.srcRead 1 (some b.toNat), .snkWrite 8 y.toNat] } := by
  simp [setCur, snkAppend, bitsRead, ho]

/-- Settles O22: the bit moves the walk to a child, and `decArrive` says what each kind of child does. -/
theorem bodyBitRead : Obligations.BodyBitRead := by
  intro s l r hp hc
  refine ⟨fun b x c hx hchild => ?_, fun hx => ?_⟩
  · have hexec : exec (.c [b]) s = decArrive c (bitsRead [b] s) := hchild ▸ exec_bodyBit hp hc hx
    rw [hexec]
    refine ⟨?_, ?_, ?_⟩
    · rintro rfl
      exact decArrive_eof _
    · rintro y t rfl hy hv ht ho
      have hread : readTree (bitsRead [b] s) = some t := readTree_eq_some.mpr ⟨hv, ht⟩
      rw [decArrive_byte hy hread ho, setCur_snkAppend_bitsRead b y t ho]
    · rintro l' r' rfl
      exact decArrive_node _
  · have hshort : s.unread.length < 1 := by rw [hx]; exact Nat.one_pos
    rw [exec_bodyEod hp hc hx, srcAfter_eod hshort, raise, hp]

end Sys2Proof.Machine
end

section
/-! SUPPORT. The decoder as a function on data (44_decoder R177): how it can fail, what it leaves, and what it makes of the streams that `enc` writes (R179, R181). -/

namespace Sys2Proof.Machine

/-! ## How the decoder can end (44_decoder R177) -/

/-- The walk fails in one way alone: the bits end first. -/
theorem walk_error {tl tr l r : Tree} {x : Bits} {out : List (BitVec 8)} {e : Raised}
    (h : walk tl tr x l r out = .error e) : e = ⟨.truncatedStream, .eodBody, 0⟩ := by
  induction x generalizing l r out with
  | nil => cases h; rfl
  | cons b x ih =>
    rw [walk] at h
    split at h
    · exact ih h
    · split at h
      · cases h
      · exact ih h

/-- A walk that has ended does not see what follows. -/
theorem walk_ok_append {tl tr l r : Tree} {x rest : Bits} {out o : List (BitVec 8)} (z : Bits)
    (h : walk tl tr x l r out = .ok (o, rest)) :
    walk tl tr (x ++ z) l r out = .ok (o, rest ++ z) := by
  induction x generalizing l r out with
  | nil => cases h
  | cons b x ih =>
    rw [walk] at h
    rw [List.cons_append, walk]
    split at h
    · exact ih h
    · split at h
      · rw [if_pos (by assumption)]; cases h; rfl
      · rw [if_neg (by assumption)]; exact ih h

/-- `dec` fails on a root that is a byte leaf, or where the body ends first. -/
theorem dec_error {t : Tree} {x : Bits} {e : Raised} (h : dec t x = .error e) :
    (∃ y, t = .leaf y ∧ y ≠ EOF_SYM ∧ e = ⟨.malformedHeader, .leafRoot, zext32 y⟩) ∨
    (∃ l r, t = .node l r ∧ e = ⟨.truncatedStream, .eodBody, 0⟩) := by
  cases t with
  | leaf y =>
    simp only [dec] at h
    split at h
    · cases h
    · cases h; exact .inl ⟨y, rfl, ‹_›, rfl⟩
  | node l r => exact .inr ⟨l, r, rfl, walk_error h⟩

theorem dec_ok_append {t : Tree} {x rest : Bits} {o : List (BitVec 8)} (z : Bits)
    (h : dec t x = .ok (o, rest)) : dec t (x ++ z) = .ok (o, rest ++ z) := by
  cases t with
  | leaf y =>
    by_cases hy : y = EOF_SYM
    · rw [dec, if_pos hy] at h ⊢
      cases h
      rfl
    · rw [dec, if_neg hy] at h
      cases h
  | node l r => exact walk_ok_append z h

/-! ## The decoder on the streams of `enc` (44_decoder R179) -/

theorem walk_body {l r : Tree} {B : List (BitVec 8)} {body : Bits} (z : Bits)
    (out : List (BitVec 8)) (h : bodyOf (.node l r) B = some body) :
    walk l r (body ++ z) l r out = .ok (out ++ B, z) := by
  induction B generalizing out body with
  | nil => rw [walk_code l r z out (sub_of_codeOf h), if_pos rfl, List.append_nil]
  | cons b B ih =>
    obtain ⟨p, q, hp, hq, rfl⟩ := bodyOf_cons_eq_some.mp h
    have hne : symOf b.toNat ≠ EOF_SYM := ne_eof_of_le (by rw [symOf_toNat] <;> omega)
    rw [List.append_assoc, walk_code l r _ out (sub_of_codeOf hp), if_neg hne,
      setWidth_symOf_byte, ih _ hq, List.append_assoc, List.singleton_append]

/-- `dec` reads the body of its tree, whatever follows. -/
theorem dec_body {t : Tree} {B : List (BitVec 8)} {body : Bits} (z : Bits)
    (h : bodyOf t B = some body) : dec t (body ++ z) = .ok (B, z) := by
  cases t with
  | node l r => exact walk_body z [] h
  | leaf y =>
    obtain ⟨rfl, rfl⟩ := leaf_of_bodyOf h
    have hbody : body = [] := by simpa [bodyOf, codeOf, Tree.codes_leaf, eq_comm] using h
    rw [hbody, dec, if_pos rfl, List.nil_append]

/-- After the magic word and a whole header `decompress` is `dec`. -/
theorem decompress_header {m : Word32} {t : Tree} (x : Bits) (hl : t.legal) :
    decompress m (bitsOf 32 m.toNat ++ (t.ser ++ x)) = dec t x := by
  rw [decompress_word, if_neg (by simp), headerInverse.1 t x hl]

theorem decompress_streamOf {m : Word32} {t : Tree} {B : List (BitVec 8)} {body : Bits} (z : Bits)
    (hl : t.legal) (h : bodyOf t B = some body) :
    decompress m (streamOf m t body ++ z) = .ok (B, z) := by
  rw [streamOf, List.append_assoc, List.append_assoc, decompress_header _ hl, dec_body z h]

/-- Settles O47: every symbol of the body has a code, and the padding is part of what follows the body. -/
theorem decompressInvertsEnc : Obligations.DecompressInvertsEnc := by
  intro magic t B hl _ heof hB
  have hsymbols : ∀ y ∈ bodySymbols B, y ∈ t.leaves := by
    simpa [bodySymbols, or_imp, forall_and, ← setWidth_byte_eq_symOf] using ⟨hB, heof⟩
  obtain ⟨body, hb⟩ := Option.isSome_iff_exists.mp (bodyOf_isSome_iff.mpr hsymbols)
  refine ⟨body, hb, by rw [enc, hb, Option.map_some], fun z => ?_⟩
  rw [padded, List.append_assoc, decompress_streamOf _ hl hb]

/-! ## A stream cut before its last bit (44_decoder R181) -/

/-- No header begins another (42 R139). -/
theorem ser_append_inj {t u : Tree} {c n : Nat} {x y : Bits} (ht : Fits t c n) (hu : Fits u c n)
    (h : t.ser ++ x = u.ser ++ y) : t = u ∧ x = y := by
  have hread := desWithin_ser (f := t.ser.length + u.ser.length + 1) x (by omega) ht
  rw [h, desWithin_ser y (by omega) hu] at hread
  cases hread
  exact ⟨rfl, rfl⟩

/-- A header cut before its last bit is truncated: the bits read so far agree with `ser` of a tree, so no other fault is met. -/
theorem HeaderFails.truncated {c n : Nat} {e : Raised} {w z : Bits} (h : HeaderFails c n e w z)
    {t : Tree} {v y : Bits} (ht : Fits t c n) (hx : t.ser ++ y = w ++ (z ++ v)) :
    e = ⟨.truncatedStream, .eodHdrTag, 0⟩ ∨ e = ⟨.truncatedStream, .eodHdrSym, 0⟩ := by
  induction h generalizing t y with
  | eodTag c n => exact .inl rfl
  | eodSym c n hz => exact .inr rfl
  | capacity z hc =>
    cases t with
    | leaf a => cases hx
    | node l r => exact absurd hc ht.node_capacity
  | @range c n a z ha =>
    cases t with
    | node l r => cases hx
    | leaf b =>
      have hbits := (List.append_inj (List.cons.inj hx).2 (by simp)).1
      have hval := congrArg valOf hbits
      rw [valOf_bitsOf_of_lt b.isLt, valOf_bitsOf_of_lt a.isLt] at hval
      have hb := ht.1 b (List.mem_singleton_self b)
      omega
  | left hc h ih =>
    cases t with
    | leaf a => cases hx
    | node l r =>
      rw [Tree.ser_node, List.cons_append, List.append_assoc] at hx
      exact ih (fits_node.mp ht).1 (List.cons.inj hx).2
  | right l' hc hl' h ih =>
    cases t with
    | leaf a => cases hx
    | node l r =>
      obtain ⟨hl, hr⟩ := fits_node.mp ht
      rw [Tree.ser_node, List.cons_append, List.append_assoc, List.cons_append,
        List.append_assoc] at hx
      obtain ⟨rfl, hrest⟩ := ser_append_inj hl hl' (List.cons.inj hx).2
      exact ih hr hrest

/-- A proper beginning lacks at least one bit. -/
theorem exists_append_of_proper_prefix {x y : Bits} (h : x <+: y) (hlen : x.length < y.length) :
    ∃ v, v ≠ [] ∧ y = x ++ v := by
  obtain ⟨v, rfl⟩ := h
  refine ⟨v, ?_, rfl⟩
  rintro rfl
  simp at hlen

theorem des_truncated {t : Tree} {x : Bits} (hl : t.legal) (hx : x <+: t.ser)
    (hlen : x.length < t.ser.length) :
    ∃ sub, des x 0 1 = .error ⟨.truncatedStream, sub, 0⟩ ∧ (sub = .eodHdrTag ∨ sub = .eodHdrSym) := by
  obtain ⟨v, hv, hser⟩ := exists_append_of_proper_prefix hx hlen
  have hfits := fits_zero_one.mpr hl
  obtain ⟨u, z, rfl, hu, -⟩ | ⟨e, w, herr, hread, hfails⟩ := des_cases x
  · have hsame : t.ser ++ [] = u.ser ++ (z ++ v) := by
      rw [List.append_nil, hser, List.append_assoc]
    obtain ⟨-, hnil⟩ := ser_append_inj hfits (fits_zero_one.mpr hu) hsame
    exact absurd (List.append_eq_nil_iff.mp hnil.symm).2 hv
  · have hagrees : t.ser ++ [] = w ++ (desLeft x 0 1 ++ v) := by
      rw [List.append_nil, hser, ← List.append_assoc, ← hread]
    rcases hfails.truncated hfits hagrees with rfl | rfl
    · exact ⟨_, herr, .inl rfl⟩
    · exact ⟨_, herr, .inr rfl⟩

/-- A body cut before its last bit is truncated: a walk that had ended would end in the same way on the whole body, with nothing left. -/
theorem dec_truncated {t : Tree} {B : List (BitVec 8)} {body x : Bits}
    (hb : bodyOf t B = some body) (hx : x <+: body) (hlen : x.length < body.length) :
    dec t x = .error ⟨.truncatedStream, .eodBody, 0⟩ := by
  obtain ⟨v, hv, rfl⟩ := exists_append_of_proper_prefix hx hlen
  have hwhole := dec_body [] hb
  rw [List.append_nil] at hwhole
  cases hd : dec t x with
  | ok q =>
    have hsame := (dec_ok_append v hd).symm.trans hwhole
    simp [hv] at hsame
  | error e =>
    obtain ⟨y, rfl, hy, -⟩ | ⟨l, r, -, rfl⟩ := dec_error hd
    · exact absurd (leaf_of_bodyOf hb).1 hy
    · rfl

theorem decompress_short (m : Word32) {x : Bits} (h : x.length < 32) :
    decompress m x = .error ⟨.truncatedStream, .eodMagic, 0⟩ := by
  rw [decompress, if_pos h]

/-- Settles O48: the cut is in the magic word, in the header (`des_truncated`) or in the body (`dec_truncated`). -/
theorem truncationIsReported : Obligations.TruncationIsReported := by
  intro magic t B body x hl _ hb hx hlen
  rw [streamOf, List.append_assoc] at hx hlen
  obtain hshort | hlong := Nat.lt_or_ge x.length 32
  · exact ⟨.eodMagic, decompress_short magic hshort, fun _ => rfl, fun h => by omega,
      fun h => by omega⟩
  obtain ⟨x, rfl⟩ : bitsOf 32 magic.toNat <+: x :=
    List.prefix_of_prefix_length_le (List.prefix_append _ _) hx (by simpa using hlong)
  rw [List.prefix_append_right_inj] at hx
  simp only [List.length_append, bitsOf_length, Nat.add_lt_add_iff_left, Nat.add_le_add_iff_left]
    at hlen ⊢
  obtain hhead | hbody := Nat.lt_or_ge x.length t.ser.length
  · have hser : x <+: t.ser :=
      List.prefix_of_prefix_length_le hx (List.prefix_append _ _) (Nat.le_of_lt hhead)
    obtain ⟨sub, hdes, hsub⟩ := des_truncated hl hser hhead
    refine ⟨sub, ?_, fun h => by omega, fun _ _ => hsub, fun h => by omega⟩
    rw [decompress_word, if_neg (by simp), hdes]
  · obtain ⟨x, rfl⟩ : t.ser <+: x :=
      List.prefix_of_prefix_length_le (List.prefix_append _ _) hx hbody
    rw [List.prefix_append_right_inj] at hx
    rw [List.length_append, Nat.add_lt_add_iff_left] at hlen
    refine ⟨.eodBody, ?_, fun h => by omega, fun _ h => by omega, fun _ => rfl⟩
    rw [decompress_header x hl, dec_truncated hb hx hlen]

end Sys2Proof.Machine
end

section
/-! SUPPORT. `DEC_RUN` (44_decoder R170, R177): the walk of the machine and the walk of the reference. -/

namespace Sys2Proof.Machine

/-! ## What the decoder has read and written -/

/-- The decoder stands at `u`: it has read the bits `w`, the bytes written so far are `out`, and the transactions were `ts`. -/
def decoderAt (u : Tree) (w : Bits) (out : List (BitVec 8)) (ts : List Transaction) (s : State) :
    State :=
  { s with
    cur := some u
    src := ⟨s.src.bits, s.src.pos + w.length⟩
    snk := ⟨bitsOfBytes out, false⟩
    trace := s.trace ++ ts }

theorem decoderAt_decoderAt (u u' : Tree) (w w' : Bits) (out out' : List (BitVec 8))
    (ts ts' : List Transaction) (s : State) :
    decoderAt u' w' out' ts' (decoderAt u w out ts s) =
      decoderAt u' (w ++ w') out' (ts ++ ts') s := by
  simp [decoderAt, Nat.add_assoc]

theorem decoderAt_unread {s : State} {w z : Bits} (h : s.unread = w ++ z) (u : Tree)
    (out : List (BitVec 8)) (ts : List Transaction) : (decoderAt u w out ts s).unread = z :=
  drop_of_unread h rfl

/-- How the decoder ends on a result of `dec`: with the sink closed, or with the fault raised (44 R182, 60_exceptions R205). -/
def decoderEnded (r : Except Raised (List (BitVec 8) × Bits)) (s : State) : State :=
  match r with
  | .ok _ =>
    { s with phase := .done, snk := ⟨s.snk.bits, true⟩, trace := s.trace ++ [.snkClose] }
  | .error e =>
    { s with
      phase := .fault
      faultCode := e.kind, faultSub := e.sub, faultValue := e.value
      faultPhase := raisedIn e.sub }

/-- The decoder ends on the result `r` at `u`, with the bits `z` left unread and the bytes `out` written. -/
def DecodeEnds (r : Except Raised (List (BitVec 8) × Bits)) (z : Bits) (out : List (BitVec 8))
    (u : Tree) (s : State) : Prop :=
  ∃ w ts, s.unread = w ++ z ∧ Reaches s (decoderEnded r (decoderAt u w out ts s))

theorem raise_eq_decoderEnded {s : State} {e : Raised} (h : s.phase = raisedIn e.sub) :
    raise e.kind e.sub e.value s = decoderEnded (.error e) s := by
  rw [decoderEnded, raise, h]

/-- The bytes written are whole, so the close adds no padding (44 R171, R176). -/
theorem step_decClose {s : State} {out : List (BitVec 8)} (hq : Quiet s) (hp : s.phase = .decClose)
    (hk : s.snk = ⟨bitsOfBytes out, false⟩) (o : List (BitVec 8)) (z : Bits) :
    step s = .next (decoderEnded (.ok (o, z)) s) := by
  have hpad : padLen s.snk.bits.length = 0 := by
    rw [hk]
    exact padLen_eq_zero (by rw [bitsOfBytes_length]; omega)
  rw [step_of_case hq (.close (.inr hp) (by rw [hk])), snkPadded, hpad, List.replicate_zero,
    List.append_nil]
  rfl

/-! ## One body bit (44_decoder R175) -/

section
variable {s : State} {l r : Tree} {out : List (BitVec 8)} (hq : Quiet s) (hp : s.phase = .decWalk)
  (hc : s.cur = some (.node l r)) (hk : s.snk = ⟨bitsOfBytes out, false⟩)
include hq hp hc hk

theorem step_bodyEod (hx : s.unread = []) :
    step s = .next (decoderEnded (.error ⟨.truncatedStream, .eodBody, 0⟩)
      (decoderAt (.node l r) [] out [.srcRead 1 none] s)) := by
  have hshort : s.unread.length < 1 := by rw [hx]; exact Nat.one_pos
  have hread : srcAfter 1 s = decoderAt (.node l r) [] out [.srcRead 1 none] s := by
    rw [srcAfter_eod hshort, decoderAt, ← hk, ← hc]
    rfl
  rw [step_of_case hq (.bitEod l r hp hc (srcPeek_one_none.mpr hx)), hread]
  exact congrArg _ (raise_eq_decoderEnded (e := ⟨.truncatedStream, .eodBody, 0⟩) hp)

theorem step_bodyNode {b : Bool} {l' r' : Tree} {x : Bits} (hx : s.unread = b :: x)
    (hchild : childOf b l r = .node l' r') :
    step s = .next (decoderAt (.node l' r') [b] out [.srcRead 1 (some b.toNat)] s) := by
  rw [step_bodyBit hq hp hc hx, hchild, decArrive_node, decoderAt, ← hk]
  rfl

theorem step_bodyByte {b : Bool} {y : Sym} {t : Tree} {x : Bits} (hv : s.treeValid = true)
    (ht : s.tree = some t) (hx : s.unread = b :: x) (hchild : childOf b l r = .leaf y)
    (hy : y.toNat ≤ 255) :
    step s = .next (decoderAt t [b] (out ++ [BitVec.setWidth 8 y])
      [.srcRead 1 (some b.toNat), .snkWrite 8 y.toNat] s) := by
  have ho : s.snk.closed = false := by rw [hk]
  have hread : readTree (bitsRead [b] s) = some t := readTree_eq_some.mpr ⟨hv, ht⟩
  have hbyte : (BitVec.setWidth 8 y).toNat = y.toNat := by
    rw [BitVec.toNat_setWidth, Nat.mod_eq_of_lt (by omega)]
  rw [step_bodyBit hq hp hc hx, hchild, decArrive_byte hy hread ho,
    setCur_snkAppend_bitsRead b y t ho, decoderAt, bitsOfBytes_append, bitsOfBytes_cons,
    bitsOfBytes_nil, List.append_nil, hbyte, hk]
  rfl

theorem step_bodyEof {b : Bool} {x : Bits} (hx : s.unread = b :: x)
    (hchild : childOf b l r = .leaf EOF_SYM) :
    step s = .next (setPhase .decClose
      (decoderAt (.node l r) [b] out [.srcRead 1 (some b.toNat)] s)) := by
  rw [step_bodyBit hq hp hc hx, hchild, decArrive_eof, decoderAt, ← hk, ← hc]
  rfl

end

/-! ## The walk (44_decoder R177) -/

/-- The bits that a result of `walk` leaves unread, on `EOD_BODY` none. -/
def walkLeft (r : Except Raised (List (BitVec 8) × Bits)) : Bits :=
  match r with
  | .ok (_, rest) => rest
  | .error _ => []

theorem DecodeEnds.of_bit {r : Except Raised (List (BitVec 8) × Bits)} {z x : Bits}
    {out o : List (BitVec 8)} {u v : Tree} {b : Bool} {ts : List Transaction} {s : State}
    (hx : s.unread = b :: x) (hstep : step s = .next (decoderAt v [b] o ts s))
    (h : DecodeEnds r z out u (decoderAt v [b] o ts s)) : DecodeEnds r z out u s := by
  obtain ⟨w, ts', hw, hr⟩ := h
  rw [decoderAt_unread (w := [b]) hx] at hw
  rw [decoderAt_decoderAt] at hr
  exact ⟨b :: w, ts ++ ts', by rw [hx, hw, List.cons_append], .of_step hstep hr⟩

theorem leaves_childOf {b : Bool} {l r : Tree} {y : Sym} (h : y ∈ (childOf b l r).leaves) :
    y ∈ (Tree.node l r).leaves := by
  cases b
  · exact List.mem_append_left _ h
  · exact List.mem_append_right _ h

/-- The walk of the machine ends as `walk` does, from every position below a root whose symbols exist. -/
theorem decodeEnds_of_walk {tl tr : Tree} (htop : ∀ y ∈ (Tree.node tl tr).leaves, y.toNat ≤ 256)
    {x : Bits} {l r : Tree} {out : List (BitVec 8)} {s : State} (hq : Quiet s)
    (hp : s.phase = .decWalk) (hv : s.treeValid = true) (ht : s.tree = some (.node tl tr))
    (hc : s.cur = some (.node l r)) (hsym : ∀ y ∈ (Tree.node l r).leaves, y.toNat ≤ 256)
    (hk : s.snk = ⟨bitsOfBytes out, false⟩) (hx : s.unread = x) :
    ∃ u, DecodeEnds (walk tl tr x l r out) (walkLeft (walk tl tr x l r out))
      (walkOut tl tr x l r out) u s := by
  induction x generalizing l r out s with
  | nil =>
    exact ⟨.node l r, [], _, hx, .of_step (step_bodyEod hq hp hc hk hx) (.refl _)⟩
  | cons b x ih =>
    have hrest : ∀ u o ts, (decoderAt u [b] o ts s).unread = x :=
      decoderAt_unread (w := [b]) hx
    have hbelow : ∀ y ∈ (childOf b l r).leaves, y.toNat ≤ 256 := fun y hy =>
      hsym y (leaves_childOf hy)
    cases hchild : childOf b l r with
    | node l' r' =>
      have hstep := step_bodyNode hq hp hc hk hx hchild
      rw [hchild] at hbelow
      rw [childOf] at hchild
      simp only [walk, walkOut, hchild]
      obtain ⟨u, hu⟩ := ih (s := decoderAt (.node l' r') [b] out [.srcRead 1 (some b.toNat)] s)
        hq hp hv ht rfl hbelow rfl (hrest _ _ _)
      exact ⟨u, .of_bit hx hstep hu⟩
    | leaf y =>
      have hy : y.toNat ≤ 256 := hbelow y (by rw [hchild]; exact List.mem_singleton_self y)
      obtain rfl | hbyte := eq_eof_or_le hy
      · have hstep := step_bodyEof hq hp hc hk hx hchild
        rw [childOf] at hchild
        simp only [walk, walkOut, hchild, if_true]
        exact ⟨.node l r, [b], _, hx, .of_step hstep (.of_step
          (step_decClose (out := out) (s := setPhase .decClose
            (decoderAt (.node l r) [b] out [.srcRead 1 (some b.toNat)] s)) hq rfl rfl out x)
          (.refl _))⟩
      · have hstep := step_bodyByte hq hp hc hk hv ht hx hchild hbyte
        rw [childOf] at hchild
        simp only [walk, walkOut, hchild, if_neg (ne_eof_of_le hbyte)]
        obtain ⟨u, hu⟩ := ih (s := decoderAt (.node tl tr) [b] (out ++ [BitVec.setWidth 8 y])
            [.srcRead 1 (some b.toNat), .snkWrite 8 y.toNat] s)
          hq hp hv ht rfl htop rfl (hrest _ _ _)
        exact ⟨u, .of_bit hx hstep hu⟩

/-! ## The decoder (44_decoder R170, R177) -/

theorem decLeft_node (l r : Tree) (x : Bits) :
    decLeft (.node l r) x = walkLeft (walk l r x l r []) := by
  rw [decLeft, dec]
  cases h : walk l r x l r [] with
  | ok q => rfl
  | error e => rw [walk_error h]; rfl

theorem decLeft_leaf (y : Sym) (x : Bits) : decLeft (.leaf y) x = x := by
  rw [decLeft, dec]
  by_cases hy : y = EOF_SYM
  · rw [if_pos hy]
  · rw [if_neg hy]; rfl

theorem decoderEnded_setPhase (r : Except Raised (List (BitVec 8) × Bits)) (p : Phase) (s : State) :
    decoderEnded r (setPhase p s) = decoderEnded r s := by cases r <;> rfl

theorem setCur_eq_decoderAt {s : State} (u : Tree) (hk : s.snk = ⟨[], false⟩) :
    setCur u s = decoderAt u [] [] [] s := by
  rw [decoderAt, List.append_nil, bitsOfBytes_nil, ← hk]
  rfl

theorem reaches_leafRootEnded {s : State} {y : Sym} (hq : Quiet s) (hp : s.phase = .decStart)
    (hread : readTree s = some (.leaf y)) (hy : y.toNat ≤ 256) (hk : s.snk = ⟨[], false⟩) :
    Reaches s (decoderEnded (dec (.leaf y) s.unread) (decoderAt (.leaf y) [] [] [] s)) := by
  rw [dec, ← setCur_eq_decoderAt _ hk]
  obtain rfl | hbyte := eq_eof_or_le hy
  · have hclose := step_decClose (out := []) (s := setPhase .decClose (setCur (.leaf EOF_SYM) s))
      hq rfl hk [] s.unread
    rw [if_pos rfl, ← decoderEnded_setPhase _ .decClose]
    exact .of_case hq (.startEof hp hread) (.of_step hclose (.refl _))
  · rw [if_neg (ne_eof_of_le hbyte), ← raise_eq_decoderEnded hp]
    exact .of_case hq (.startByte y hp hread hbyte) (.refl _)

/-- From `DEC_START` the machine ends as `dec` does; with one leaf it stays at the root. -/
theorem decodeEnds_of_start {s : State} {t : Tree} (hq : Quiet s) (hp : s.phase = .decStart)
    (hv : s.treeValid = true) (ht : s.tree = some t) (hl : t.legal) (hk : s.snk = ⟨[], false⟩) :
    ∃ u, DecodeEnds (dec t s.unread) (decLeft t s.unread) (decOut t s.unread) u s ∧
      ∀ y, t = .leaf y → u = t := by
  have hread : readTree s = some t := readTree_eq_some.mpr ⟨hv, ht⟩
  cases t with
  | node l r =>
    obtain ⟨u, w, ts, hw, hr⟩ := decodeEnds_of_walk (out := [])
      (s := setPhase .decWalk (setCur (.node l r) s)) hl.1 hq rfl hv ht rfl hl.1 hk rfl
    refine ⟨u, ⟨w, ts, ?_, .of_case hq (.startNode l r hp hread) ?_⟩, nofun⟩
    · rw [decLeft_node]
      exact hw
    · rw [← decoderEnded_setPhase _ .decWalk]
      exact hr
  | leaf y =>
    have hy : y.toNat ≤ 256 := hl.1 y (List.mem_singleton_self y)
    exact ⟨.leaf y, ⟨[], [], (decLeft_leaf y _).symm, reaches_leafRootEnded hq hp hread hy hk⟩,
      fun _ _ => rfl⟩

/-! ## The whole operation (44_decoder R170, R182) -/

/-- `DEC_RUN` at its start. -/
def decRunStarted (s : State) : State :=
  startCommand .decRun (clearPort (s.presentCommand .decRun))

theorem reaches_decRunEnded {s : State} {t : Tree} (hr : s.rst = false)
    (hp : s.phase = .idle ∨ s.phase = .done) (hv : s.treeValid = true) (ht : s.tree = some t)
    (hl : t.legal) (hk : s.snk = ⟨[], false⟩) :
    ∃ u w ts, s.unread = w ++ decLeft t s.unread ∧ (∀ y, t = .leaf y → u = t) ∧
      Reaches (s.presentCommand .decRun) (decoderEnded (dec t s.unread)
        (decoderAt u w (decOut t s.unread) ts (decRunStarted s))) := by
  have hstart : step (s.presentCommand .decRun) = .next (decRunStarted s) :=
    step_present hr (.decRun ((accepting_iff _).mpr hp) hv (sinkFresh_eq.mpr hk))
  obtain ⟨u, ⟨w, ts, hw, hrun⟩, hleaf⟩ :=
    decodeEnds_of_start (s := decRunStarted s) ⟨hr, rfl⟩ rfl hv ht hl hk
  exact ⟨u, w, ts, hw, hleaf, .of_step hstart hrun⟩

/-- The bits consumed are those that are no longer left. -/
theorem consumed_length {x w z : Bits} (h : x = w ++ z) : x.length - z.length = w.length := by
  rw [h, List.length_append, Nat.add_sub_cancel]

theorem decLeft_ok {t : Tree} {x rest : Bits} {o : List (BitVec 8)}
    (h : dec t x = .ok (o, rest)) : decLeft t x = rest := by rw [decLeft, h]

theorem decLeft_eodBody {t : Tree} {x : Bits}
    (h : dec t x = .error ⟨.truncatedStream, .eodBody, 0⟩) : decLeft t x = [] := by
  rw [decLeft, h]
  rfl

/-- Settles O53: the machine ends as `dec` does (`reaches_decRunEnded`), and `dec` fails in two ways (`dec_error`). -/
theorem decRunIsDec : Obligations.DecRunIsDec := by
  intro s t hr hp hv ht hl hk
  obtain ⟨u, w, ts, hw, hleaf, hreach⟩ := reaches_decRunEnded hr hp hv ht hl hk
  cases hd : dec t s.unread with
  | ok q =>
    obtain ⟨out, rest⟩ := q
    rw [hd, decOut_ok hd] at hreach
    rw [decLeft_ok hd] at hw
    refine ⟨_, hreach, ?_⟩
    rw [consumed_length hw]
    rfl
  | error e =>
    rw [hd] at hreach
    refine ⟨_, hreach, ?_⟩
    obtain ⟨y, rfl, -, rfl⟩ | ⟨l, r, rfl, rfl⟩ := dec_error hd
    · obtain rfl := hleaf y rfl
      obtain rfl : w = [] := by simpa [decLeft_leaf] using hw
      exact ⟨.inl rfl, fun _ => ⟨rfl, rfl⟩, rfl⟩
    · rw [decLeft_eodBody hd, List.append_nil] at hw
      rw [hw]
      exact ⟨.inr rfl, nofun, rfl⟩

end Sys2Proof.Machine
end

section
/-! SUPPORT. `DECOMPRESS` on every source (44_decoder R177, R178, R180, R182). -/

namespace Sys2Proof.Machine

/-! ## What `decompress` leaves and emits (44_decoder R177) -/

theorem decompressLeft_short (m : Word32) {x : Bits} (h : x.length < 32) :
    decompressLeft m x = x := by rw [decompressLeft, if_pos h]

section
variable {m w : Word32} {x : Bits}

theorem decompress_badMagic (hw : w ≠ m) :
    decompress m (bitsOf 32 w.toNat ++ x) = .error ⟨.malformedHeader, .magicMismatch, w⟩ := by
  rw [decompress_word, if_pos hw]

theorem decompressLeft_badMagic (hw : w ≠ m) : decompressLeft m (bitsOf 32 w.toNat ++ x) = x := by
  have hlen : ¬(bitsOf 32 w.toNat ++ x).length < 32 := by simp
  rw [decompressLeft, if_neg hlen, take_bitsOf_append, ofNat_valOf_bitsOf, if_pos hw,
    drop_bitsOf_append]

theorem decompress_badHeader {e : Raised} (h : des x 0 1 = .error e) :
    decompress m (bitsOf 32 m.toNat ++ x) = .error e := by
  rw [decompress_word, if_neg (by simp), h]

theorem decompressLeft_badHeader {e : Raised} (h : des x 0 1 = .error e) :
    decompressLeft m (bitsOf 32 m.toNat ++ x) = desLeft x 0 1 := by
  have hlen : ¬(bitsOf 32 m.toNat ++ x).length < 32 := by simp
  rw [decompressLeft, if_neg hlen, take_bitsOf_append, ofNat_valOf_bitsOf, if_neg (by simp),
    drop_bitsOf_append, h]

theorem decompressLeft_header {t : Tree} (hl : t.legal) :
    decompressLeft m (bitsOf 32 m.toNat ++ (t.ser ++ x)) = decLeft t x := by
  have hlen : ¬(bitsOf 32 m.toNat ++ (t.ser ++ x)).length < 32 := by simp
  rw [decompressLeft, if_neg hlen, take_bitsOf_append, ofNat_valOf_bitsOf, if_neg (by simp),
    drop_bitsOf_append, headerInverse.1 t x hl]

theorem decompressOut_header {t : Tree} (hl : t.legal) :
    decompressOut m (bitsOf 32 m.toNat ++ (t.ser ++ x)) = decOut t x := by
  have hword : ¬((bitsOf 32 m.toNat ++ (t.ser ++ x)).length < 32 ∨ m ≠ m) := by simp
  rw [decompressOut, take_bitsOf_append, ofNat_valOf_bitsOf, if_neg hword, drop_bitsOf_append,
    headerInverse.1 t x hl]

end

/-! ## Up to the end of the header (44_decoder R172, R173) -/

theorem HeaderFails.raisedIn {c n : Nat} {e : Raised} {w z : Bits} (h : HeaderFails c n e w z) :
    raisedIn e.sub = .hdWalk := by
  induction h with
  | eodTag | capacity | eodSym | range => rfl
  | left _ _ ih => exact ih
  | right _ _ _ _ ih => exact ih

/-- Where the tag is missing nothing is left (60_exceptions R201). -/
theorem HeaderFails.left_of_eodHdrTag {c n : Nat} {e : Raised} {w z : Bits}
    (h : HeaderFails c n e w z) (he : e.sub = .eodHdrTag) : z = [] := by
  induction h with
  | eodTag => rfl
  | capacity | eodSym | range => cases he
  | left _ _ ih => exact ih he
  | right _ _ _ _ ih => exact ih he

/-- `DECOMPRESS` before the header, with the magic word read. -/
def headerStarted (s : State) : State :=
  setPhase .hdWalk (sourceRead (bitsOf 32 Config.magic.toNat)
    [.srcRead 32 (some Config.magic.toNat)] (decompressStarted s))

section
variable {s : State} (hr : s.rst = false) (hp : s.phase = .idle ∨ s.phase = .done)
  (hk : s.snk = ⟨[], false⟩)
include hr hp hk

theorem step_decompressStarted :
    step (s.presentCommand .decompress) = .next (decompressStarted s) :=
  step_present hr (.decompress ((accepting_iff _).mpr hp) (sinkFresh_eq.mpr hk))

theorem reaches_magicEod (hx : s.unread.length < 32) :
    Reaches (s.presentCommand .decompress) (raise .truncatedStream .eodMagic 0
      (sourceRead [] [.srcRead 32 none] (decompressStarted s))) := by
  have hread : srcAfter 32 (decompressStarted s) =
      sourceRead [] [.srcRead 32 none] (decompressStarted s) := srcAfter_eod hx
  rw [← hread]
  exact .of_step (step_decompressStarted hr hp hk)
    (.of_case ⟨hr, rfl⟩ (.magicEod rfl (srcPeek_short hx)) (.refl _))

theorem reaches_magicMismatch {w : Word32} {x : Bits} (hx : s.unread = bitsOf 32 w.toNat ++ x)
    (hw : w ≠ Config.magic) :
    Reaches (s.presentCommand .decompress) (raise .malformedHeader .magicMismatch w
      (sourceRead (bitsOf 32 w.toNat) [.srcRead 32 (some w.toNat)] (decompressStarted s))) := by
  have hread : srcAfter 32 (decompressStarted s) = sourceRead (bitsOf 32 w.toNat)
      [.srcRead 32 (some w.toNat)] (decompressStarted s) := srcAfter_word (by decide) hx
  rw [← hread]
  exact .of_step (step_decompressStarted hr hp hk)
    (.of_case ⟨hr, rfl⟩ (.magicBad w rfl ((srcPeek_word (by decide)).mpr ⟨x, hx⟩) hw) (.refl _))

theorem reaches_headerStarted {x : Bits} (hx : s.unread = bitsOf 32 Config.magic.toNat ++ x) :
    Reaches (s.presentCommand .decompress) (headerStarted s) := by
  have hread : srcAfter 32 (decompressStarted s) = sourceRead (bitsOf 32 Config.magic.toNat)
      [.srcRead 32 (some Config.magic.toNat)] (decompressStarted s) := srcAfter_word (by decide) hx
  rw [headerStarted, ← hread]
  exact .of_step (step_decompressStarted hr hp hk)
    (.of_case ⟨hr, rfl⟩ (.magicRead rfl ((srcPeek_word (by decide)).mpr ⟨x, hx⟩)) (.refl _))

/-- Where the header cannot be read the fault is that of `des` (42 R141). -/
theorem reaches_headerFault {e : Raised} {w z : Bits} (hfails : HeaderFails 0 1 e w z)
    (hx : s.unread = bitsOf 32 Config.magic.toNat ++ (w ++ z)) :
    ∃ fs k n ts, Reaches (s.presentCommand .decompress)
      (raise e.kind e.sub e.value (readerAt fs k n w ts (headerStarted s))) := by
  have hheader : (headerStarted s).unread = w ++ z := drop_of_unread hx rfl
  obtain ⟨fs, k, n, ts, hreach⟩ := faultsAfter_of_headerFails hfails (s := headerStarted s)
    ⟨hr, rfl⟩ rfl Nat.one_ne_zero hheader rfl rfl
  exact ⟨fs, k, n, ts, (reaches_headerStarted hr hp hk hx).trans hreach⟩

/-- After the header of `t` the machine ends as `dec` does on the body (44 R177, R178). -/
theorem reaches_decompressEnded {t : Tree} {z : Bits} (hl : t.legal)
    (hx : s.unread = bitsOf 32 Config.magic.toNat ++ (t.ser ++ z)) :
    ∃ u w ts, z = w ++ decLeft t z ∧ (∀ y, t = .leaf y → u = t) ∧
      Reaches (s.presentCommand .decompress) (decoderEnded (dec t z)
        (decoderAt u w (decOut t z) ts (headerDone t .decStart (headerStarted s)))) := by
  have hheader : (headerStarted s).unread = t.ser ++ z := drop_of_unread hx rfl
  have hbody : (headerDone t .decStart (headerStarted s)).unread = z := drop_of_unread hheader rfl
  have hstart := (reaches_headerStarted hr hp hk hx).trans
    (reaches_headerDone (s := headerStarted s) ⟨hr, rfl⟩ rfl rfl rfl rfl rfl hl hheader)
  obtain ⟨u, ⟨w, ts, hw, hrun⟩, hleaf⟩ := decodeEnds_of_start
    (s := headerDone t .decStart (headerStarted s)) ⟨hr, rfl⟩ rfl rfl rfl hl hk
  rw [hbody] at hw hrun
  exact ⟨u, w, ts, hw, hleaf, hstart.trans hrun⟩

end

/-! ## The whole operation (44_decoder R178, R180, R182) -/

/-- What a source begins with: no first word, a wrong one, a header that cannot be read, or a header (44 R177). -/
theorem stream_cases (m : Word32) (y : Bits) :
    y.length < 32 ∨
    (∃ w x, y = bitsOf 32 w.toNat ++ x ∧ w ≠ m) ∨
    (∃ e w z, y = bitsOf 32 m.toNat ++ (w ++ z) ∧ des (w ++ z) 0 1 = .error e ∧
      desLeft (w ++ z) 0 1 = z ∧ HeaderFails 0 1 e w z) ∨
    (∃ (t : Tree) (z : Bits), y = bitsOf 32 m.toNat ++ (t.ser ++ z) ∧ t.legal) := by
  obtain hshort | hlong := Nat.lt_or_ge y.length 32
  · exact .inl hshort
  obtain ⟨w, x, rfl⟩ := exists_word_append hlong
  by_cases hw : w = m
  · subst hw
    obtain ⟨t, z, rfl, hl, -⟩ | ⟨e, v, hdes, hx, hfails⟩ := des_cases x
    · exact .inr (.inr (.inr ⟨t, z, rfl, hl⟩))
    · rw [hx] at hdes
      exact .inr (.inr (.inl
        ⟨e, v, _, congrArg _ hx, hdes, congrArg (desLeft · 0 1) hx.symm, hfails⟩))
  · exact .inr (.inl ⟨w, x, rfl, hw⟩)

/-- Settles O55: each of the `stream_cases` ends in its own fault, but the last, which ends as `dec` does. -/
theorem decompressIsDecompress : Obligations.DecompressIsDecompress := by
  intro s hr hp hk
  obtain hshort | ⟨w, x, hx, hw⟩ | ⟨e, w, z, hx, hdes, hleft, hfails⟩ | ⟨t, z, hx, hl⟩ :=
    stream_cases Config.magic s.unread
  · rw [decompress_short _ hshort, decompressLeft_short _ hshort, Nat.sub_self]
    refine ⟨_, reaches_magicEod hr hp hk hshort, ?_, fun _ => rfl, nofun, nofun,
      fun _ => ⟨rfl, rfl, rfl⟩, fun _ => ⟨rfl, rfl, rfl⟩, nofun⟩
    rw [if_neg nofun, ← hk]
    rfl
  · have hreach := reaches_magicMismatch hr hp hk hx hw
    rw [hx, decompress_badMagic hw, decompressLeft_badMagic hw, consumed_length rfl]
    refine ⟨_, hreach, ?_, nofun, fun _ => rfl, nofun, fun _ => ⟨rfl, rfl, rfl⟩,
      fun _ => ⟨rfl, rfl, rfl⟩, nofun⟩
    rw [if_neg nofun, ← hk]
    rfl
  · obtain ⟨fs, k, n, ts, hreach⟩ := reaches_headerFault hr hp hk hfails hx
    have hin := hfails.raisedIn
    have hsub : ∀ c, Phase.hdWalk ≠ raisedIn c → e.sub ≠ c := fun c hc he => hc (he ▸ hin.symm)
    have hpos : s.src.pos + (s.unread.length - z.length) = s.src.pos + 32 + w.length := by
      rw [hx, ← List.append_assoc, consumed_length rfl, List.length_append, bitsOf_length,
        Nat.add_assoc]
    rw [hx, decompress_badHeader hdes, decompressLeft_badHeader hdes, hleft, ← hx, hpos]
    dsimp only
    rw [hin]
    refine ⟨_, hreach, ?_, fun he => absurd he (hsub _ nofun), fun he => absurd he (hsub _ nofun),
      ?_, nofun, fun _ => ⟨rfl, rfl, rfl⟩, nofun⟩
    · rw [if_neg (hsub .eodBody nofun), ← hk]
      rfl
    · rintro (he | he)
      · rw [hfails.left_of_eodHdrTag he, List.length_nil, Nat.sub_zero] at hpos
        exact hpos.symm
      · exact absurd he (hsub _ nofun)
  · obtain ⟨u, w, ts, hw, hleaf, hreach⟩ := reaches_decompressEnded hr hp hk hl hx
    have hdes := headerInverse.1 t z hl
    have hdrop : s.unread.drop 32 = t.ser ++ z := by rw [hx, drop_bitsOf_append]
    have hall : s.unread = (bitsOf 32 Config.magic.toNat ++ (t.ser ++ w)) ++ decLeft t z := by
      rw [List.append_assoc, List.append_assoc, ← hw, hx]
    have hpos : s.src.pos + (s.unread.length - (decLeft t z).length) =
        s.src.pos + 32 + t.ser.length + w.length := by
      simp only [consumed_length hall, List.length_append, bitsOf_length, Nat.add_assoc]
    rw [hdrop, hx, decompress_header z hl, decompressLeft_header hl, decompressOut_header hl, ← hx]
    cases hd : dec t z with
    | ok q =>
      obtain ⟨out, rest⟩ := q
      rw [hd, decOut_ok hd] at hreach
      rw [decLeft_ok hd] at hpos
      refine ⟨_, t, z, hreach, hdes, hl, ?_⟩
      rw [hpos, ← Nat.zero_add t.nleaves]
      rfl
    | error e =>
      rw [hd] at hreach
      rw [hpos]
      obtain ⟨y, rfl, -, rfl⟩ | ⟨l, r, rfl, rfl⟩ := dec_error hd
      · obtain rfl := hleaf y rfl
        obtain rfl : w = [] := by simpa [decLeft_leaf] using hw
        exact ⟨_, hreach, rfl, nofun, nofun, nofun, nofun, nofun, fun _ =>
          ⟨_, z, hdes, rfl, rfl, rfl, Nat.zero_add _, rfl, fun _ => ⟨rfl, rfl⟩⟩⟩
      · rw [decLeft_eodBody hd, List.length_nil, Nat.sub_zero] at hpos
        exact ⟨_, hreach, rfl, nofun, nofun, fun _ => hpos.symm, nofun, nofun, fun _ =>
          ⟨_, z, hdes, rfl, rfl, rfl, Nat.zero_add _, rfl, nofun⟩⟩

end Sys2Proof.Machine
end

section
/-! SUPPORT. The statements about faults (60_exceptions): what a step into `FAULT` writes for each cause, and how the CORE leaves it. -/

namespace Sys2Proof.Machine

/-! ## The reads before a raise (20_memory R51, R59) -/

/-- A read that answers a value: the bits were there, and the position is behind them. -/
theorem srcPeek_some_pos {n v : Nat} {s : State} (h : srcPeek n s = some v) :
    s.src.pos + n ≤ s.src.bits.length ∧ (srcAfter n s).src.pos = s.src.pos + n ∧
      v = valOf (s.unread.take n) := by
  have hle : s.src.pos + n ≤ s.src.bits.length := by
    by_contra hlt
    rw [srcPeek, if_neg hlt] at h
    cases h
  rw [srcPeek, if_pos hle, Option.some.injEq] at h
  exact ⟨hle, by rw [srcAfter_src]; exact if_pos hle, h.symm⟩

/-- A read that answers `EOD`: fewer bits were there, and the position stands. -/
theorem srcPeek_none_pos {n : Nat} {s : State} (hn : 0 < n) (h : srcPeek n s = none) :
    s.unread.length < n ∧ (srcAfter n s).src.pos = s.src.pos := by
  have hlt := (srcPeek_eq_none hn).mp h
  exact ⟨hlt, by rw [srcAfter_short hlt]⟩

/-- What a read that answers a value leaves unread. -/
theorem srcAfter_unread_of_some {n v : Nat} {s : State} (h : srcPeek n s = some v) :
    (srcAfter n s).unread = s.unread.drop n := by
  obtain ⟨-, hpos, -⟩ := srcPeek_some_pos h
  rw [State.unread, hpos, srcAfter_src_bits, State.unread, List.drop_drop]

/-- A symbol as the raw value of a fault is the same number (10_state R36, 60_exceptions R204). -/
theorem zext32_toNat (y : Sym) : (zext32 y).toNat = y.toNat := by
  rw [zext32, BitVec.toNat_setWidth_of_le (by decide)]

/-! ## The step into `FAULT` (60_exceptions R201, R204, R205) -/

/-- A rule that ends in a raise has done no more before it than reads of the source and a write of `CUR`. -/
def ReadsOnly (s u : State) : Prop :=
  u = { s with src := ⟨s.src.bits, u.src.pos⟩, cur := u.cur, trace := u.trace }

/-- The raise after such reads, as one update of the state before them. -/
theorem raise_of_readsOnly {s u : State} {sub : FaultSub} (v : Word32) (hu : ReadsOnly s u)
    (hp : s.phase = raisedIn sub) :
    raise sub.kind sub v u =
      { s with
        phase := .fault
        faultCode := sub.kind, faultSub := sub, faultValue := v, faultPhase := raisedIn sub
        src := ⟨s.src.bits, u.src.pos⟩, cur := u.cur, trace := u.trace } := by
  rw [← hp, hu]
  rfl

/-- Settles O33: eight rules end in a raise, one per cause; the others keep the phase, go on in the chain of `CMD`, or go to a phase they name. -/
theorem faultEntry : Obligations.FaultEntry := by
  intro s t hq h hs ht
  cases case_of_step hq h with
  | magicBad w hp hv hw =>
    obtain ⟨hle, hpos, hval⟩ := srcPeek_some_pos hv
    exact ⟨raise_of_readsOnly (sub := .magicMismatch) w rfl hp, hp, ⟨hle, hpos, hw, hval⟩,
      fun _ => rfl⟩
  | magicEod hp hv =>
    obtain ⟨hlt, hpos⟩ := srcPeek_none_pos (by decide) hv
    exact ⟨raise_of_readsOnly (sub := .eodMagic) 0 rfl hp, hp, ⟨hlt, hpos, rfl⟩, fun _ => rfl⟩
  | hdEodTag hp _ hv =>
    obtain ⟨-, hpos⟩ := srcPeek_none_pos Nat.one_pos hv
    exact ⟨raise_of_readsOnly (sub := .eodHdrTag) 0 rfl hp, hp,
      ⟨srcPeek_one_none.mp hv, hpos, rfl⟩, fun _ => rfl⟩
  | hdCapacity hp _ hv hc =>
    obtain ⟨-, hpos, -⟩ := srcPeek_some_pos hv
    exact ⟨raise_of_readsOnly (sub := .capacity) 0 rfl hp, hp, ⟨hc, hpos, rfl⟩, fun _ => rfl⟩
  | hdEodSym hp _ hv h9 =>
    obtain ⟨-, hpos, -⟩ := srcPeek_some_pos hv
    obtain ⟨hlt, hpos9⟩ := srcPeek_none_pos (by decide) h9
    have hlt10 : s.unread.length < 10 := by
      rw [srcAfter_unread_of_some hv, List.length_drop] at hlt
      omega
    exact ⟨raise_of_readsOnly (sub := .eodHdrSym) 0 rfl hp, hp,
      ⟨hlt10, hpos9.trans hpos, rfl⟩, fun _ => rfl⟩
  | hdRange y hp _ hv h9 hy =>
    obtain ⟨-, hpos, -⟩ := srcPeek_some_pos hv
    obtain ⟨hle9, hpos9, hval⟩ := srcPeek_some_pos h9
    rw [hpos] at hle9 hpos9
    rw [srcAfter_unread_of_some hv] at hval
    rw [← zext32_toNat y] at hy hval
    exact ⟨raise_of_readsOnly (sub := .symbolRange) (zext32 y) rfl hp, hp,
      ⟨hle9, hpos9, hy, hval⟩, fun _ => rfl⟩
  | startByte y hp htree hy =>
    obtain ⟨-, htree⟩ := readTree_eq_some.mp htree
    exact ⟨raise_of_readsOnly (sub := .leafRoot) (zext32 y) rfl hp, hp,
      ⟨y, htree, htree.symm, hy, rfl, zext32_toNat y⟩, fun hne => absurd rfl hne⟩
  | bitEod l r hp _ hv =>
    obtain ⟨-, hpos⟩ := srcPeek_none_pos Nat.one_pos hv
    exact ⟨raise_of_readsOnly (sub := .eodBody) 0 rfl hp, hp,
      ⟨srcPeek_one_none.mp hv, hpos, rfl⟩, fun _ => rfl⟩
  | built _ _ _ _ hn | hsLast _ _ _ _ _ hn | hdLast _ _ _ _ _ _ _ _ _ hn =>
    exact absurd ht (ne_fault_of_mem_chain (nextPhase_mem hn).1)
  | bodyCode v p =>
    rw [emitted_eq] at ht
    exact absurd ht hs
  | _ => simp [hs] at ht

/-! ## The way out of `FAULT` (60_exceptions R207, 70_reset R231) -/

/-- In `FAULT` a command on the port has no effect (10_state R40, 60_exceptions R207). -/
theorem exec_command_of_fault {s : State} (w : BitVec 3) (hp : s.phase = .fault) :
    exec (decodeCommand w) s = .next s := by
  obtain ⟨c, rfl⟩ := exists_command w
  exact exec_of_commandCase (.ignored c (by simp [State.accepting, hp]))

/-- Settles O34: without reset the port is read and dropped, or the CORE waits; reset is `resetCore`. -/
theorem faultIsLeftOnlyByReset : Obligations.FaultIsLeftOnlyByReset := by
  intro s hp
  refine ⟨fun hr => ?_, fun hr => ⟨_, step_reset hr, rfl, rfl, rfl, rfl, rfl⟩⟩
  cases hw : s.cmdPort with
  | some w =>
    rw [step_command hr hw]
    exact exec_command_of_fault w hp
  | none =>
    rw [step_of_case ⟨hr, hw⟩ (.wait (.inr (.inr hp))), ← hw]

end Sys2Proof.Machine
end

section
/-! SUPPORT. The statement about reset in any state (70_reset). -/

namespace Sys2Proof.Machine

/-- Settles O5: a step with `RST` asserted reads neither `PHASE` nor the port; it is `resetCore`, the update the rule writes out (70_reset R230, R232, R234). -/
theorem resetFromAnyState : Obligations.ResetFromAnyState := by
  intro s hr
  rw [step_reset hr, resetCore]

end Sys2Proof.Machine
end
